-- ==== Sys2Proof/Word.lean ====
section
/-! DEFINITION. The word types of the core (00_scope.md R8, R10): bytes, 32-bit words, and the
64- and 128-bit numbers a packet carries. Every quantity is unsigned. -/

namespace Sys2Proof

/-- One byte of the data space, of a key, of a nonce, of the keystream. -/
abbrev Byte := BitVec 8

/-- One state word, and one word of a packet or of a response (00_scope.md R8 WORD_BITS). -/
abbrev Word := BitVec 32

/-- Sixteen words, "logically a 4×4 matrix" (10_state.md R21): word `4r + c` is row `r`, column `c`. -/
abbrev Words := Vector Word 16

/-- One 64-byte keystream block (00_scope.md R8 BLOCK_BYTES). -/
abbrev Block := Vector Byte 64

/-- A 64-bit operand: an address, a length, a counter base (30_encoding.md R92). -/
abbrev DWord := BitVec 64

/-- A 128-bit operand: a position, a word position, a stream identifier (30_encoding.md R92). -/
abbrev QWord := BitVec 128

end Sys2Proof
end

