-- ==== Sys2Proof/Syntax.lean ====
section
/-! DEFINITION. The commands of the core, one constructor per row of spec/opcode_table.json
(30_encoding.md R106), over the operands the eleven packet formats carry (R94 to R104). Fields
with a reserved value keep their bits here, because such a value is checked after the row is
chosen (R107, R109): see `Instr.wf` and the legality checks of Machine/Operands.lean. -/

namespace Sys2Proof

/-- The family, `FAM` (10_state.md R20). -/
inductive Family where
  | chacha
  | salsa
  deriving DecidableEq, Repr

/-- The policy, `POL` (10_state.md R20; 30_encoding.md R93). -/
inductive Policy where
  | standard
  | legacy
  | extended
  | rng
  deriving DecidableEq, Repr

/-- The round count of an engine, the legal values of `RND` (10_state.md R20, R32). -/
inductive Rounds where
  | r8
  | r12
  | r20
  deriving DecidableEq, Repr

/-- The backend tag, the legal values of `BACKEND` (10_state.md R20; 42_backends.md R183). -/
inductive Backend where
  | soft
  | sse2
  | avx2
  | avx512
  | neon
  deriving DecidableEq, Repr

/-- The width `W` of the block counter (10_state.md R25). -/
inductive CtrWidth where
  | w32
  | w64
  deriving DecidableEq, Repr

/-- One command with its operands. `rnd` and `bsel` are the raw header fields (R93), `x` the sixteen
operand words, byte strings are in order of their index. -/
inductive Instr where
  /-- QR, format Q (R96): one quarter-round on four selected words. -/
  | qr (fam : Family) (a b c d : Fin 16) (x : Words)
  /-- DROUND, format R with `RC = 0` (R97): one double-round. -/
  | dround (fam : Family) (x : Words)
  /-- ROUNDS, format R (R97): the rounds with feed-forward. -/
  | rounds (fam : Family) (rc : BitVec 8) (x : Words)
  /-- PERMNF, format R (R97): the rounds without feed-forward. -/
  | permnf (fam : Family) (rc : BitVec 8) (x : Words)
  /-- HDERIVE, format K (R99): the subkey derivation. -/
  | hderive (fam : Family) (rnd : BitVec 2) (key : Vector Byte 32) (inp : Vector Byte 16)
  /-- BSIZE, format Z (R94). -/
  | bsize
  /-- MAXPAR, format B (R95). -/
  | maxpar (bsel : BitVec 3)
  /-- GEN, format G (R103). -/
  | gen (fam : Family) (pol : Policy) (rnd : BitVec 2) (bsel : BitVec 3) (nblk : BitVec 8)
      (x : Words) (cb : DWord)
  /-- GENX, format X (R104). -/
  | genx (fam : Family) (pol : Policy) (rnd : BitVec 2) (bsel : BitVec 3) (nblk : BitVec 8)
      (x : Words) (cb : DWord) (addr : DWord)
  /-- INIT, format I (R100): `KLEN` and `NLEN` are the lengths of the two byte strings. -/
  | init (fam : Family) (pol : Policy) (rnd : BitVec 2) (bsel : BitVec 3) (key nonce : List Byte)
  /-- APPLY, format D (R101): the infallible entry. -/
  | apply (addr len : DWord)
  /-- TRYAPPLY, format D (R101): the fallible entry. -/
  | tryApply (addr len : DWord)
  /-- SEEK, format P (R102). -/
  | seek (v : QWord)
  /-- GETPOS, format Z (R94). -/
  | getPos
  /-- RDSTAT, format Z (R94). -/
  | rdStat
  /-- ZEROIZE, format Z (R94). -/
  | zeroize
  /-- RNGFILL, format D (R101). -/
  | rngFill (addr len : DWord)
  /-- RNGGETWP, format Z (R94). -/
  | rngGetWp
  /-- RNGSETWP, format P (R102). -/
  | rngSetWp (v : QWord)
  /-- RNGGETSTR, format Z (R94). -/
  | rngGetStr
  /-- RNGSETSTR, format P (R102). -/
  | rngSetStr (v : QWord)
  /-- RNGSAVE, format Z (R94). -/
  | rngSave
  /-- RNGLOAD, format L (R104): the three stream words and the word position. -/
  | rngLoad (id0 id1 id2 : Word) (wp : QWord)
  deriving DecidableEq, Repr

end Sys2Proof
end

