-- ==== Sys2Proof/Machine/Operands.lean ====
section
/-! DEFINITION. What an operand means: the legal values of the header fields (30_encoding.md R93,
R98, R103, R109), the parameters they stand for (00_scope.md R8; 42_backends.md R183), the backend
selection (R184), and the conversion between words and bytes (00_scope.md R12; 20_memory.md R62). -/

namespace Sys2Proof.Machine

/-! ### Codes of the fields (10_state.md R20) -/

def famCode : Family → BitVec 1
  | .chacha => 0
  | .salsa => 1

def polCode : Policy → BitVec 2
  | .standard => 0
  | .legacy => 1
  | .extended => 2
  | .rng => 3

def rndCode : Rounds → BitVec 2
  | .r8 => 0
  | .r12 => 1
  | .r20 => 2

def backendCode : Backend → BitVec 3
  | .soft => 0
  | .sse2 => 1
  | .avx2 => 2
  | .avx512 => 3
  | .neon => 4

/-! ### Legal field values (30_encoding.md R93, R98, R103, R109) -/

/-- The round count an `RND` field stands for; 3 is reserved. -/
def roundsOf (rnd : BitVec 2) : Option Rounds :=
  if rnd = 0 then some .r8 else if rnd = 1 then some .r12 else if rnd = 2 then some .r20 else none

/-- `rc(RND)` (10_state.md R32). -/
def roundCount : Rounds → Nat
  | .r8 => 8
  | .r12 => 12
  | .r20 => 20

/-- `BSEL` 6 and 7 are reserved. -/
def legalBsel (bsel : BitVec 3) : Bool := bsel.toNat < 6

/-- The six variants of R98. -/
def legalVariant : Family → Policy → Bool
  | .chacha, _ => true
  | .salsa, .legacy => true
  | .salsa, .extended => true
  | .salsa, .standard => false
  | .salsa, .rng => false

/-- The three base layouts GEN and GENX accept (R103). -/
def legalLayout : Family → Policy → Bool
  | .chacha, .standard => true
  | .chacha, .legacy => true
  | .salsa, .legacy => true
  | _, _ => false

/-- QR's four indices are pairwise distinct (R109; 40_permutation.md R133). -/
def distinct4 (a b c d : Fin 16) : Bool :=
  a ≠ b && a ≠ c && a ≠ d && b ≠ c && b ≠ d && c ≠ d

/-- `NONCE_BYTES(FAM, POL)` (R98): 12 standard and RNG, 8 legacy, 24 extended. -/
def nonceBytes : Policy → Nat
  | .standard => 12
  | .legacy => 8
  | .extended => 24
  | .rng => 12

/-- `CTR_BITS(FAM, POL)` (10_state.md R25). For the two reserved pairs, which no constructed engine
has, the width is that of the family's layout. DESIGN CHOICE, safe (log entry 9). -/
def ctrWidth : Family → Policy → CtrWidth
  | .chacha, .legacy => .w64
  | .chacha, _ => .w32
  | .salsa, _ => .w64

def widthBits : CtrWidth → Nat
  | .w32 => 32
  | .w64 => 64

/-- `CTRMAX = 2^W - 1` (10_state.md R26). -/
def ctrMax (w : CtrWidth) : Nat := 2 ^ widthBits w - 1

/-! ### Backends (42_backends.md R183, R184) -/

/-- `PAR(backend)`. -/
def parOf : Backend → Nat
  | .soft => 1
  | .sse2 => 4
  | .avx2 => 8
  | .avx512 => 16
  | .neon => 4

/-- Whether `CAPS` enables a backend; Soft is always available. -/
def available (caps : BitVec 4) : Backend → Bool
  | .soft => true
  | .sse2 => caps.getLsbD 0
  | .avx2 => caps.getLsbD 1
  | .avx512 => caps.getLsbD 2
  | .neon => caps.getLsbD 3

/-- The tag a forced `BSEL` names: `t = BSEL - 1`. -/
def forcedTag (bsel : BitVec 3) : Backend :=
  if bsel = 2 then .sse2 else if bsel = 3 then .avx2 else if bsel = 4 then .avx512
  else if bsel = 5 then .neon else .soft

/-- `select(BSEL, CAPS)` (R184). It is total (R185); reserved `BSEL` values are refused before it runs. -/
def select (bsel : BitVec 3) (caps : BitVec 4) : Backend :=
  if bsel = 0 then
    if available caps .avx512 then .avx512
    else if available caps .avx2 then .avx2
    else if available caps .sse2 then .sse2
    else if available caps .neon then .neon
    else .soft
  else if available caps (forcedTag bsel) then forcedTag bsel else .soft

/-! ### Words and bytes, little-endian (00_scope.md R12; 20_memory.md R62) -/

/-- `le32(b0, b1, b2, b3) = b0 + 2^8*b1 + 2^16*b2 + 2^24*b3`. -/
def le32 (b0 b1 b2 b3 : Byte) : Word := b3 ++ b2 ++ b1 ++ b0

/-- Byte `k` of a word: bits `8k+7 : 8k`. -/
def byteOf (w : Word) (k : Nat) : Byte := w.extractLsb' (8 * k) 8

/-- `bytes_le(w)`: the four bytes of a word, lowest first. -/
def bytesLE (w : Word) : List Byte := [byteOf w 0, byteOf w 1, byteOf w 2, byteOf w 3]

/-- Word `i` of a byte string: `le32(B[4i .. 4i+3])`. -/
def wordLE (bs : List Byte) (i : Nat) : Word :=
  le32 (bs.getD (4 * i) 0) (bs.getD (4 * i + 1) 0) (bs.getD (4 * i + 2) 0) (bs.getD (4 * i + 3) 0)

/-- `ser(X)`: byte `j` is bits `8*(j mod 4)+7 : 8*(j mod 4)` of word `j div 4`. -/
def ser (x : Words) : Block := Vector.ofFn fun j : Fin 64 => byteOf x[j.val / 4] (j.val % 4)

/-- A number as `n` bytes, lowest first (positions and records: 43_stream_engine.md R222;
45_rng_adapter.md R274, R277, R280). -/
def natBytes : Nat → Nat → List Byte
  | 0, _ => []
  | n + 1, v => BitVec.ofNat 8 v :: natBytes n (v / 256)

end Sys2Proof.Machine
end

