-- ==== Sys2Proof/WellFormed.lean ====
section
/-! DEFINITION. Which instructions are well formed: the ones a packet can carry
(`Instr.encodable`: INIT's two length fields are bytes, 30_encoding.md R100) and whose operands
R109 allows. An instruction that is not well formed and yet comes out of the decoder raises
IllegalCommand in its meaning. GEN and GENX check `NBLK` against the backend that `CAPS` selects
(R109): here it is enough that some platform accepts it, and the meaning makes the check itself. -/

namespace Sys2Proof

open Machine

/-- A packet can carry the instruction: `KLEN` and `NLEN` are 0..255 (R100). -/
def Instr.encodable : Instr → Bool
  | .init _ _ _ _ key nonce => key.length < 256 && nonce.length < 256
  | _ => true

/-- Some platform accepts `NBLK`: it is `PAR` of a backend that `BSEL` can select. -/
def possibleBlocks (bsel : BitVec 3) (nblk : BitVec 8) : Bool :=
  (List.range 16).any fun c => nblk.toNat == parOf (select bsel (BitVec.ofNat 4 c))

/-- The operands are ones R109 allows. -/
def Instr.legal : Instr → Bool
  | .qr _ a b c d _ => distinct4 a b c d
  | .dround _ _ => true
  | .rounds _ _ _ => true
  | .permnf _ _ _ => true
  | .hderive _ rnd _ _ => (roundsOf rnd).isSome
  | .bsize => true
  | .maxpar bsel => legalBsel bsel
  | .gen fam pol rnd bsel nblk _ cb =>
    legalLayout fam pol && (roundsOf rnd).isSome && legalBsel bsel && possibleBlocks bsel nblk
      && cb.toNat < 2 ^ widthBits (ctrWidth fam pol)
  | .genx fam pol rnd bsel nblk _ cb _ =>
    legalLayout fam pol && (roundsOf rnd).isSome && legalBsel bsel && possibleBlocks bsel nblk
      && cb.toNat < 2 ^ widthBits (ctrWidth fam pol)
  | .init fam pol rnd bsel _ _ => legalVariant fam pol && (roundsOf rnd).isSome && legalBsel bsel
  | .apply _ _ => true
  | .tryApply _ _ => true
  | .seek v => v.toNat < 2 ^ 64
  | .getPos => true
  | .rdStat => true
  | .zeroize => true
  | .rngFill _ _ => true
  | .rngGetWp => true
  | .rngSetWp _ => true
  | .rngGetStr => true
  | .rngSetStr v => v.toNat < 2 ^ 96
  | .rngSave => true
  | .rngLoad _ _ _ _ => true

/-- A well-formed instruction. -/
def Instr.wf (i : Instr) : Bool := i.encodable && i.legal

end Sys2Proof
end

