-- ==== Sys2Proof/Decode.lean ====
section
/-! DEFINITION. Packets (30_encoding.md): the opcode map as a list of rows (R106, R107), packet
lengths (R111), the decoder, total on any word stream, and the encoder. A row is chosen by `OPC`
and its must-be-zero bits are checked by its mask; reserved field values are left to the meaning
(R107, R109). -/

namespace Sys2Proof

open Machine

/-! ### Fields and packing (R90 to R93) -/

/-- `w[lo+n-1 : lo]`. -/
def bits (w : Word) (lo n : Nat) : BitVec n := w.extractLsb' lo n

/-- The `FAM` bit of a header (R93). -/
def famOf (b : BitVec 1) : Family := if b = 0 then .chacha else .salsa

/-- The `POL` field of a header (R93). -/
def polOf (b : BitVec 2) : Policy :=
  if b = 0 then .standard else if b = 1 then .legacy else if b = 2 then .extended else .rng

/-- A four-bit word index of a header (R96). -/
def indexOf (b : BitVec 4) : Fin 16 := b.toFin

/-- Byte `k` of a packet word: bits `8k+7 : 8k` (R91). -/
def packetByte (w : Word) (k : Nat) : Byte := w.extractLsb' (8 * k) 8

/-- The packet word that holds four bytes of a string (R91). -/
def packetWord (b0 b1 b2 b3 : Byte) : Word := b3 ++ b2 ++ b1 ++ b0

/-- `ceil(L/4)`, the words of an `L`-byte field (R91). -/
def wordsFor (len : Nat) : Nat := (len + 3) / 4

/-- The words of a byte string, the unused bits of the last one zero (R91). -/
def packBytes (bs : List Byte) : List Word :=
  (List.range (wordsFor bs.length)).map fun i =>
    packetWord (bs.getD (4 * i) 0) (bs.getD (4 * i + 1) 0) (bs.getD (4 * i + 2) 0)
      (bs.getD (4 * i + 3) 0)

/-- Byte `i` of the string that starts at word `k` of the operand words: `F[i]` is in word `i div 4`
at byte `i mod 4` (R91). -/
def stringByte (ws : List Word) (k i : Nat) : Byte := packetByte (ws.getD (k + i / 4) 0) (i % 4)

/-- The `len` bytes of the string that starts at word `k`. -/
def stringAt (ws : List Word) (k len : Nat) : List Byte := (List.range len).map (stringByte ws k)

/-- "unused high bits of the last word must be zero" (R91). -/
def paddingZero (ws : List Word) (k len : Nat) : Bool :=
  (List.range (4 * wordsFor len - len)).all fun j => stringByte ws k (len + j) == 0

/-- Sixteen operand words from word `k`. -/
def wordsAt (ws : List Word) (k : Nat) : Words := Vector.ofFn fun i : Fin 16 => ws.getD (k + i.val) 0

/-- A 64-bit operand, low word first (R92). -/
def dwordAt (ws : List Word) (k : Nat) : DWord := ws.getD (k + 1) 0 ++ ws.getD k 0

/-- A 128-bit operand, lowest word first (R92). -/
def qwordAt (ws : List Word) (k : Nat) : QWord :=
  ws.getD (k + 3) 0 ++ ws.getD (k + 2) 0 ++ ws.getD (k + 1) 0 ++ ws.getD k 0

/-! ### The opcode map (R106, R107; spec/opcode_table.json) -/

/-- The packet formats (R94 to R104). -/
inductive Format where
  | Z | B | Q | R | K | I | D | P | G | X | L
  deriving DecidableEq, Repr

/-- The rows of the opcode map. -/
inductive Op where
  | qr | dround | rounds | permnf | hderive | bsize | maxpar | gen | genx | init | apply | tryApply
  | seek | getPos | rdStat | zeroize | rngFill | rngGetWp | rngSetWp | rngGetStr | rngSetStr
  | rngSave | rngLoad
  deriving DecidableEq, Repr

/-- One row: opcode, format, and the mask of `OPC` and the must-be-zero bits of `W0` (R107). The
row's `match` is its opcode with every other bit zero. -/
structure Row where
  opc : Byte
  op : Op
  fmt : Format
  mask : Word
  deriving DecidableEq, Repr

/-- The twenty-three rows. -/
def opcodeTable : List Row :=
  [ ⟨0x01, .qr, .Q, 0x0000FEFF⟩, ⟨0x02, .dround, .R, 0xFFFFFEFF⟩, ⟨0x03, .rounds, .R, 0xFF00FEFF⟩,
    ⟨0x04, .permnf, .R, 0xFF00FEFF⟩, ⟨0x05, .hderive, .K, 0xFFFFE6FF⟩,
    ⟨0x10, .bsize, .Z, 0xFFFFFFFF⟩, ⟨0x11, .maxpar, .B, 0xFFFF1FFF⟩, ⟨0x12, .gen, .G, 0xFF0000FF⟩,
    ⟨0x13, .genx, .X, 0xFF0000FF⟩, ⟨0x20, .init, .I, 0x000000FF⟩, ⟨0x21, .apply, .D, 0xFFFFFFFF⟩,
    ⟨0x22, .tryApply, .D, 0xFFFFFFFF⟩, ⟨0x23, .seek, .P, 0xFFFFFFFF⟩,
    ⟨0x24, .getPos, .Z, 0xFFFFFFFF⟩, ⟨0x25, .rdStat, .Z, 0xFFFFFFFF⟩,
    ⟨0x26, .zeroize, .Z, 0xFFFFFFFF⟩, ⟨0x30, .rngFill, .D, 0xFFFFFFFF⟩,
    ⟨0x31, .rngGetWp, .Z, 0xFFFFFFFF⟩, ⟨0x32, .rngSetWp, .P, 0xFFFFFFFF⟩,
    ⟨0x33, .rngGetStr, .Z, 0xFFFFFFFF⟩, ⟨0x34, .rngSetStr, .P, 0xFFFFFFFF⟩,
    ⟨0x35, .rngSave, .Z, 0xFFFFFFFF⟩, ⟨0x36, .rngLoad, .L, 0xFFFFFFFF⟩ ]

/-- The row a header's `OPC` names; none for a reserved opcode (R108). -/
def rowOf (w0 : Word) : Option Row := opcodeTable.find? fun r => r.opc == bits w0 0 8

/-- `(W0 & mask) == match` (R107). -/
def rowMatches (r : Row) (w0 : Word) : Bool := w0 &&& r.mask == r.opc.setWidth 32

/-- The packet length of a format (R111); for format I it depends on `KLEN` and `NLEN`. -/
def formatWords (f : Format) (w0 : Word) : Nat :=
  match f with
  | .Z => 1
  | .B => 1
  | .Q => 17
  | .R => 17
  | .K => 13
  | .I => 1 + wordsFor (bits w0 16 8).toNat + wordsFor (bits w0 24 8).toNat
  | .D => 5
  | .P => 5
  | .G => 19
  | .X => 21
  | .L => 8

/-- The number of words the packet with header `w0` takes: one for a reserved opcode (R108, R302). -/
def packetWords (w0 : Word) : Nat :=
  match rowOf w0 with
  | none => 1
  | some r => formatWords r.fmt w0

/-! ### The decoder -/

/-- Why a packet names no command (R108, R109, R91). -/
inductive Illegal where
  /-- `OPC` is none of the 23 (R108). -/
  | reservedOpcode
  /-- A must-be-zero bit of the header is 1 (R109). -/
  | mustBeZero
  /-- Unused high bits of a byte string's last word are not zero (R91, R109). -/
  | padding
  deriving DecidableEq, Repr

/-- What the head of a word stream is: a command with the words after it, a packet that names no
command with the words after it, or less than a packet (R111). -/
inductive Decoded where
  | instr (i : Instr) (rest : List Word)
  | illegal (why : Illegal) (rest : List Word)
  | incomplete
  deriving DecidableEq, Repr

/-- The instruction of a row, from the header and the operand words `W1, W2, …` (R94 to R104); none
if a byte string's padding is not zero. -/
def decodeOperands (op : Op) (w0 : Word) (ws : List Word) : Option Instr :=
  let fam := famOf (bits w0 8 1)
  let pol := polOf (bits w0 9 2)
  let rnd := bits w0 11 2
  let bsel := bits w0 13 3
  match op with
  | .qr => some (.qr fam (indexOf (bits w0 16 4)) (indexOf (bits w0 20 4)) (indexOf (bits w0 24 4))
      (indexOf (bits w0 28 4)) (wordsAt ws 0))
  | .dround => some (.dround fam (wordsAt ws 0))
  | .rounds => some (.rounds fam (bits w0 16 8) (wordsAt ws 0))
  | .permnf => some (.permnf fam (bits w0 16 8) (wordsAt ws 0))
  | .hderive => some (.hderive fam rnd (Vector.ofFn fun i : Fin 32 => stringByte ws 0 i.val)
      (Vector.ofFn fun i : Fin 16 => stringByte ws 8 i.val))
  | .bsize => some .bsize
  | .maxpar => some (.maxpar bsel)
  | .gen => some (.gen fam pol rnd bsel (bits w0 16 8) (wordsAt ws 0) (dwordAt ws 16))
  | .genx => some (.genx fam pol rnd bsel (bits w0 16 8) (wordsAt ws 0) (dwordAt ws 16)
      (dwordAt ws 18))
  | .init =>
    let klen := (bits w0 16 8).toNat
    let nlen := (bits w0 24 8).toNat
    if paddingZero ws 0 klen && paddingZero ws (wordsFor klen) nlen then
      some (.init fam pol rnd bsel (stringAt ws 0 klen) (stringAt ws (wordsFor klen) nlen))
    else none
  | .apply => some (.apply (dwordAt ws 0) (dwordAt ws 2))
  | .tryApply => some (.tryApply (dwordAt ws 0) (dwordAt ws 2))
  | .seek => some (.seek (qwordAt ws 0))
  | .getPos => some .getPos
  | .rdStat => some .rdStat
  | .zeroize => some .zeroize
  | .rngFill => some (.rngFill (dwordAt ws 0) (dwordAt ws 2))
  | .rngGetWp => some .rngGetWp
  | .rngSetWp => some (.rngSetWp (qwordAt ws 0))
  | .rngGetStr => some .rngGetStr
  | .rngSetStr => some (.rngSetStr (qwordAt ws 0))
  | .rngSave => some .rngSave
  | .rngLoad => some (.rngLoad (ws.getD 0 0) (ws.getD 1 0) (ws.getD 2 0) (qwordAt ws 3))

/-- The command of a whole packet whose header is `w0` and whose operand words are `ws`. -/
def decodePacket (w0 : Word) (ws : List Word) : Except Illegal Instr :=
  match rowOf w0 with
  | none => .error .reservedOpcode
  | some r =>
    if rowMatches r w0 then
      match decodeOperands r.op w0 ws with
      | some i => .ok i
      | none => .error .padding
    else .error .mustBeZero

/-- The head of a word stream (R90, R111, R302, R353): the packet takes `packetWords` words, whatever
they are, and what follows is the next packet. -/
def decode : List Word → Decoded
  | [] => .incomplete
  | w0 :: ws =>
    let n := packetWords w0 - 1
    if ws.length < n then .incomplete
    else
      match decodePacket w0 (ws.take n) with
      | .ok i => .instr i (ws.drop n)
      | .error why => .illegal why (ws.drop n)

/-! ### The encoder (R94 to R104) -/

/-- The words of a 64-bit operand. -/
def dwordWords (v : DWord) : List Word := [v.extractLsb' 0 32, v.extractLsb' 32 32]

/-- The words of a 128-bit operand. -/
def qwordWords (v : QWord) : List Word :=
  [v.extractLsb' 0 32, v.extractLsb' 32 32, v.extractLsb' 64 32, v.extractLsb' 96 32]

/-- A word index as a header field. -/
def indexBits (i : Fin 16) : BitVec 4 := BitVec.ofFin i

/-- The packet of an instruction. -/
def encode : Instr → List Word
  | .qr fam a b c d x =>
    (indexBits d ++ indexBits c ++ indexBits b ++ indexBits a ++ 0#7 ++ famCode fam ++ 0x01#8)
      :: x.toList
  | .dround fam x => (0#23 ++ famCode fam ++ 0x02#8) :: x.toList
  | .rounds fam rc x => (0#8 ++ rc ++ 0#7 ++ famCode fam ++ 0x03#8) :: x.toList
  | .permnf fam rc x => (0#8 ++ rc ++ 0#7 ++ famCode fam ++ 0x04#8) :: x.toList
  | .hderive fam rnd key inp =>
    (0#19 ++ rnd ++ 0#2 ++ famCode fam ++ 0x05#8) :: (packBytes key.toList ++ packBytes inp.toList)
  | .bsize => [0x00000010]
  | .maxpar bsel => [0#16 ++ bsel ++ 0#5 ++ 0x11#8]
  | .gen fam pol rnd bsel nblk x cb =>
    (0#8 ++ nblk ++ bsel ++ rnd ++ polCode pol ++ famCode fam ++ 0x12#8)
      :: (x.toList ++ dwordWords cb)
  | .genx fam pol rnd bsel nblk x cb addr =>
    (0#8 ++ nblk ++ bsel ++ rnd ++ polCode pol ++ famCode fam ++ 0x13#8)
      :: (x.toList ++ dwordWords cb ++ dwordWords addr)
  | .init fam pol rnd bsel key nonce =>
    (BitVec.ofNat 8 nonce.length ++ BitVec.ofNat 8 key.length ++ bsel ++ rnd ++ polCode pol
      ++ famCode fam ++ 0x20#8) :: (packBytes key ++ packBytes nonce)
  | .apply addr len => 0x00000021 :: (dwordWords addr ++ dwordWords len)
  | .tryApply addr len => 0x00000022 :: (dwordWords addr ++ dwordWords len)
  | .seek v => 0x00000023 :: qwordWords v
  | .getPos => [0x00000024]
  | .rdStat => [0x00000025]
  | .zeroize => [0x00000026]
  | .rngFill addr len => 0x00000030 :: (dwordWords addr ++ dwordWords len)
  | .rngGetWp => [0x00000031]
  | .rngSetWp v => 0x00000032 :: qwordWords v
  | .rngGetStr => [0x00000033]
  | .rngSetStr v => 0x00000034 :: qwordWords v
  | .rngSave => [0x00000035]
  | .rngLoad id0 id1 id2 wp => 0x00000036 :: id0 :: id1 :: id2 :: qwordWords wp

/-! ### The table's view (spec/opcode_table.json) -/

/-- The packet whose bits are `w`, bit 0 the least significant bit of `W0`, the bits above `nbits`
zero: exactly as many words as its header asks for. -/
def tablePacket (nbits w : Nat) : List Word :=
  let v := w % 2 ^ nbits
  (List.range (packetWords (BitVec.ofNat 32 v))).map fun k => BitVec.ofNat 32 (v / 2 ^ (32 * k))

/-- The instruction the decoder reads from those words. -/
def decodeTableWord (nbits w : Nat) : Option Instr :=
  match decode (tablePacket nbits w) with
  | .instr i _ => some i
  | .illegal _ _ => none
  | .incomplete => none

end Sys2Proof
end

