-- ==== Sys2Proof/Machine/Arx.lean ====
section
/-! DEFINITION. The Permutation Core as pure functions (40_permutation.md R130 to R140): rotation,
the two quarter-rounds, the index groups, the double-round, the rounds without and with
feed-forward. Every addition is modulo `2^32` (R131). -/

namespace Sys2Proof.Machine

/-- `rotl(a, n)` for `0 < n < 32` (00_scope.md R11). -/
def rotl (a : Word) (n : Nat) : Word := (a <<< n) ||| (a >>> (32 - n))

/-- The ChaCha quarter-round `QRC(x, a, b, c, d)` (R132), rotations 16, 12, 8, 7. -/
def qrc (x : Words) (a b c d : Fin 16) : Words :=
  let y := x.set a (x[a] + x[b])
  let y := y.set d (rotl (y[d] ^^^ y[a]) 16)
  let y := y.set c (y[c] + y[d])
  let y := y.set b (rotl (y[b] ^^^ y[c]) 12)
  let y := y.set a (y[a] + y[b])
  let y := y.set d (rotl (y[d] ^^^ y[a]) 8)
  let y := y.set c (y[c] + y[d])
  y.set b (rotl (y[b] ^^^ y[c]) 7)

/-- The Salsa quarter-round `QRS(x, a, b, c, d)` (R134), rotations 7, 9, 13, 18: add two words, rotate
the sum, XOR it into a third (90_conflicts.md C1). -/
def qrs (x : Words) (a b c d : Fin 16) : Words :=
  let y := x.set b (x[b] ^^^ rotl (x[a] + x[d]) 7)
  let y := y.set c (y[c] ^^^ rotl (y[b] + y[a]) 9)
  let y := y.set d (y[d] ^^^ rotl (y[c] + y[b]) 13)
  y.set a (y[a] ^^^ rotl (y[d] + y[c]) 18)

/-- The quarter-round of a family (R133, R136). -/
def quarter (fam : Family) (x : Words) (a b c d : Fin 16) : Words :=
  match fam with
  | .chacha => qrc x a b c d
  | .salsa => qrs x a b c d

/-- An `(a, b, c, d)` tuple of R135. -/
abbrev Group := Fin 16 × Fin 16 × Fin 16 × Fin 16

/-- The first pass of a double-round: the columns (R135). -/
def firstPass : Family → List Group
  | .chacha => [(0, 4, 8, 12), (1, 5, 9, 13), (2, 6, 10, 14), (3, 7, 11, 15)]
  | .salsa => [(0, 4, 8, 12), (5, 9, 13, 1), (10, 14, 2, 6), (15, 3, 7, 11)]

/-- The second pass: diagonals for ChaCha, rows for Salsa (R135). -/
def secondPass : Family → List Group
  | .chacha => [(0, 5, 10, 15), (1, 6, 11, 12), (2, 7, 8, 13), (3, 4, 9, 14)]
  | .salsa => [(0, 1, 2, 3), (5, 6, 7, 4), (10, 11, 8, 9), (15, 12, 13, 14)]

/-- One quarter-round after another, each on the result of the one before. -/
def applyGroups (fam : Family) (x : Words) (gs : List Group) : Words :=
  gs.foldl (fun y g => quarter fam y g.1 g.2.1 g.2.2.1 g.2.2.2) x

/-- `DR(x, FAM)`: the first pass, then the second (R136). -/
def doubleRound (fam : Family) (x : Words) : Words :=
  applyGroups fam (applyGroups fam x (firstPass fam)) (secondPass fam)

/-- `n` double-rounds. -/
def doubleRounds (fam : Family) : Nat → Words → Words
  | 0, x => x
  | n + 1, x => doubleRounds fam n (doubleRound fam x)

/-- `PERM_NF(x, FAM, rc)`: `rc div 2` double-rounds, no feed-forward (R138). -/
def permNF (fam : Family) (rc : Nat) (x : Words) : Words := doubleRounds fam (rc / 2) x

/-- Word-wise addition modulo `2^32` (R140). -/
def addWords (x y : Words) : Words := Vector.ofFn fun i : Fin 16 => x[i] + y[i]

/-- `PERM(x, FAM, rc)`: the rounds, then the original state added to every word (R140). -/
def perm (fam : Family) (rc : Nat) (x : Words) : Words := addWords (permNF fam rc x) x

end Sys2Proof.Machine
end

