-- ==== Sys2Proof/Machine/Builder.lean ====
section
/-! DEFINITION. The State Builder and the block function (41_state_builder.md), and the subkey
derivation that the Variant Policy puts before them (44_variant_subkey.md R252 to R256). All are
pure functions, and none can fail (R169). -/

namespace Sys2Proof.Machine

/-! ### Constants and layouts (R160 to R164) -/

/-- `C0..C3`, "expand 32-byte k" (R160). -/
def const0 : Word := 0x61707865
def const1 : Word := 0x3320646e
def const2 : Word := 0x79622d32
def const3 : Word := 0x6b206574

/-- `Build(0, Standard, key, nonce12, c)` (R162). -/
def buildStandard (key nonce : List Byte) (c : Nat) : Words :=
  #v[const0, const1, const2, const3,
    wordLE key 0, wordLE key 1, wordLE key 2, wordLE key 3,
    wordLE key 4, wordLE key 5, wordLE key 6, wordLE key 7,
    BitVec.ofNat 32 c, wordLE nonce 0, wordLE nonce 1, wordLE nonce 2]

/-- `Build(0, Legacy, key, nonce8, c)` (R163). -/
def buildLegacy (key nonce : List Byte) (c : Nat) : Words :=
  #v[const0, const1, const2, const3,
    wordLE key 0, wordLE key 1, wordLE key 2, wordLE key 3,
    wordLE key 4, wordLE key 5, wordLE key 6, wordLE key 7,
    BitVec.ofNat 32 c, BitVec.ofNat 32 (c / 2 ^ 32), wordLE nonce 0, wordLE nonce 1]

/-- `Build(1, Legacy, key, nonce8, c)` (R164). -/
def buildSalsa (key nonce : List Byte) (c : Nat) : Words :=
  #v[const0, wordLE key 0, wordLE key 1, wordLE key 2,
    wordLE key 3, const1, wordLE nonce 0, wordLE nonce 1,
    BitVec.ofNat 32 c, BitVec.ofNat 32 (c / 2 ^ 32), const2, wordLE key 4,
    wordLE key 5, wordLE key 6, wordLE key 7, const3]

/-! ### The counter words (10_state.md R25; R165) -/

/-- The counter a state holds, `W` bits wide. -/
def counterOf (fam : Family) (w : CtrWidth) (x : Words) : Nat :=
  match w, fam with
  | .w32, _ => x[12].toNat
  | .w64, .chacha => x[12].toNat + 2 ^ 32 * x[13].toNat
  | .w64, .salsa => x[8].toNat + 2 ^ 32 * x[9].toNat

/-- `WithCounter(X, FAM, W, c)` (R165): the counter words replaced by `c`, reduced modulo `2^W`. -/
def withCounter (fam : Family) (w : CtrWidth) (c : Nat) (x : Words) : Words :=
  match w, fam with
  | .w32, _ => x.set 12 (BitVec.ofNat 32 c)
  | .w64, .chacha => (x.set 12 (BitVec.ofNat 32 c)).set 13 (BitVec.ofNat 32 (c / 2 ^ 32))
  | .w64, .salsa => (x.set 8 (BitVec.ofNat 32 c)).set 9 (BitVec.ofNat 32 (c / 2 ^ 32))

/-! ### The block function (R166) -/

/-- `ser(PERM(X, FAM, rc))`: the block of the state as it stands. -/
def blockOf (fam : Family) (rc : Nat) (x : Words) : Block := ser (perm fam rc x)

/-- `Block(X, FAM, W, rc, c)`: the keystream block of index `c` (R166). -/
def blockAt (fam : Family) (w : CtrWidth) (rc : Nat) (x : Words) (c : Nat) : Block :=
  blockOf fam rc (withCounter fam w c x)

/-- `KS[p] = Block(X0, FAM, W, rc, p div 64)[p mod 64]` (R167). It does not depend on the counter
words of `x`. -/
def keystreamByte (fam : Family) (w : CtrWidth) (rc : Nat) (x : Words) (p : Nat) : Byte :=
  (blockAt fam w rc x (p / 64))[p % 64]'(Nat.mod_lt p (by decide))

/-! ### The subkey derivation (44_variant_subkey.md R252, R253) -/

/-- `HState(FAM, key, in)` (R252). -/
def hState (fam : Family) (key inp : List Byte) : Words :=
  match fam with
  | .chacha =>
    #v[const0, const1, const2, const3,
      wordLE key 0, wordLE key 1, wordLE key 2, wordLE key 3,
      wordLE key 4, wordLE key 5, wordLE key 6, wordLE key 7,
      wordLE inp 0, wordLE inp 1, wordLE inp 2, wordLE inp 3]
  | .salsa =>
    #v[const0, wordLE key 0, wordLE key 1, wordLE key 2,
      wordLE key 3, const1, wordLE inp 0, wordLE inp 1,
      wordLE inp 2, wordLE inp 3, const2, wordLE key 4,
      wordLE key 5, wordLE key 6, wordLE key 7, const3]

/-- The eight words taken from the permuted state, in order (R253). -/
def hOutput (fam : Family) (w : Words) : List Word :=
  match fam with
  | .chacha => [w[0], w[1], w[2], w[3], w[12], w[13], w[14], w[15]]
  | .salsa => [w[0], w[5], w[10], w[15], w[6], w[7], w[8], w[9]]

/-- `HDerive(FAM, rc, key, in)`: 32 bytes, no feed-forward (R253). -/
def hDerive (fam : Family) (rc : Nat) (key inp : List Byte) : List Byte :=
  (hOutput fam (permNF fam rc (hState fam key inp))).flatMap bytesLE

/-! ### The initial state of each variant (43_stream_engine.md R211; R255) -/

/-- The state INIT builds, counter 0. The reserved pairs (R98) never get here: INIT refuses them, and
they are given the family's own layout. -/
def initialWords (fam : Family) (pol : Policy) (rc : Nat) (key nonce : List Byte) : Words :=
  match fam, pol with
  | .chacha, .standard => buildStandard key nonce 0
  | .chacha, .legacy => buildLegacy key nonce 0
  | .chacha, .extended =>
    buildStandard (hDerive .chacha rc key (nonce.take 16)) ([0, 0, 0, 0] ++ nonce.drop 16) 0
  | .chacha, .rng => buildStandard key nonce 0
  | .salsa, .legacy => buildSalsa key nonce 0
  | .salsa, .extended => buildSalsa (hDerive .salsa rc key (nonce.take 16)) (nonce.drop 16) 0
  | .salsa, .standard => buildSalsa key nonce 0
  | .salsa, .rng => buildSalsa key nonce 0

end Sys2Proof.Machine
end

