-- ==== Sys2Proof/Config.lean ====
section
/-! DEFINITION. What the platform or this model fixes where the spec names no value
(00_scope.md R9, 10_state.md R40). The parameters that the spec itself fixes (widths, backends,
variants) are in Machine/Operands.lean. No free value is needed: no rule of the spec leaves the
result of a command open (93_implementation_defined.md part 1). -/

namespace Sys2Proof

/-- What a byte of the data space reads as when nothing has written it. DESIGN CHOICE, unsafe
(log entry 1): the data space belongs to the host (20_memory.md R60) and the spec gives no contents. -/
def Config.unwrittenByte : Byte := 0

/-- A word of `S` at reset. DESIGN CHOICE, unsafe (log entry 2): 10_state.md R40 says "unspecified;
unreadable". -/
def Config.resetWord : Word := 0

/-- A byte of `BUF` at reset. DESIGN CHOICE, unsafe (log entry 2), as `Config.resetWord`. -/
def Config.resetByte : Byte := 0

/-- The capability input in `State.reset`. DESIGN CHOICE, unsafe (log entry 5): `CAPS` is an input with
any value (10_state.md R37, 93 U7). Every statement quantifies over the field. -/
def Config.resetCaps : BitVec 4 := 0

end Sys2Proof
end

