-- ==== Sys2Proof/Machine/State.lean ====
section
/-! DEFINITION. The state of one engine instance (10_state.md R20) and of what it is connected to
(60_exceptions.md R318; 70_reset_and_hazards.md R340), as plain data; the reset state (R40); the
reasons a step can stop, of which the spec has none. -/

namespace Sys2Proof.Machine

/-- The status codes, values of `ST` and of `ERR` (60_exceptions.md R300). Codes 0x08 to 0xFF are never
produced. -/
inductive Status where
  | ok
  | invalidKeyOrNonceLength
  | counterExhausted
  | illegalCommand
  | notInitialised
  | wrongMode
  | dataRange
  | faulted
  deriving DecidableEq, Repr

/-- The data space as a list of (address, byte) pairs (20_memory.md R60). An unlisted address reads as
`Config.unwrittenByte`. -/
abbrev Memory := List Host.Cell

/-- Addresses strictly rising, the next one above `lo` or, at the start, any. -/
def Memory.rising : Memory → Bool
  | [] => true
  | [_] => true
  | c :: d :: t => c.1 < d.1 && Memory.rising (d :: t)

/-- The canonical form: addresses strictly rising and inside the 64-bit space, no entry equal to what
an unlisted address reads as. -/
def Memory.wf (m : Memory) : Bool :=
  m.rising && m.all fun c => c.1 < 2 ^ 64 && c.2 != Config.unwrittenByte

/-- One engine instance with its ports and its data space. -/
structure State where
  /-- `S[0..15]`. -/
  words : Words
  /-- `BUF[0..63]`, the keystream buffer. -/
  buf : Block
  /-- `OFF`, how many leading bytes of `BUF` are consumed; 0 when `BUF` is stale (R28). -/
  off : BitVec 6
  /-- `FAM`. -/
  fam : Family
  /-- `POL`. -/
  pol : Policy
  /-- `RND`. -/
  rnd : Rounds
  /-- `BACKEND`, the tag of the bound backend. -/
  backend : Backend
  /-- `INITED`, an engine has been constructed and not destroyed. -/
  inited : Bool
  /-- `FAULT`, the sticky fault mark. -/
  fault : Bool
  /-- `ERR`, the status code of the last command that did not respond OK. -/
  err : Status
  /-- The data space. -/
  mem : Memory
  /-- The `CAPS` input (R37): bit 0 SSE2, 1 AVX2, 2 AVX512, 3 NEON. Log entry 5. -/
  caps : BitVec 4
  /-- The reset input (70 R340), asserted for the next step. Log entry 6. -/
  rst : Bool
  /-- The command port: words issued by the host and not yet consumed (30_encoding.md R90). Log entry 3. -/
  cmd : List Word
  /-- The response port: the words of the last response (30_encoding.md R105). Log entry 4. -/
  resp : List Word
  deriving DecidableEq, Repr

/-- A fault would stop the machine. The spec has no such event: every error is a status in a response
(60_exceptions.md R310, R311), so the type has no constructor and nothing raises one. -/
inductive Fault where
  deriving DecidableEq, Repr

/-- Why an instruction has no meaning in the model. -/
inductive Refusal where
  /-- Raised by an arm of `exec` for an instruction the model does not give a meaning; safe (the model
  stops where the hardware goes on). No arm raises it now. -/
  | notModelled (mnemonic : String)
  deriving DecidableEq, Repr

/-- The machine right after reset (10_state.md R40; 70 R340). `S`, `BUF` (log entry 2), the data space
(1), the ports (3, 4), `CAPS` (5) and the reset input (6) are the model's choices. -/
def State.reset : State where
  words := Vector.replicate 16 Config.resetWord
  buf := Vector.replicate 64 Config.resetByte
  off := 0
  fam := .chacha
  pol := .standard
  rnd := .r8
  backend := .soft
  inited := false
  fault := false
  err := .ok
  mem := []
  caps := Config.resetCaps
  rst := false
  cmd := []
  resp := []

end Sys2Proof.Machine
end

