-- ==== Sys2Proof/Machine/Ops.lean ====
section
/-! DEFINITION. The named operations: the data space, the block counter, the buffer, responses, the
one operation that takes an error (60_exceptions.md), the checks every command starts with, reset,
and the shared bodies of the keystream commands. Returning from an error is the host's next command
and nothing else (R311), so there is no operation for it. -/

namespace Sys2Proof.Machine

/-! ### The data space (20_memory.md) -/

/-- The byte at an address. -/
def Memory.read : Memory → Nat → Byte
  | [], _ => Config.unwrittenByte
  | (k, v) :: t, a => if k = a then v else Memory.read t a

/-- Forget what an address holds, so that it reads as unwritten. -/
def Memory.erase (m : Memory) (a : Nat) : Memory := m.filter fun c => c.1 ≠ a

/-- Put a byte at an address, in address order. -/
def Memory.insert : Memory → Nat → Byte → Memory
  | [], a, b => [(a, b)]
  | (k, v) :: t, a, b =>
    if a < k then (a, b) :: (k, v) :: t
    else if a = k then (a, b) :: t
    else (k, v) :: Memory.insert t a b

/-- Store a byte, keeping the canonical form. -/
def Memory.write (m : Memory) (a : Nat) (b : Byte) : Memory :=
  if b = Config.unwrittenByte then m.erase a else m.insert a b

/-- What a command does to each data byte of its region. -/
inductive DataOp where
  /-- APPLY, TRYAPPLY, GENX: read the byte, XOR, write (20_memory.md R66). -/
  | xor
  /-- RNGFILL: write without reading (45_rng_adapter.md R272). -/
  | store
  deriving DecidableEq, Repr

/-- The byte a region command writes, from the old byte and the keystream byte. -/
def combine (op : DataOp) (old ks : Byte) : Byte :=
  match op with
  | .xor => old ^^^ ks
  | .store => ks

/-- Combine a string of keystream bytes into the data from an address upwards, byte by byte in address
order (93 U3). -/
def streamBytes (op : DataOp) (m : Memory) (a : Nat) : List Byte → Memory
  | [] => m
  | k :: ks => streamBytes op (m.write a (combine op (m.read a) k)) (a + 1) ks

/-- `ADDR + LEN > 2^64` (20_memory.md R67). -/
def outOfRange (addr : DWord) (len : Nat) : Bool := 2 ^ 64 < addr.toNat + len

/-! ### The block counter, the buffer (10_state.md R25 to R28) -/

/-- `W`. -/
def State.width (s : State) : CtrWidth := ctrWidth s.fam s.pol

/-- `CTR`. -/
def State.ctr (s : State) : Nat := counterOf s.fam s.width s.words

/-- `CTR <- v mod 2^W`. -/
def State.setCtr (s : State) (v : Nat) : State :=
  { s with words := withCounter s.fam s.width v s.words }

/-- `Block(S)`: the block of index `CTR` (41_state_builder.md R166). -/
def State.block (s : State) : Block := blockOf s.fam (roundCount s.rnd) s.words

/-- `CTR <- (CTR + 1) mod 2^W`. The cipher policies never get to the wrap (10_state.md R26). -/
def State.advance (s : State) : State := s.setCtr (s.ctr + 1)

/-- `BUF <- Block(S); CTR <- CTR + 1`. -/
def State.fillBuf (s : State) : State := { s.advance with buf := s.block }

/-- The unconsumed bytes of `BUF`: none when `OFF = 0` (43_stream_engine.md R213). -/
def State.avail (s : State) : Nat := if s.off = 0 then 0 else 64 - s.off.toNat

/-! ### Responses and errors (30_encoding.md R105; 60_exceptions.md) -/

/-- The code of a status (60_exceptions.md R300). -/
def statusCode : Status → BitVec 8
  | .ok => 0x00
  | .invalidKeyOrNonceLength => 0x01
  | .counterExhausted => 0x02
  | .illegalCommand => 0x03
  | .notInitialised => 0x04
  | .wrongMode => 0x05
  | .dataRange => 0x06
  | .faulted => 0x07

/-- The response word `R0`: `ST` in bits 7:0, `RLEN` in bits 31:8. -/
def responseHeader (st : Status) (rlen : Nat) : Word := BitVec.ofNat 24 rlen ++ statusCode st

/-- `respond(OK, payload)`: the command ends with the result bytes packed as R91. -/
def State.respond (s : State) (payload : List Byte) : State :=
  { s with resp := responseHeader .ok payload.length :: packBytes payload }

/-- Taking an error. An ordinary one writes `ERR` while `FAULT = 0` and nothing else; a sticky one
(`raise Fault(e)`, R306) also sets `FAULT`. The response carries the code and no payload. -/
def State.takeError (s : State) (sticky : Bool) (e : Status) : State :=
  { s with
    fault := s.fault || sticky
    err := if s.fault then s.err else e
    resp := [responseHeader e 0] }

/-- `raise e` (00_scope.md R13; 10_state.md R34). -/
def State.raise (s : State) (e : Status) : State := s.takeError false e

/-- `raise Fault(e)` (60_exceptions.md R306). -/
def State.raiseFault (s : State) (e : Status) : State := s.takeError true e

/-! ### The checks a command starts with (60_exceptions.md R309) -/

/-- The error of a command that needs no engine: IllegalCommand, then Faulted. -/
def pureCheck (legal : Bool) (s : State) : Option Status :=
  if !legal then some .illegalCommand else if s.fault then some .faulted else none

/-- The preamble of the engine commands (43_stream_engine.md R212, `rng` false) and of the RNG commands
(45_rng_adapter.md R279, `rng` true): IllegalCommand, Faulted, NotInitialised, WrongMode. -/
def engineCheck (legal rng : Bool) (s : State) : Option Status :=
  if !legal then some .illegalCommand
  else if s.fault then some .faulted
  else if !s.inited then some .notInitialised
  else if decide (s.pol = .rng) != rng then some .wrongMode
  else none

/-- Raise the error a check found, or run the command's body. -/
def checked (check : Option Status) (s : State) (body : State → State) :
    Host.Outcome State Fault Refusal :=
  match check with
  | some e => .next (s.raise e)
  | none => .next (body s)

/-! ### Reset (70_reset_and_hazards.md R340) -/

/-- Asserting the reset input puts the instance in the state of 10_state.md R40. The data space and the
`CAPS` input are not the instance's; the host's unread words stay on the command port (log entry 6). -/
def State.resetEngine (s : State) : State :=
  { State.reset with mem := s.mem, caps := s.caps, cmd := s.cmd }

/-! ### Keystream into a region (43_stream_engine.md R213, R215; 45_rng_adapter.md R272) -/

/-- `Need(OFF, LEN)`, the new blocks a request generates (R213). -/
def need (avail len : Nat) : Nat := if len ≤ avail then 0 else (len - avail + 63) / 64

/-- A command that must generate `Need` blocks would take `CTR` past `CTRMAX` (R214). -/
def State.exhaustedBy (s : State) (len : Nat) : Bool :=
  ctrMax s.width < s.ctr + need s.avail len

/-- Phase 1 of R215: `t` bytes of the buffered tail, `t <= 64 - OFF`. -/
def State.drain (s : State) (op : DataOp) (addr t : Nat) : State :=
  { s with
    mem := streamBytes op s.mem addr ((s.buf.toList.drop s.off.toNat).take t)
    off := BitVec.ofNat 6 (s.off.toNat + t) }

/-- Phase 2: whole blocks, straight into the data; `BUF` is not written. -/
def State.wholeBlocks (op : DataOp) : Nat → Nat → State → State
  | 0, _, s => s
  | n + 1, a, s =>
    State.wholeBlocks op n (a + 64)
      { s.advance with mem := streamBytes op s.mem a s.block.toList }

/-- Phase 3: the last `r < 64` bytes, through `BUF`. -/
def State.lastPart (s : State) (op : DataOp) (a r : Nat) : State :=
  if r = 0 then s
  else
    { s.fillBuf with
      mem := streamBytes op s.mem a (s.block.toList.take r)
      off := BitVec.ofNat 6 r }

/-- `ApplyCore(ADDR, LEN)` (R215), and with `DataOp.store` the body of RNGFILL. -/
def State.applyCore (s : State) (op : DataOp) (addr len : Nat) : State :=
  let t := min len s.avail
  let n := (len - t) / 64
  State.lastPart (State.wholeBlocks op n (addr + t) (s.drain op addr t)) op (addr + t + 64 * n)
    ((len - t) % 64)

/-- Go to byte `r` of block `b` (43_stream_engine.md R220; 45_rng_adapter.md R275): regenerate the
block into the buffer if `r` is not 0. -/
def State.moveTo (s : State) (b r : Nat) : State :=
  if r = 0 then { s.setCtr b with off := 0 }
  else { (s.setCtr b).fillBuf with off := BitVec.ofNat 6 r }

/-! ### The command port (30_encoding.md R90, R111) -/

/-- What stands at the head of the command port. -/
def State.fetch (s : State) : Decoded := decode s.cmd

/-- Take a packet from the port: the words after it remain. -/
def State.consume (s : State) (rest : List Word) : State := { s with cmd := rest }

end Sys2Proof.Machine
end

