-- ==== Sys2Proof/Machine/Subkey.lean ====
section
/-! DEFINITION. HDERIVE, the subkey derivation as a command (44_variant_subkey.md R254). -/

namespace Sys2Proof.Machine

/-- The round count of a legal `RND` field. A reserved one is refused before this is used. -/
def fieldRounds (rnd : BitVec 2) : Rounds := (roundsOf rnd).getD .r8

/-- HDERIVE (R254): pure, as the Permutation Core commands. -/
def execHderive (fam : Family) (rnd : BitVec 2) (key : Vector Byte 32) (inp : Vector Byte 16)
    (s : State) : Host.Outcome State Fault Refusal :=
  checked (pureCheck (roundsOf rnd).isSome s) s fun s =>
    s.respond (hDerive fam (roundCount (fieldRounds rnd)) key.toList inp.toList)

end Sys2Proof.Machine
end

