-- ==== Sys2Proof/Machine/Backends.lean ====
section
/-! DEFINITION. The backend contract BSIZE, MAXPAR, GEN, GENX (42_backends.md). The five backends are
one function (R181): only the number of blocks GEN and GENX accept and MAXPAR's answer depend on
which one is selected. MAXPAR, GEN and GENX sample the `CAPS` input (R186). -/

namespace Sys2Proof.Machine

/-- `GenBlocks(X, FAM, W, rc, cb, n)` (R182): block `j` uses counter `(cb + j) mod 2^W`. -/
def genBlocks (fam : Family) (w : CtrWidth) (rc : Nat) (x : Words) (cb n : Nat) : List Byte :=
  (List.range n).flatMap fun j => (blockAt fam w rc x ((cb + j) % 2 ^ widthBits w)).toList

/-- What R109 and R192 ask of the operands of GEN and GENX: a base layout, legal `RND` and `BSEL`,
`NBLK` 1 or `PAR` of the selected backend, `CB` a `W`-bit number. -/
def legalGen (fam : Family) (pol : Policy) (rnd : BitVec 2) (bsel : BitVec 3) (nblk : BitVec 8)
    (cb : DWord) (caps : BitVec 4) : Bool :=
  legalLayout fam pol && (roundsOf rnd).isSome && legalBsel bsel
    && (nblk.toNat == 1 || nblk.toNat == parOf (select bsel caps))
    && cb.toNat < 2 ^ widthBits (ctrWidth fam pol)

/-- BSIZE (R189). -/
def execBsize (s : State) : Host.Outcome State Fault Refusal :=
  checked (pureCheck true s) s fun s => s.respond (natBytes 4 64)

/-- MAXPAR (R190). -/
def execMaxpar (bsel : BitVec 3) (s : State) : Host.Outcome State Fault Refusal :=
  checked (pureCheck (legalBsel bsel) s) s fun s => s.respond (natBytes 4 (parOf (select bsel s.caps)))

/-- GEN (R192). -/
def execGen (fam : Family) (pol : Policy) (rnd : BitVec 2) (bsel : BitVec 3) (nblk : BitVec 8)
    (x : Words) (cb : DWord) (s : State) : Host.Outcome State Fault Refusal :=
  checked (pureCheck (legalGen fam pol rnd bsel nblk cb s.caps) s) s fun s =>
    s.respond (genBlocks fam (ctrWidth fam pol) (roundCount (fieldRounds rnd)) x cb.toNat nblk.toNat)

/-- GENX (R193): the checks of GEN, then the range, then XOR into the data. -/
def execGenx (fam : Family) (pol : Policy) (rnd : BitVec 2) (bsel : BitVec 3) (nblk : BitVec 8)
    (x : Words) (cb : DWord) (addr : DWord) (s : State) : Host.Outcome State Fault Refusal :=
  checked
    ((pureCheck (legalGen fam pol rnd bsel nblk cb s.caps) s).or
      (if outOfRange addr (64 * nblk.toNat) then some .dataRange else none))
    s fun s =>
    State.respond
      { s with
        mem := streamBytes .xor s.mem addr.toNat
          (genBlocks fam (ctrWidth fam pol) (roundCount (fieldRounds rnd)) x cb.toNat nblk.toNat) }
      []

end Sys2Proof.Machine
end

