-- ==== Sys2Proof/Machine/Permutation.lean ====
section
/-! DEFINITION. The Permutation Core commands QR, DROUND, ROUNDS, PERMNF (40_permutation.md). They are
pure: they read and write no engine state but the response, `ERR` on a refusal, and need no engine. -/

namespace Sys2Proof.Machine

/-- QR (R133). -/
def execQr (fam : Family) (a b c d : Fin 16) (x : Words) (s : State) :
    Host.Outcome State Fault Refusal :=
  checked (pureCheck (distinct4 a b c d) s) s fun s => s.respond (ser (quarter fam x a b c d)).toList

/-- DROUND (R137). A non-zero `RC` is a must-be-zero bit and never decodes. -/
def execDround (fam : Family) (x : Words) (s : State) : Host.Outcome State Fault Refusal :=
  checked (pureCheck true s) s fun s => s.respond (ser (doubleRound fam x)).toList

/-- ROUNDS (R139), with the feed-forward. -/
def execRounds (fam : Family) (rc : BitVec 8) (x : Words) (s : State) :
    Host.Outcome State Fault Refusal :=
  checked (pureCheck true s) s fun s => s.respond (ser (perm fam rc.toNat x)).toList

/-- PERMNF (R141), without it. -/
def execPermnf (fam : Family) (rc : BitVec 8) (x : Words) (s : State) :
    Host.Outcome State Fault Refusal :=
  checked (pureCheck true s) s fun s => s.respond (ser (permNF fam rc.toNat x)).toList

end Sys2Proof.Machine
end

