-- ==== Sys2Proof/Machine/Flags.lean ====
section
/-! DEFINITION. What is derived from the state: the logical states (10_state.md R30), the two flags and
the STATUS word (R35), the stream position (R31), the word position and the stream identifier
(45_rng_adapter.md R271, R276). No flag is stored. -/

namespace Sys2Proof.Machine

/-- Empty: `OFF = 0` (R30). -/
def State.isEmpty (s : State) : Bool := s.off == 0

/-- Partial: `0 < OFF < 64` (R30). -/
def State.isPartial (s : State) : Bool := s.off != 0

/-- Exhausted: `POL != 3` and `CTR = CTRMAX` (R30). -/
def State.isExhausted (s : State) : Bool := s.pol != .rng && s.ctr == ctrMax s.width

/-- The PARTIAL bit (R35). -/
def State.partialFlag (s : State) : Bool := s.inited && s.isPartial

/-- The EXH bit (R35). -/
def State.exhFlag (s : State) : Bool := s.inited && s.isExhausted

/-- The STATUS word (R35), bit 31 first. -/
def State.statusWord (s : State) : Word :=
  0#4 ++ statusCode s.err ++ 0#2 ++ s.off ++ rndCode s.rnd ++ polCode s.pol ++ famCode s.fam
    ++ backendCode s.backend ++ BitVec.ofBool s.exhFlag ++ BitVec.ofBool s.partialFlag
    ++ BitVec.ofBool s.fault ++ BitVec.ofBool s.inited

/-- `CFG = RND ‖ POL ‖ FAM` (R36). -/
def State.cfgWord (s : State) : BitVec 5 := rndCode s.rnd ++ polCode s.pol ++ famCode s.fam

/-- The index of the block the next keystream byte is in: `CTR` when `OFF = 0`, else the block in the
buffer, `(CTR - 1) mod 2^W` (R29, R31). -/
def State.blockIndex (s : State) : Nat :=
  if s.off = 0 then s.ctr
  else (s.ctr + 2 ^ widthBits s.width - 1) % 2 ^ widthBits s.width

/-- `POS` (R31). -/
def State.pos (s : State) : Nat := 64 * s.blockIndex + s.off.toNat

/-- `WP = (16 * BI + OFF div 4) mod 2^36` (45_rng_adapter.md R276). -/
def State.wordPos (s : State) : Nat := (16 * s.blockIndex + s.off.toNat / 4) % 2 ^ 36

/-- `STREAM` as bytes: `S[13]`, `S[14]`, `S[15]` (45_rng_adapter.md R271). -/
def State.streamId (s : State) : List Byte :=
  bytesLE s.words[13] ++ bytesLE s.words[14] ++ bytesLE s.words[15]

/-- The control and status state by the numbers of R36, which "have no meaning on any bus"; no command
takes such a number. -/
def State.controlRegister (s : State) (n : Fin 8) : Nat :=
  match n with
  | 0 => s.statusWord.toNat
  | 1 => s.cfgWord.toNat
  | 2 => (backendCode s.backend).toNat
  | 3 => s.off.toNat
  | 4 => s.ctr
  | 5 => s.pos
  | 6 => (statusCode s.err).toNat
  | 7 => s.caps.toNat

/-- `S[13..15] <- I0, I1, I2`. -/
def State.setStream (s : State) (i0 i1 i2 : Word) : State :=
  { s with words := ((s.words.set 13 i0).set 14 i1).set 15 i2 }

end Sys2Proof.Machine
end

