-- ==== Sys2Proof/Machine/Engine.lean ====
section
/-! DEFINITION. The Counter-Mode Stream Engine commands INIT, APPLY, TRYAPPLY, SEEK, GETPOS, RDSTAT,
ZEROIZE (43_stream_engine.md). -/

namespace Sys2Proof.Machine

/-! ### Construction (R211) -/

/-- What INIT writes once every check has passed. -/
def State.construct (s : State) (fam : Family) (pol : Policy) (rnd : Rounds) (b : Backend)
    (key nonce : List Byte) : State :=
  { s with
    words := initialWords fam pol (roundCount rnd) key nonce
    off := 0
    fam := fam
    pol := pol
    rnd := rnd
    backend := b
    inited := true
    err := .ok }

/-- INIT (R211). -/
def execInit (fam : Family) (pol : Policy) (rnd : BitVec 2) (bsel : BitVec 3)
    (key nonce : List Byte) (s : State) : Host.Outcome State Fault Refusal :=
  checked
    ((pureCheck (legalVariant fam pol && (roundsOf rnd).isSome && legalBsel bsel) s).or
      (if key.length ≠ 32 ∨ nonce.length ≠ nonceBytes pol then some .invalidKeyOrNonceLength
        else none))
    s fun s => (s.construct fam pol (fieldRounds rnd) (select bsel s.caps) key nonce).respond []

/-! ### Applying keystream (R212 to R217) -/

/-- The checks before exhaustion: the preamble, then the range. -/
def regionCheck (rng : Bool) (addr len : DWord) (s : State) : Option Status :=
  (engineCheck true rng s).or (if outOfRange addr len.toNat then some .dataRange else none)

/-- APPLY (R216): exhaustion is the sticky fault. -/
def execApply (addr len : DWord) (s : State) : Host.Outcome State Fault Refusal :=
  match regionCheck false addr len s with
  | some e => .next (s.raise e)
  | none =>
    if s.exhaustedBy len.toNat then .next (s.raiseFault .counterExhausted)
    else .next ((s.applyCore .xor addr.toNat len.toNat).respond [])

/-- TRYAPPLY (R217): exhaustion is an ordinary status. -/
def execTryApply (addr len : DWord) (s : State) : Host.Outcome State Fault Refusal :=
  checked
    ((regionCheck false addr len s).or
      (if s.exhaustedBy len.toNat then some .counterExhausted else none))
    s fun s => (s.applyCore .xor addr.toNat len.toNat).respond []

/-! ### Position, status, destruction (R220 to R225) -/

/-- SEEK's capacity check: the block index, or the counter after the eager regeneration, is past
`CTRMAX` (R220). -/
def seekExhausted (pos : Nat) (s : State) : Bool :=
  ctrMax s.width < pos / 64 || (pos % 64 != 0 && ctrMax s.width < pos / 64 + 1)

/-- SEEK (R220). -/
def execSeek (v : QWord) (s : State) : Host.Outcome State Fault Refusal :=
  checked
    ((engineCheck (v.toNat < 2 ^ 64) false s).or
      (if seekExhausted v.toNat s then some .counterExhausted else none))
    s fun s => (s.moveTo (v.toNat / 64) (v.toNat % 64)).respond []

/-- GETPOS (R222). -/
def execGetPos (s : State) : Host.Outcome State Fault Refusal :=
  checked (engineCheck true false s) s fun s => s.respond (natBytes 16 s.pos)

/-- RDSTAT (R224): accepted in every state, it writes nothing but the response. -/
def execRdStat (s : State) : Host.Outcome State Fault Refusal :=
  .next (s.respond (bytesLE s.statusWord))

/-- What ZEROIZE clears; `FAULT` and `ERR` stay (R225). -/
def State.zeroized (s : State) : State :=
  { s with
    words := Vector.replicate 16 0
    buf := Vector.replicate 64 0
    off := 0
    fam := .chacha
    pol := .standard
    rnd := .r8
    backend := .soft
    inited := false }

/-- ZEROIZE (R225): accepted in every state. -/
def execZeroize (s : State) : Host.Outcome State Fault Refusal :=
  .next (s.zeroized.respond [])

end Sys2Proof.Machine
end

