-- ==== Sys2Proof/Machine/Rng.lean ====
section
/-! DEFINITION. The RNG Adapter commands RNGFILL, RNGGETWP, RNGSETWP, RNGGETSTR, RNGSETSTR, RNGSAVE,
RNGLOAD (45_rng_adapter.md). The adapter is the engine in RNG mode, with a counter that wraps
(R273); none of its commands can exhaust. -/

namespace Sys2Proof.Machine

/-- RNGFILL (R272): the body of APPLY with the bytes written, not XORed. -/
def execRngFill (addr len : DWord) (s : State) : Host.Outcome State Fault Refusal :=
  checked (regionCheck true addr len s) s fun s => (s.applyCore .store addr.toNat len.toNat).respond []

/-- RNGGETWP (R274). -/
def execRngGetWp (s : State) : Host.Outcome State Fault Refusal :=
  checked (engineCheck true true s) s fun s => s.respond (natBytes 16 s.wordPos)

/-- The body of RNGSETWP (R275): `v mod 2^36`, its block and its word. -/
def State.setWordPos (s : State) (v : QWord) : State :=
  let p := v.toNat % 2 ^ 36
  s.moveTo (p / 16) (4 * (p % 16))

/-- RNGSETWP (R275). -/
def execRngSetWp (v : QWord) (s : State) : Host.Outcome State Fault Refusal :=
  checked (engineCheck true true s) s fun s => (s.setWordPos v).respond []

/-- RNGGETSTR (R277): the 96 bits as a 128-bit number. -/
def execRngGetStr (s : State) : Host.Outcome State Fault Refusal :=
  checked (engineCheck true true s) s fun s => s.respond (s.streamId ++ [0, 0, 0, 0])

/-- The body of RNGSETSTR (R278): the position is kept, the buffered block is regenerated under the new
identifier. -/
def State.switchStream (s : State) (v : QWord) : State :=
  let t := s.setStream (v.extractLsb' 0 32) (v.extractLsb' 32 32) (v.extractLsb' 64 32)
  if t.off = 0 then t else (t.setCtr (t.ctr + 2 ^ widthBits t.width - 1)).fillBuf

/-- RNGSETSTR (R278). -/
def execRngSetStr (v : QWord) (s : State) : Host.Outcome State Fault Refusal :=
  checked (engineCheck (v.toNat < 2 ^ 96) true s) s fun s => (s.switchStream v).respond []

/-- RNGSAVE (R280): 28 bytes, the stream identifier and `WP`. -/
def execRngSave (s : State) : Host.Outcome State Fault Refusal :=
  checked (engineCheck true true s) s fun s => s.respond (s.streamId ++ natBytes 16 s.wordPos)

/-- RNGLOAD (R281): the stream words, then the body of RNGSETWP. -/
def execRngLoad (id0 id1 id2 : Word) (wp : QWord) (s : State) : Host.Outcome State Fault Refusal :=
  checked (engineCheck true true s) s fun s => ((s.setStream id0 id1 id2).setWordPos wp).respond []

end Sys2Proof.Machine
end

