-- ==== Sys2Proof/Machine/Dispatch.lean ====
section
/-! DEFINITION. `exec`: one arm per command, each one call of its meaning. -/

namespace Sys2Proof.Machine

def exec (i : Instr) (s : State) : Host.Outcome State Fault Refusal :=
  match i with
  | .qr fam a b c d x => Sys2Proof.Machine.execQr fam a b c d x s
  | .dround fam x => Sys2Proof.Machine.execDround fam x s
  | .rounds fam rc x => Sys2Proof.Machine.execRounds fam rc x s
  | .permnf fam rc x => Sys2Proof.Machine.execPermnf fam rc x s
  | .hderive fam rnd key inp => Sys2Proof.Machine.execHderive fam rnd key inp s
  | .bsize => Sys2Proof.Machine.execBsize s
  | .maxpar bsel => Sys2Proof.Machine.execMaxpar bsel s
  | .gen fam pol rnd bsel nblk x cb => Sys2Proof.Machine.execGen fam pol rnd bsel nblk x cb s
  | .genx fam pol rnd bsel nblk x cb addr => Sys2Proof.Machine.execGenx fam pol rnd bsel nblk x cb addr s
  | .init fam pol rnd bsel key nonce => Sys2Proof.Machine.execInit fam pol rnd bsel key nonce s
  | .apply addr len => Sys2Proof.Machine.execApply addr len s
  | .tryApply addr len => Sys2Proof.Machine.execTryApply addr len s
  | .seek v => Sys2Proof.Machine.execSeek v s
  | .getPos => Sys2Proof.Machine.execGetPos s
  | .rdStat => Sys2Proof.Machine.execRdStat s
  | .zeroize => Sys2Proof.Machine.execZeroize s
  | .rngFill addr len => Sys2Proof.Machine.execRngFill addr len s
  | .rngGetWp => Sys2Proof.Machine.execRngGetWp s
  | .rngSetWp v => Sys2Proof.Machine.execRngSetWp v s
  | .rngGetStr => Sys2Proof.Machine.execRngGetStr s
  | .rngSetStr v => Sys2Proof.Machine.execRngSetStr v s
  | .rngSave => Sys2Proof.Machine.execRngSave s
  | .rngLoad id0 id1 id2 wp => Sys2Proof.Machine.execRngLoad id0 id1 id2 wp s

end Sys2Proof.Machine
end

