-- ==== Sys2Proof/Machine/Step.lean ====
section
/-! DEFINITION. One step: a reset if the reset input is asserted, else the command at the head of the
command port, taken off the port and run to completion (00_scope.md R14). A packet that names no
command is taken off and raises IllegalCommand (60_exceptions.md R302). Less than a packet is no
packet yet, and the core waits (30_encoding.md R111; log entry 3). -/

namespace Sys2Proof.Machine

def step (s : State) : Host.Outcome State Fault Refusal :=
  if s.rst then .next s.resetEngine
  else
    match s.fetch with
    | .instr i rest => exec i (s.consume rest)
    | .illegal _ rest => .next ((s.consume rest).raise .illegalCommand)
    | .incomplete => .next s

/-- The packet of a table word in front of what the host has issued, and no reset asserted, so that the
next step runs it (log entry 14). -/
def State.withFetchWord (s : State) (nbits w : Nat) : State :=
  { s with cmd := tablePacket nbits w ++ s.cmd, rst := false }

end Sys2Proof.Machine
end

