-- ==== Sys2Proof/Safety.lean ====
section
/-! DEFINITION. The terms claims use: when a command may run, what a refusal leaves, which operands are
legal on a platform, which data a command may touch, and the invariants of an instance
(10_state.md R29, R34; 43_stream_engine.md R228). -/

namespace Sys2Proof.Safety

open Machine

/-- The groups of commands the checks tell apart. -/
inductive Kind where
  /-- The pure commands (00_scope.md R16; 60_exceptions.md R303): QR, DROUND, ROUNDS, PERMNF, HDERIVE, BSIZE,
  MAXPAR, GEN, GENX. -/
  | pure
  /-- INIT. -/
  | construct
  /-- The commands 43_stream_engine.md R212 lists: APPLY, TRYAPPLY, SEEK, GETPOS. -/
  | cipher
  /-- RDSTAT and ZEROIZE, accepted while `FAULT = 1` (60_exceptions.md R307). -/
  | always
  /-- The seven RNG commands (45_rng_adapter.md R279). -/
  | rng
  deriving DecidableEq, Repr

/-- The group of a command. -/
def kind : Instr → Kind
  | .qr _ _ _ _ _ _ => .pure
  | .dround _ _ => .pure
  | .rounds _ _ _ => .pure
  | .permnf _ _ _ => .pure
  | .hderive _ _ _ _ => .pure
  | .bsize => .pure
  | .maxpar _ => .pure
  | .gen _ _ _ _ _ _ _ => .pure
  | .genx _ _ _ _ _ _ _ _ => .pure
  | .init _ _ _ _ _ _ => .construct
  | .apply _ _ => .cipher
  | .tryApply _ _ => .cipher
  | .seek _ => .cipher
  | .getPos => .cipher
  | .rdStat => .always
  | .zeroize => .always
  | .rngFill _ _ => .rng
  | .rngGetWp => .rng
  | .rngSetWp _ => .rng
  | .rngGetStr => .rng
  | .rngSetStr _ => .rng
  | .rngSave => .rng
  | .rngLoad _ _ _ _ => .rng

/-- The engine runs cipher commands: constructed, not faulted, not in RNG mode (R212). -/
def CipherReady (s : State) : Prop := s.fault = false ∧ s.inited = true ∧ s.pol ≠ .rng

/-- The engine runs RNG commands (45_rng_adapter.md R279). -/
def RngReady (s : State) : Prop := s.fault = false ∧ s.inited = true ∧ s.pol = .rng

/-- What a refused command leaves: `ERR` unless the instance is faulted, and the bare status code in
the response (10_state.md R34; 30_encoding.md R105). -/
def refused (s : State) (e : Status) : State :=
  { s with err := if s.fault = true then s.err else e, resp := [(statusCode e).setWidth 32] }

/-- The status byte of a response (30_encoding.md R105). -/
def responseStatus (s : State) : BitVec 8 := (s.resp.getD 0 0).setWidth 8

/-- The operands R109 allows, with the checks of GEN and GENX that depend on `CAPS`. -/
def operandsLegal (i : Instr) (caps : BitVec 4) : Bool :=
  match i with
  | .gen _ _ _ bsel nblk _ _ =>
    i.legal && (nblk.toNat == 1 || nblk.toNat == parOf (select bsel caps))
  | .genx _ _ _ bsel nblk _ _ _ =>
    i.legal && (nblk.toNat == 1 || nblk.toNat == parOf (select bsel caps))
  | _ => i.legal

/-- The region a command names: first byte and length (20_memory.md R60, R66; 30_encoding.md R104). -/
def region : Instr → Nat × Nat
  | .genx _ _ _ _ nblk _ _ addr => (addr.toNat, 64 * nblk.toNat)
  | .apply addr len => (addr.toNat, len.toNat)
  | .tryApply addr len => (addr.toNat, len.toNat)
  | .rngFill addr len => (addr.toNat, len.toNat)
  | _ => (0, 0)

/-- `a` is one of the `n` addresses from `lo` upwards. -/
def InRegion (lo n a : Nat) : Prop := lo ≤ a ∧ a < lo + n

/-- `KS[p]` of the engine (41_state_builder.md R167). -/
def keystream (s : State) (p : Nat) : Byte :=
  keystreamByte s.fam s.width (roundCount s.rnd) s.words p

/-- A word of `S` that counter arithmetic may change (10_state.md R22, R23, R25). -/
def isCounterWord (fam : Family) (pol : Policy) (i : Fin 16) : Bool :=
  match ctrWidth fam pol, fam with
  | .w32, _ => i == 12
  | .w64, .chacha => i == 12 || i == 13
  | .w64, .salsa => i == 8 || i == 9

/-- A word of `S` that holds the key (10_state.md R22, R23). -/
def isKeyWord (fam : Family) (i : Fin 16) : Bool :=
  match fam with
  | .chacha => 4 ≤ i.val && i.val ≤ 11
  | .salsa => (1 ≤ i.val && i.val ≤ 4) || (11 ≤ i.val && i.val ≤ 14)

/-! ### Packets, read from their bits (30_encoding.md)

These do not go through the decoder: they say of the words of a packet what 30_encoding.md says. -/

/-- `w[lo+n-1 : lo]` as a number (00_scope.md R10). -/
def field (w : Word) (lo n : Nat) : Nat := w.toNat / 2 ^ lo % 2 ^ n

/-- The opcodes R108 reserves. -/
def reservedOpcode (w0 : Word) : Bool :=
  let o := field w0 0 8
  o == 0 || (0x06 ≤ o && o ≤ 0x0F) || (0x14 ≤ o && o ≤ 0x1F) || (0x27 ≤ o && o ≤ 0x2F)
    || (0x37 ≤ o && o ≤ 0xFF)

/-- The packet length of R111; one word for a reserved opcode (R108). -/
def packetLength (w0 : Word) : Nat :=
  match field w0 0 8 with
  | 0x01 | 0x02 | 0x03 | 0x04 => 17
  | 0x05 => 13
  | 0x12 => 19
  | 0x13 => 21
  | 0x20 => 1 + (field w0 16 8 + 3) / 4 + (field w0 24 8 + 3) / 4
  | 0x21 | 0x22 | 0x23 | 0x30 | 0x32 | 0x34 => 5
  | 0x36 => 8
  | _ => 1

/-- The bytes of a string of `len` bytes from word `k` on leave a non-zero rest in its last word (R91). -/
def paddingSet (ws : List Word) (k len : Nat) : Bool :=
  len % 4 != 0 && (ws.getD (k + len / 4) 0).toNat / 2 ^ (8 * (len % 4)) != 0

/-- What R109 makes of GEN's and GENX's operands. -/
def illegalGenerate (w0 : Word) (ws : List Word) (caps : BitVec 4) : Bool :=
  let pair := (field w0 8 1, field w0 9 2)
  let nblk := field w0 16 8
  field w0 24 8 != 0 || field w0 11 2 == 3 || 6 ≤ field w0 13 3
    || !(pair == (0, 0) || pair == (0, 1) || pair == (1, 1))
    || !(nblk == 1 || nblk == parOf (select (bits w0 13 3) caps))
    || (pair == (0, 0) && ws.getD 17 0 != 0)

/-- The conditions of R109 on a packet with a defined opcode: `ws` are the words after `w0`. -/
def illegalFields (w0 : Word) (ws : List Word) (caps : BitVec 4) : Bool :=
  match field w0 0 8 with
  | 0x01 =>
    let a := field w0 16 4
    let b := field w0 20 4
    let c := field w0 24 4
    let d := field w0 28 4
    field w0 9 7 != 0 || a == b || a == c || a == d || b == c || b == d || c == d
  | 0x02 => field w0 9 7 != 0 || field w0 16 8 != 0 || field w0 24 8 != 0
  | 0x03 | 0x04 => field w0 9 7 != 0 || field w0 24 8 != 0
  | 0x05 => field w0 9 2 != 0 || field w0 13 19 != 0 || field w0 11 2 == 3
  | 0x11 => field w0 8 5 != 0 || field w0 16 16 != 0 || 6 ≤ field w0 13 3
  | 0x12 | 0x13 => illegalGenerate w0 ws caps
  | 0x20 =>
    field w0 11 2 == 3 || 6 ≤ field w0 13 3
      || (field w0 8 1 == 1 && (field w0 9 2 == 0 || field w0 9 2 == 3))
      || paddingSet ws 0 (field w0 16 8) || paddingSet ws ((field w0 16 8 + 3) / 4) (field w0 24 8)
  | 0x23 => field w0 8 24 != 0 || ws.getD 2 0 != 0 || ws.getD 3 0 != 0
  | 0x34 => field w0 8 24 != 0 || ws.getD 3 0 != 0
  | _ => field w0 8 24 != 0

/-! ### Errors in the order of 60_exceptions.md R309 -/

/-- `Need(OFF, LEN)` (43_stream_engine.md R213). -/
def blocksNeeded (s : State) (len : Nat) : Nat :=
  let tail := if s.off = 0 then 0 else 64 - s.off.toNat
  if len ≤ tail then 0 else (len - tail + 63) / 64

/-- `CTR + Need(OFF, LEN) > CTRMAX` (43_stream_engine.md R214). -/
def wouldExhaust (s : State) (len : Nat) : Bool :=
  2 ^ widthBits s.width - 1 < s.ctr + blocksNeeded s len

/-- SEEK's two refusals (43_stream_engine.md R220). -/
def seekPast (s : State) (pos : Nat) : Bool :=
  2 ^ widthBits s.width - 1 < pos / 64
    || (pos % 64 != 0 && 2 ^ widthBits s.width - 1 < pos / 64 + 1)

/-- INIT with a wrong length (60_exceptions.md R301). -/
def badLength : Instr → Bool
  | .init _ pol _ _ key nonce => key.length != 32 || nonce.length != nonceBytes pol
  | _ => false

/-- `ADDR + LEN > 2^64` (20_memory.md R67). -/
def pastTheTop (i : Instr) : Bool := 2 ^ 64 < (region i).1 + (region i).2

/-- A command that would take the counter past `CTRMAX` (43_stream_engine.md R214, R220). -/
def exhausts (i : Instr) (s : State) : Bool :=
  match i with
  | .apply _ len => wouldExhaust s len.toNat
  | .tryApply _ len => wouldExhaust s len.toNat
  | .seek v => seekPast s v.toNat
  | _ => false

/-- A cipher command in RNG mode or an RNG command in a cipher policy (60_exceptions.md R304). -/
def wrongMode (i : Instr) (s : State) : Bool :=
  (kind i == .cipher && s.pol == .rng) || (kind i == .rng && s.pol != .rng)

/-- The first error condition a command meets, in the order of R309; none if it responds OK. -/
def errorOf (i : Instr) (s : State) : Option Status :=
  if !operandsLegal i s.caps then some .illegalCommand
  else if s.fault && kind i != .always then some .faulted
  else if (kind i == .cipher || kind i == .rng) && !s.inited then some .notInitialised
  else if wrongMode i s then some .wrongMode
  else if badLength i then some .invalidKeyOrNonceLength
  else if pastTheTop i then some .dataRange
  else if exhausts i s then some .counterExhausted
  else none

/-! ### Invariants -/

/-- Buffer validity (10_state.md R29): whenever an engine is constructed and `OFF != 0`, `BUF` is the block
of index `(CTR - 1) mod 2^W`, and in the cipher policies `CTR >= 1`. -/
def BufferValid (s : State) : Prop :=
  s.inited = true → s.off ≠ 0 →
    s.buf = blockAt s.fam s.width (roundCount s.rnd) s.words
        ((s.ctr + 2 ^ widthBits s.width - 1) % 2 ^ widthBits s.width)
      ∧ (s.pol ≠ .rng → 1 ≤ s.ctr)

/-- A constructed engine is one of the six variants (30_encoding.md R98), and an unconstructed one has the
configuration of reset (10_state.md R40; 43_stream_engine.md R225). -/
def ConfigLegal (s : State) : Prop :=
  (s.inited = true → legalVariant s.fam s.pol = true) ∧
  (s.inited = false →
    s.off = 0 ∧ s.fam = .chacha ∧ s.pol = .standard ∧ s.rnd = .r8 ∧ s.backend = .soft)

/-- `ERR` never holds Faulted, and while `FAULT = 1` it holds the code of the one fault there is
(10_state.md R34; 60_exceptions.md R306, R307). -/
def ErrorLatchLegal (s : State) : Prop :=
  s.err ≠ .faulted ∧ (s.fault = true → s.err = .counterExhausted)

/-- The constants stand in their slots (10_state.md R22, R23; 41_state_builder.md R160). -/
def ConstantsInPlace (s : State) : Prop :=
  s.inited = true →
    match s.fam with
    | .chacha => s.words[0] = 0x61707865 ∧ s.words[1] = 0x3320646e ∧ s.words[2] = 0x79622d32
        ∧ s.words[3] = 0x6b206574
    | .salsa => s.words[0] = 0x61707865 ∧ s.words[5] = 0x3320646e ∧ s.words[10] = 0x79622d32
        ∧ s.words[15] = 0x6b206574

end Sys2Proof.Safety
end

