-- ==== Sys2Proof/Certificates/Slice0/Obligations.lean ====
section
/-! DEFINITION. The statements for the provers. Each is about every state, unless a premise names what it
asks of the state; the premises `BufferValid` and `ConfigLegal` are invariants of the machine, stated as
such at the end. Conclusions name response words and state fields, so that they can be read against the
rules of spec/. -/

open Sys2Proof Sys2Proof.Machine Sys2Proof.Safety

/-! ### Packets and steps -/

/-- Decoding the packet of an instruction gives the instruction, with every operand at every value the
encoding admits, whatever words follow it (30_encoding.md R90 to R104). -/
def Obligations.DecodeOfEncode : Prop :=
  ∀ (i : Instr) (rest : List Word), i.encodable = true → decode (encode i ++ rest) = .instr i rest

/-- The other direction: a packet that decodes is the packet of the instruction it decodes to, so each
word sequence has one meaning and no bit of it is dropped. -/
def Obligations.EncodeOfDecode : Prop :=
  ∀ (ws : List Word) (i : Instr) (rest : List Word), decode ws = .instr i rest →
    encode i ++ rest = ws ∧ i.encodable = true

/-- Words written out in the spec decode to the commands they stand for (43_stream_engine.md R211;
95_test_vectors.md V17). -/
def Obligations.KnownPacketsDecode : Prop :=
  decode [0x0c201020, 0x03020100, 0x07060504, 0x0b0a0908, 0x0f0e0d0c, 0x13121110, 0x17161514, 0x1b1a1918,
      0x1f1e1d1c, 0x00000000, 0x4a000000, 0x00000000]
    = .instr (.init .chacha .standard 2 0 ((List.range 32).map (BitVec.ofNat 8))
        [0, 0, 0, 0, 0, 0, 0, 0x4a, 0, 0, 0, 0]) []
  ∧ decode [0x00006011] = .instr (.maxpar 3) []
  ∧ decode [0x00000021, 0x00001000, 0, 0x00000072, 0] = .instr (.apply 0x1000 114) []
  ∧ decode [0x00000023, 0xffffff8a, 0x0000003f, 0, 0] = .instr (.seek 0x3fffffff8a) []
  ∧ decode [0x00000025] = .instr .rdStat []
  ∧ decode [0x00000036, 0x04030201, 0x08070605, 0x0c0b0a09, 0x21, 0, 0, 0]
    = .instr (.rngLoad 0x04030201 0x08070605 0x0c0b0a09 0x21) []

/-- A packet with a reserved opcode raises IllegalCommand and is one word long (30_encoding.md R108). -/
def Obligations.ReservedOpcodeIsIllegal : Prop :=
  ∀ (s : State) (w0 : Word) (ws : List Word), s.rst = false → s.cmd = w0 :: ws →
    reservedOpcode w0 = true →
    step s = .next { s with
      cmd := ws
      err := if s.fault = true then s.err else .illegalCommand
      resp := [0x00000003] }

/-- A packet with a defined opcode raises IllegalCommand when a condition of 30_encoding.md R109 holds, and
otherwise is a command with legal operands (R110). The conditions are read off the packet's bits. -/
def Obligations.IllegalFieldsAreIllegal : Prop :=
  ∀ (s : State) (w0 : Word) (ws : List Word), s.rst = false → s.cmd = w0 :: ws →
    reservedOpcode w0 = false → packetLength w0 ≤ ws.length + 1 →
    (illegalFields w0 ws s.caps = true →
      step s = .next { s with
        cmd := ws.drop (packetLength w0 - 1)
        err := if s.fault = true then s.err else .illegalCommand
        resp := [0x00000003] })
    ∧ (illegalFields w0 ws s.caps = false →
      ∃ i, decode s.cmd = .instr i (ws.drop (packetLength w0 - 1)) ∧ operandsLegal i s.caps = true)

/-- The core takes as many words as 30_encoding.md R111 computes from the header, whatever they are, and
what follows is the next packet (70_reset_and_hazards.md R353). -/
def Obligations.PacketsAreTakenWhole : Prop :=
  ∀ (s : State) (w0 : Word) (ws : List Word), s.rst = false → s.cmd = w0 :: ws →
    packetLength w0 ≤ ws.length + 1 →
    ∃ t, step s = .next t ∧ t.cmd = ws.drop (packetLength w0 - 1)

/-- A step runs the command at the head of the port, with the words after it left on the port, and the
command itself touches neither the port nor the two inputs (20_memory.md R71; log entries 3, 5, 6). -/
def Obligations.StepRunsDecodedCommand : Prop :=
  (∀ (s : State) (i : Instr) (rest : List Word), s.rst = false → decode s.cmd = .instr i rest →
    step s = exec i { s with cmd := rest })
  ∧ ∀ (i : Instr) (s t : State), exec i s = .next t →
    t.cmd = s.cmd ∧ t.rst = s.rst ∧ t.caps = s.caps

/-- Less than a packet is no packet: the core waits and nothing changes. The waiting step is the model's
choice (log entry 3); the spec says that the host has not finished issuing it (30_encoding.md R111). -/
def Obligations.StepWaitsForWholePacket : Prop :=
  ∀ (s : State), s.rst = false →
    (s.cmd = [] ∨ ∃ w0 ws, s.cmd = w0 :: ws ∧ ws.length + 1 < packetLength w0) → step s = .next s

/-- Asserting the reset input puts the instance in the reset state (10_state.md R40;
70_reset_and_hazards.md R340). That the data space, `CAPS` and the unread words of the port stay, and
that the response port is cleared, is the model's choice (log entry 6). -/
def Obligations.ResetStep : Prop :=
  ∀ (s : State), s.rst = true → ∃ t, step s = .next t
    ∧ t.inited = false ∧ t.fault = false ∧ t.err = .ok ∧ t.fam = .chacha ∧ t.pol = .standard
    ∧ t.rnd = .r8 ∧ t.backend = .soft ∧ t.off = 0 ∧ t.statusWord = 0
    ∧ t.mem = s.mem ∧ t.caps = s.caps ∧ t.cmd = s.cmd ∧ t.rst = false ∧ t.resp = []

/-- Every step answers a next state: the decoder is total over whole packets and no command stops the core
(30_encoding.md R110; 60_exceptions.md R311). That a step on an empty port or on a packet cut short answers
one too, the state as it was, is the model's choice (log entry 3, DESIGN CHOICE): neither rule says it, and
93_implementation_defined.md U11 calls that case `refuse` or `stuck`. -/
def Obligations.StepAlwaysAnswers : Prop := ∀ (s : State), ∃ t, step s = .next t

/-! ### Errors (60_exceptions.md) -/

/-- While `FAULT = 1` every legal command other than RDSTAT and ZEROIZE is refused with Faulted and writes
nothing, not even `ERR` (R307). -/
def Obligations.FaultedInstanceRefuses : Prop :=
  ∀ (i : Instr) (s : State), s.fault = true → operandsLegal i s.caps = true → i ≠ .rdStat →
    i ≠ .zeroize → exec i s = .next { s with resp := [0x00000007] }

/-- NotInitialised (R303): raised by the eleven engine and RNG commands with `INITED = 0`, and by no
other command. -/
def Obligations.NotInitialisedWithoutEngine : Prop :=
  (∀ (i : Instr) (s : State), (kind i = .cipher ∨ kind i = .rng) →
    operandsLegal i s.caps = true → s.fault = false → s.inited = false →
    exec i s = .next { s with err := .notInitialised, resp := [0x00000004] })
  ∧ ∀ (i : Instr) (s t : State), exec i s = .next t → responseStatus t = 0x04 →
    (kind i = .cipher ∨ kind i = .rng) ∧ s.inited = false

/-- WrongMode (R304): the cipher commands in RNG mode, the RNG commands in a cipher policy, and nothing
else. -/
def Obligations.WrongModeSeparatesCipherAndRng : Prop :=
  (∀ (i : Instr) (s : State), operandsLegal i s.caps = true → s.fault = false → s.inited = true →
    wrongMode i s = true →
    exec i s = .next { s with err := .wrongMode, resp := [0x00000005] })
  ∧ ∀ (i : Instr) (s t : State), exec i s = .next t → responseStatus t = 0x05 →
    wrongMode i s = true ∧ s.inited = true

/-- InvalidKeyOrNonceLength (R301): INIT with a wrong length writes `ERR` and nothing else, so an engine
constructed before stays; no other command raises it. `NONCE_BYTES` is 30_encoding.md R98. -/
def Obligations.WrongLengthIsRefusedByInit : Prop :=
  (∀ (s : State) (fam : Family) (pol : Policy) (rnd : BitVec 2) (bsel : BitVec 3)
      (key nonce : List Byte), s.fault = false →
    operandsLegal (.init fam pol rnd bsel key nonce) s.caps = true →
    (key.length ≠ 32 ∨ nonce.length ≠ (match pol with
      | .standard => 12
      | .legacy => 8
      | .extended => 24
      | .rng => 12)) →
    exec (.init fam pol rnd bsel key nonce) s
      = .next { s with err := .invalidKeyOrNonceLength, resp := [0x00000001] })
  ∧ ∀ (i : Instr) (s t : State), exec i s = .next t → responseStatus t = 0x01 → kind i = .construct

/-- DataRange (R305): the four region commands when the region would pass the top of the data space; no
byte is accessed. With `LEN = 0` it is never raised. -/
def Obligations.RegionPastTheTopIsRefused : Prop :=
  (∀ (i : Instr) (s : State), operandsLegal i s.caps = true → s.fault = false →
    (kind i = .cipher → CipherReady s) → (kind i = .rng → RngReady s) →
    2 ^ 64 < (region i).1 + (region i).2 →
    exec i s = .next { s with err := .dataRange, resp := [0x00000006] })
  ∧ ∀ (i : Instr) (s t : State), exec i s = .next t → responseStatus t = 0x06 →
    2 ^ 64 < (region i).1 + (region i).2 ∧ (region i).2 ≠ 0

/-- CounterExhausted as a recoverable status (R308): TRYAPPLY and SEEK past the counter's range write
`ERR` and nothing else; it is never raised in RNG mode. -/
def Obligations.ExhaustionIsRecoverable : Prop :=
  (∀ (s : State) (addr len : DWord), CipherReady s → addr.toNat + len.toNat ≤ 2 ^ 64 →
    wouldExhaust s len.toNat = true →
    exec (.tryApply addr len) s = .next { s with err := .counterExhausted, resp := [0x00000002] })
  ∧ (∀ (s : State) (v : QWord), CipherReady s → v.toNat < 2 ^ 64 → seekPast s v.toNat = true →
    exec (.seek v) s = .next { s with err := .counterExhausted, resp := [0x00000002] })
  ∧ ∀ (i : Instr) (s t : State), s.pol = .rng → exec i s = .next t → responseStatus t ≠ 0x02

/-- The sticky fault (R306): APPLY at exhaustion sets `FAULT` and `ERR` and writes nothing else; no
other command sets `FAULT`, and only reset clears it; `S` and `BUF` keep their contents while faulted,
until ZEROIZE. -/
def Obligations.OnlyApplyFaultsAndOnlyResetClears : Prop :=
  (∀ (s : State) (addr len : DWord), CipherReady s → addr.toNat + len.toNat ≤ 2 ^ 64 →
    wouldExhaust s len.toNat = true →
    exec (.apply addr len) s
      = .next { s with fault := true, err := .counterExhausted, resp := [0x00000002] })
  ∧ (∀ (i : Instr) (s t : State), exec i s = .next t → s.fault = false → t.fault = true →
    ∃ addr len, i = .apply addr len ∧ wouldExhaust s len.toNat = true)
  ∧ (∀ (s t : State), step s = .next t → s.fault = true → t.fault = false → s.rst = true)
  ∧ ∀ (i : Instr) (s t : State), s.fault = true → i ≠ .zeroize → exec i s = .next t →
    t.words = s.words ∧ t.buf = s.buf

/-- Of several error conditions the first in the order of R309 is raised, and a command that meets none
responds OK; a packet that names no command raises IllegalCommand, whatever the state. -/
def Obligations.ErrorsHavePriority : Prop :=
  (∀ (i : Instr) (s : State), ∃ t, exec i s = .next t ∧
    responseStatus t = statusCode ((errorOf i s).getD .ok))
  ∧ ∀ (s : State) (why : Illegal) (rest : List Word), s.rst = false → decode s.cmd = .illegal why rest →
    ∃ t, step s = .next t ∧ responseStatus t = 0x03

/-- Every error is precise (R310): a command that is refused writes no state and no data byte, `ERR`
and `FAULT` apart. -/
def Obligations.RefusedCommandsWriteNothing : Prop :=
  ∀ (i : Instr) (s t : State), exec i s = .next t → responseStatus t ≠ 0x00 →
    t = { s with fault := t.fault, err := t.err, resp := t.resp } ∧ t.resp.length = 1

/-- The latches of 10_state.md R34: what sets and clears `INITED`, `FAULT` and `ERR`. -/
def Obligations.LatchesFollowTheRules : Prop :=
  (∀ (i : Instr) (s t : State), exec i s = .next t →
    (t.inited = if kind i = .construct ∧ responseStatus t = 0x00 then true
      else if i = .zeroize then false else s.inited)
    ∧ (s.fault = true → t.fault = true ∧ t.err = s.err)
    ∧ (s.fault = false →
      statusCode t.err = if responseStatus t ≠ 0x00 then responseStatus t
        else if kind i = .construct then 0x00 else statusCode s.err)
    ∧ (s.fault = false → t.fault = true → ∃ addr len, i = .apply addr len ∧ responseStatus t = 0x02))
  ∧ ∀ (s t : State), s.rst = true → step s = .next t →
    t.inited = false ∧ t.fault = false ∧ t.err = .ok

/-! ### Frames and confidentiality -/

/-- Footprint (20_memory.md R66): a command changes no byte outside the region it names, and none at all
if it is refused. -/
def Obligations.DataOutsideTheRegionIsUntouched : Prop :=
  ∀ (i : Instr) (s t : State), exec i s = .next t →
    (∀ a, ¬ InRegion (region i).1 (region i).2 a → t.mem.read a = s.mem.read a)
    ∧ (responseStatus t ≠ 0x00 → t.mem = s.mem)

/-- Access to `S` (10_state.md R24): which commands write which words, and that no response depends on a
key word. -/
def Obligations.StateWordsAreReachedOnlyAsAllowed : Prop :=
  (∀ (i : Instr) (s t : State) (k : Fin 16), exec i s = .next t → kind i ≠ .construct → i ≠ .zeroize →
    t.words[k] ≠ s.words[k] →
    (isCounterWord s.fam s.pol k = true ∧ match i with
      | .apply _ _ => True
      | .tryApply _ _ => True
      | .seek _ => True
      | .rngFill _ _ => True
      | .rngSetWp _ => True
      | .rngLoad _ _ _ _ => True
      | _ => False)
    ∨ (13 ≤ k.val ∧ s.pol = .rng ∧ match i with
      | .rngSetStr _ => True
      | .rngLoad _ _ _ _ => True
      | _ => False))
  ∧ (∀ (s t : State), exec .zeroize s = .next t → ∀ k : Fin 16, t.words[k] = 0)
  ∧ (∀ (i : Instr) (s t u : State) (x : Words), kind i = .construct → exec i s = .next t →
    responseStatus t = 0x00 → exec i { s with words := x } = .next u → u.words = t.words)
  ∧ ∀ (i : Instr) (s t u : State) (x : Words), ConfigLegal s → exec i s = .next t →
    (∀ k : Fin 16, isKeyWord s.fam k = false → x[k] = s.words[k]) →
    exec i { s with words := x } = .next u → u.resp = t.resp

/-- `FAM`, `POL`, `RND` are written by a successful INIT from its header fields, cleared by ZEROIZE, and
written by nothing else (10_state.md R32). -/
def Obligations.ConfigurationIsFixedByInit : Prop :=
  ∀ (i : Instr) (s t : State), exec i s = .next t →
    match i with
    | .init fam pol rnd _ _ _ =>
      if responseStatus t = 0x00 then
        t.fam = fam ∧ t.pol = pol ∧ rndCode t.rnd = rnd ∧ legalVariant fam pol = true
          ∧ roundCount t.rnd = (match rnd.toNat with
            | 0 => 8
            | 1 => 12
            | _ => 20)
      else t.fam = s.fam ∧ t.pol = s.pol ∧ t.rnd = s.rnd
    | .zeroize => t.fam = .chacha ∧ t.pol = .standard ∧ t.rnd = .r8
    | _ => t.fam = s.fam ∧ t.pol = s.pol ∧ t.rnd = s.rnd

/-- `BACKEND` (10_state.md R33): written by INIT with the selection's result, cleared by ZEROIZE, written by
nothing else; no command but RDSTAT depends on it, and RDSTAT only in bits 6:4. -/
def Obligations.BackendShowsOnlyInStatus : Prop :=
  (∀ (i : Instr) (s t : State), exec i s = .next t →
    match i with
    | .init _ _ _ bsel _ _ =>
      t.backend = if responseStatus t = 0x00 then select bsel s.caps else s.backend
    | .zeroize => t.backend = .soft
    | _ => t.backend = s.backend)
  ∧ ∀ (i : Instr) (s t u : State) (b : Backend), exec i s = .next t →
    exec i { s with backend := b } = .next u →
    u = { t with backend := u.backend, resp := u.resp }
    ∧ (i ≠ .rdStat → u.resp = t.resp)
    ∧ (i = .rdStat → ∃ v w, t.resp = [0x00000400, v] ∧ u.resp = [0x00000400, w]
      ∧ v &&& 0xffffff8f = w &&& 0xffffff8f)

/-- What nothing has written is never read (10_state.md R41, R29): without an engine `S` and `BUF` do not
matter, and while `OFF = 0` `BUF` does not. -/
def Obligations.UnwrittenStateIsNeverRead : Prop :=
  (∀ (i : Instr) (s t u : State) (x : Words) (b : Block), s.inited = false → exec i s = .next t →
    exec i { s with words := x, buf := b } = .next u →
    u = { t with words := u.words, buf := u.buf } ∧ (t.inited = true → u.words = t.words))
  ∧ ∀ (i : Instr) (s t u : State) (b : Block), s.off = 0 → exec i s = .next t →
    exec i { s with buf := b } = .next u →
    u = { t with buf := u.buf } ∧ (t.off ≠ 0 → u.buf = t.buf)

/-- Keystream does not depend on the data (20_memory.md R71; 41_state_builder.md R167): with other data
the same command ends in the same state, XORs the same bytes into its region, and RNGFILL, which reads
none, writes the same bytes. -/
def Obligations.KeystreamIgnoresTheData : Prop :=
  ∀ (i : Instr) (s t u : State) (m : Memory), exec i s = .next t → exec i { s with mem := m } = .next u →
    u = { t with mem := u.mem }
    ∧ ∀ a, InRegion (region i).1 (region i).2 a →
      match i with
      | .rngFill _ _ => responseStatus t = 0x00 → u.mem.read a = t.mem.read a
      | _ => u.mem.read a ^^^ m.read a = t.mem.read a ^^^ s.mem.read a

/-! ### The Permutation Core (40_permutation.md) -/

/-- QR for ChaCha (R132): the four selected words by the quarter-round's twelve operations, the other
twelve words unchanged, nothing else written. -/
def Obligations.QrChachaQuarterRound : Prop :=
  ∀ (s : State) (a b c d : Fin 16) (x : Words), s.fault = false → distinct4 a b c d = true →
    let a1 := x[a] + x[b]
    let d1 := (x[d] ^^^ a1).rotateLeft 16
    let c1 := x[c] + d1
    let b1 := (x[b] ^^^ c1).rotateLeft 12
    let a2 := a1 + b1
    let d2 := (d1 ^^^ a2).rotateLeft 8
    let c2 := c1 + d2
    let b2 := (b1 ^^^ c2).rotateLeft 7
    ∃ y : Words, exec (.qr .chacha a b c d x) s = .next { s with resp := 0x00004000 :: y.toList }
      ∧ y[a] = a2 ∧ y[b] = b2 ∧ y[c] = c2 ∧ y[d] = d2
      ∧ ∀ k : Fin 16, k ≠ a → k ≠ b → k ≠ c → k ≠ d → y[k] = x[k]

/-- QR for Salsa (R134, whose shape the spec marks as general knowledge; 90_conflicts.md C1). -/
def Obligations.QrSalsaQuarterRound : Prop :=
  ∀ (s : State) (a b c d : Fin 16) (x : Words), s.fault = false → distinct4 a b c d = true →
    let b1 := x[b] ^^^ (x[a] + x[d]).rotateLeft 7
    let c1 := x[c] ^^^ (b1 + x[a]).rotateLeft 9
    let d1 := x[d] ^^^ (c1 + b1).rotateLeft 13
    let a1 := x[a] ^^^ (d1 + c1).rotateLeft 18
    ∃ y : Words, exec (.qr .salsa a b c d x) s = .next { s with resp := 0x00004000 :: y.toList }
      ∧ y[a] = a1 ∧ y[b] = b1 ∧ y[c] = c1 ∧ y[d] = d1
      ∧ ∀ k : Fin 16, k ≠ a → k ≠ b → k ≠ c → k ≠ d → y[k] = x[k]

/-- DROUND (R135 to R137): the eight quarter-rounds of each family in their order. -/
def Obligations.DroundIsEightQuarterRounds : Prop :=
  ∀ (s : State) (x : Words), s.fault = false →
    (let q := quarter .chacha
      let y := q (q (q (q x 0 4 8 12) 1 5 9 13) 2 6 10 14) 3 7 11 15
      let z := q (q (q (q y 0 5 10 15) 1 6 11 12) 2 7 8 13) 3 4 9 14
      exec (.dround .chacha x) s = .next { s with resp := 0x00004000 :: z.toList })
    ∧ (let q := quarter .salsa
      let y := q (q (q (q x 0 4 8 12) 5 9 13 1) 10 14 2 6) 15 3 7 11
      let z := q (q (q (q y 0 1 2 3) 5 6 7 4) 10 11 8 9) 15 12 13 14
      exec (.dround .salsa x) s = .next { s with resp := 0x00004000 :: z.toList })

/-- PERMNF applies `rc div 2` double-rounds (R138, R141), and ROUNDS adds the original state to every word
of that (R140). -/
def Obligations.RoundsAddTheOriginalState : Prop :=
  ∀ (s : State) (fam : Family) (rc : BitVec 8) (x : Words), s.fault = false →
    ∃ w : Words, w = (doubleRound fam)^[rc.toNat / 2] x
      ∧ exec (.permnf fam rc x) s = .next { s with resp := 0x00004000 :: w.toList }
      ∧ exec (.rounds fam rc x) s = .next { s with
          resp := 0x00004000 :: (Vector.ofFn fun k : Fin 16 => w[k] + x[k]).toList }

/-- The quarter-rounds and the double-round are bijections, and rounds compose when the first count is
even (R142, a law the spec derives). -/
def Obligations.RoundsAreInvertible : Prop :=
  (∀ (fam : Family) (a b c d : Fin 16), distinct4 a b c d = true →
    Function.Bijective fun x : Words => quarter fam x a b c d)
  ∧ (∀ fam : Family, Function.Bijective (doubleRound fam))
  ∧ ∀ (fam : Family) (m n : Nat) (x : Words), m % 2 = 0 →
    permNF fam (m + n) x = permNF fam n (permNF fam m x)

/-! ### The subkey derivation (44_variant_subkey.md) -/

/-- HDERIVE (R252 to R254): the key and the input in their slots, the rounds without feed-forward, eight
words taken in order. The slots and the words taken are marked general knowledge in the spec. -/
def Obligations.HderiveTakesEightWords : Prop :=
  ∀ (s : State) (fam : Family) (rnd : BitVec 2) (r : Rounds) (key : Vector Byte 32)
      (inp : Vector Byte 16), s.fault = false → roundsOf rnd = some r →
    let k := fun i => (packBytes key.toList).getD i 0
    let n := fun i => (packBytes inp.toList).getD i 0
    let x : Words := match fam with
      | .chacha => #v[0x61707865, 0x3320646e, 0x79622d32, 0x6b206574, k 0, k 1, k 2, k 3, k 4, k 5, k 6,
          k 7, n 0, n 1, n 2, n 3]
      | .salsa => #v[0x61707865, k 0, k 1, k 2, k 3, 0x3320646e, n 0, n 1, n 2, n 3, 0x79622d32, k 4, k 5,
          k 6, k 7, 0x6b206574]
    let w := (doubleRound fam)^[roundCount r / 2] x
    exec (.hderive fam rnd key inp) s = .next { s with
      resp := 0x00002000 :: match fam with
        | .chacha => [w[0], w[1], w[2], w[3], w[12], w[13], w[14], w[15]]
        | .salsa => [w[0], w[5], w[10], w[15], w[6], w[7], w[8], w[9]] }

/-! ### Backends (42_backends.md) -/

/-- BSIZE answers 64 (R189). -/
def Obligations.BsizeAnswers64 : Prop :=
  ∀ (s : State), s.fault = false → exec .bsize s = .next { s with resp := [0x00000400, 0x00000040] }

/-- The selection (R184) and MAXPAR, which answers the width of the backend selected (R183, R190). -/
def Obligations.SelectionAndMaxpar : Prop :=
  ∀ (s : State) (bsel : BitVec 3), s.fault = false → bsel.toNat < 6 →
    let caps := s.caps
    let b : Backend := match bsel.toNat with
      | 0 => if caps[2] then .avx512 else if caps[1] then .avx2 else if caps[0] then .sse2
        else if caps[3] then .neon else .soft
      | 2 => if caps[0] then .sse2 else .soft
      | 3 => if caps[1] then .avx2 else .soft
      | 4 => if caps[2] then .avx512 else .soft
      | 5 => if caps[3] then .neon else .soft
      | _ => .soft
    select bsel caps = b
      ∧ exec (.maxpar bsel) s = .next { s with
          resp := [0x00000400, match b with
            | .soft => 1
            | .sse2 => 4
            | .avx2 => 8
            | .avx512 => 16
            | .neon => 4] }

/-- GEN (R182): block `j` is the block of counter `(CB + j) mod 2^W`, whatever backend made it. The counter
words of each layout are named by slot (41_state_builder.md R165): `X[12]` takes bits 31:0 in every ChaCha
layout and `X[13]` bits 63:32 in the Legacy one only; in the Salsa layout `X[8]` takes bits 31:0 and `X[9]`
bits 63:32. -/
def Obligations.GenAnswersTheBlocks : Prop :=
  ∀ (s : State) (fam : Family) (pol : Policy) (rnd : BitVec 2) (r : Rounds) (bsel : BitVec 3)
      (nblk : BitVec 8) (x : Words) (cb : DWord), s.fault = false →
    operandsLegal (.gen fam pol rnd bsel nblk x cb) s.caps = true → roundsOf rnd = some r →
    let numbered := fun j =>
      let c := BitVec.ofNat 64 ((cb.toNat + j) % 2 ^ widthBits (ctrWidth fam pol))
      match fam, pol with
      | .chacha, .legacy => (x.set 12 (c.extractLsb' 0 32)).set 13 (c.extractLsb' 32 32)
      | .chacha, _ => x.set 12 (c.extractLsb' 0 32)
      | .salsa, _ => (x.set 8 (c.extractLsb' 0 32)).set 9 (c.extractLsb' 32 32)
    exec (.gen fam pol rnd bsel nblk x cb) s = .next { s with
      resp := BitVec.ofNat 32 (256 * (64 * nblk.toNat)) :: (List.range nblk.toNat).flatMap fun j =>
        (perm fam (roundCount r) (numbered j)).toList }

/-- GENX (R193): the same blocks XORed into the region and nothing else; the same command again restores
it. -/
def Obligations.GenxXorsTheBlocks : Prop :=
  ∀ (s : State) (fam : Family) (pol : Policy) (rnd : BitVec 2) (r : Rounds) (bsel : BitVec 3)
      (nblk : BitVec 8) (x : Words) (cb addr : DWord), s.fault = false →
    operandsLegal (.genx fam pol rnd bsel nblk x cb addr) s.caps = true → roundsOf rnd = some r →
    addr.toNat + 64 * nblk.toNat ≤ 2 ^ 64 →
    let w := ctrWidth fam pol
    ∃ t u, exec (.genx fam pol rnd bsel nblk x cb addr) s = .next t
      ∧ t = { s with mem := t.mem, resp := [0x00000000] }
      ∧ (∀ a, t.mem.read a = if addr.toNat ≤ a ∧ a < addr.toNat + 64 * nblk.toNat then
          s.mem.read a ^^^ keystreamByte fam w (roundCount r) x
            (64 * ((cb.toNat + (a - addr.toNat) / 64) % 2 ^ widthBits w) + (a - addr.toNat) % 64)
        else s.mem.read a)
      ∧ exec (.genx fam pol rnd bsel nblk x cb addr) t = .next u
      ∧ ∀ a, u.mem.read a = s.mem.read a

/-! ### The Stream Engine (43_stream_engine.md) -/

/-- INIT (R211): the state words of the four base layouts (41_state_builder.md R162 to R164, whose slots
are marked general knowledge), counter 0, and every other field it writes. A key word in the packet is
the state word (20_memory.md R63). -/
def Obligations.InitBuildsTheEngine : Prop :=
  ∀ (s : State) (fam : Family) (pol : Policy) (rnd : BitVec 2) (r : Rounds) (bsel : BitVec 3)
      (key nonce : List Byte), s.fault = false → legalVariant fam pol = true → roundsOf rnd = some r →
    bsel.toNat < 6 → key.length = 32 → nonce.length = nonceBytes pol →
    let k := fun i => (packBytes key).getD i 0
    let n := fun i => (packBytes nonce).getD i 0
    ∃ x : Words, exec (.init fam pol rnd bsel key nonce) s = .next { s with
        words := x
        off := 0
        fam := fam
        pol := pol
        rnd := r
        backend := select bsel s.caps
        inited := true
        err := .ok
        resp := [0x00000000] }
      ∧ match fam, pol with
        | .chacha, .standard => x = #v[0x61707865, 0x3320646e, 0x79622d32, 0x6b206574, k 0, k 1, k 2, k 3,
            k 4, k 5, k 6, k 7, 0, n 0, n 1, n 2]
        | .chacha, .rng => x = #v[0x61707865, 0x3320646e, 0x79622d32, 0x6b206574, k 0, k 1, k 2, k 3,
            k 4, k 5, k 6, k 7, 0, n 0, n 1, n 2]
        | .chacha, .legacy => x = #v[0x61707865, 0x3320646e, 0x79622d32, 0x6b206574, k 0, k 1, k 2, k 3,
            k 4, k 5, k 6, k 7, 0, 0, n 0, n 1]
        | .salsa, .legacy => x = #v[0x61707865, k 0, k 1, k 2, k 3, 0x3320646e, n 0, n 1, 0, 0, 0x79622d32,
            k 4, k 5, k 6, k 7, 0x6b206574]
        | _, _ => True

/-- INIT of an extended-nonce variant (44_variant_subkey.md R255, R256, R258): the engine of the base
variant, keyed with what HDERIVE answers for the same key, the same round count and the first sixteen
nonce bytes; only `POL` differs. -/
def Obligations.ExtendedNonceUsesTheSubkey : Prop :=
  ∀ (s : State) (fam : Family) (rnd : BitVec 2) (bsel : BitVec 3) (key : Vector Byte 32)
      (head : Vector Byte 16) (tail : Vector Byte 8), s.fault = false → (roundsOf rnd).isSome = true →
    bsel.toNat < 6 →
    ∃ (sub : List Byte) (t : State), sub.length = 32
      ∧ exec (.hderive fam rnd key head) s = .next { s with resp := 0x00002000 :: packBytes sub }
      ∧ exec (.init fam .extended rnd bsel key.toList (head.toList ++ tail.toList)) s
        = .next { t with pol := .extended }
      ∧ match fam with
        | .chacha => exec (.init .chacha .standard rnd bsel sub ([0, 0, 0, 0] ++ tail.toList)) s = .next t
        | .salsa => exec (.init .salsa .legacy rnd bsel sub tail.toList) s = .next t

/-- The data law of APPLY and TRYAPPLY (R227(a), a law the spec derives; R215): every data byte is XORed
with the keystream byte of its stream position, `POS` grows by `LEN`, and only the counter words,
`BUF`, `OFF` and the region are written. -/
def Obligations.ApplyXorsTheKeystream : Prop :=
  ∀ (s : State) (addr len : DWord), CipherReady s → BufferValid s →
    addr.toNat + len.toNat ≤ 2 ^ 64 → wouldExhaust s len.toNat = false →
    ∃ t, exec (.apply addr len) s = .next t ∧ exec (.tryApply addr len) s = .next t
      ∧ t = { s with words := t.words, buf := t.buf, off := t.off, mem := t.mem, resp := [0x00000000] }
      ∧ (∀ k : Fin 16, isCounterWord s.fam s.pol k = false → t.words[k] = s.words[k])
      ∧ (∀ a, t.mem.read a = if addr.toNat ≤ a ∧ a < addr.toNat + len.toNat then
          s.mem.read a ^^^ keystream s (s.pos + (a - addr.toNat))
        else s.mem.read a)
      ∧ t.pos = s.pos + len.toNat

/-- The state machine of R218 (a table the spec derives): the offset and the counter after a successful
APPLY or TRYAPPLY, and that `BUF` is written only when a part of a new block is used. -/
def Obligations.ApplyMovesOffsetAndCounter : Prop :=
  ∀ (s : State) (addr len : DWord), CipherReady s → addr.toNat + len.toNat ≤ 2 ^ 64 →
    wouldExhaust s len.toNat = false →
    let n := len.toNat
    let tail := 64 - s.off.toNat
    ∃ t, exec (.apply addr len) s = .next t ∧ exec (.tryApply addr len) s = .next t
      ∧ (if s.off = 0 then
          if n % 64 = 0 then t.off = 0 ∧ t.ctr = s.ctr + n / 64 ∧ t.buf = s.buf
          else t.off.toNat = n % 64 ∧ t.ctr = s.ctr + (n + 63) / 64
        else
          if n < tail then t.off.toNat = s.off.toNat + n ∧ t.ctr = s.ctr ∧ t.buf = s.buf
          else if (n - tail) % 64 = 0 then
            t.off = 0 ∧ t.ctr = s.ctr + (n - tail) / 64 ∧ t.buf = s.buf
          else t.off.toNat = (n - tail) % 64 ∧ t.ctr = s.ctr + (n - tail + 63) / 64)

/-- `LEN = 0` responds OK with nothing accessed and nothing changed, even when the engine is exhausted
(R216, R217; 45_rng_adapter.md R272). -/
def Obligations.EmptyRegionChangesNothing : Prop :=
  ∀ (s : State) (addr : DWord),
    (CipherReady s → exec (.apply addr 0) s = .next { s with resp := [0x00000000] }
      ∧ exec (.tryApply addr 0) s = .next { s with resp := [0x00000000] })
    ∧ (RngReady s → exec (.rngFill addr 0) s = .next { s with resp := [0x00000000] })

/-- Chunking invariance (R227(c)): a region in one call and in two gives the same data, the same counter,
the same offset and, where it is valid, the same buffer. -/
def Obligations.ApplyInChunksIsApplyAtOnce : Prop :=
  ∀ (s : State) (addr m n : DWord), CipherReady s → BufferValid s →
    addr.toNat + m.toNat + n.toNat ≤ 2 ^ 64 → m.toNat + n.toNat < 2 ^ 64 →
    wouldExhaust s (m.toNat + n.toNat) = false →
    ∃ t u v, exec (.apply addr m) s = .next t ∧ exec (.apply (addr + m) n) t = .next u
      ∧ exec (.apply addr (m + n)) s = .next v
      ∧ u = { v with buf := u.buf, mem := u.mem } ∧ (v.off ≠ 0 → u.buf = v.buf)
      ∧ ∀ a, u.mem.read a = v.mem.read a

/-- Round trip (R227(b)): APPLY, SEEK back to where it started and APPLY again all answer OK and restore the
data. The premise `POS < 2^64` is what a SEEK operand can name (30_encoding.md R102). -/
def Obligations.ApplyTwiceRestoresTheData : Prop :=
  ∀ (s : State) (addr len : DWord), CipherReady s → BufferValid s →
    addr.toNat + len.toNat ≤ 2 ^ 64 → wouldExhaust s len.toNat = false → s.pos < 2 ^ 64 →
    ∃ t u v, exec (.apply addr len) s = .next t
      ∧ exec (.seek (BitVec.ofNat 128 s.pos)) t = .next u
      ∧ exec (.apply addr len) u = .next v
      ∧ t.resp = [0x00000000] ∧ u.resp = [0x00000000] ∧ v.resp = [0x00000000]
      ∧ (∀ a, v.mem.read a = s.mem.read a) ∧ v.ctr = t.ctr ∧ v.off = t.off

/-- SEEK (R220): the counter, the offset and the regenerated block of a position in range; the two
refusals otherwise; `V[127:64]` must be 0. The counter is named word by word (10_state.md R25): `S[12]` is bits
31:0 of it in the ChaCha layouts and `S[13]` bits 63:32 in the Legacy one; `S[8]` is bits 31:0 and `S[9]` bits
63:32 in the Salsa layouts (with the reserved Salsa pairs of log entry 9, which no engine has, among them). -/
def Obligations.SeekGoesToThePosition : Prop :=
  ∀ (s : State) (v : QWord), CipherReady s →
    let b := v.toNat / 64
    let r := v.toNat % 64
    let ctrMax := 2 ^ widthBits s.width - 1
    if 2 ^ 64 ≤ v.toNat then
      exec (.seek v) s = .next { s with err := .illegalCommand, resp := [0x00000003] }
    else if ctrMax < b ∨ (r ≠ 0 ∧ ctrMax < b + 1) then
      exec (.seek v) s = .next { s with err := .counterExhausted, resp := [0x00000002] }
    else
      let ctr := if r = 0 then b else b + 1
      let c := BitVec.ofNat 64 ctr
      ∃ t, exec (.seek v) s = .next t
      ∧ t = { s with words := t.words, buf := t.buf, off := BitVec.ofNat 6 r, resp := [0x00000000] }
      ∧ t.ctr = ctr
      ∧ (match s.fam, s.pol with
        | .chacha, .legacy => t.words[12] = c.extractLsb' 0 32 ∧ t.words[13] = c.extractLsb' 32 32
        | .chacha, _ => t.words[12] = c.extractLsb' 0 32
        | .salsa, _ => t.words[8] = c.extractLsb' 0 32 ∧ t.words[9] = c.extractLsb' 32 32)
      ∧ (∀ k : Fin 16, isCounterWord s.fam s.pol k = false → t.words[k] = s.words[k])
      ∧ t.buf = if r = 0 then s.buf else blockAt s.fam s.width (roundCount s.rnd) s.words b

/-- GETPOS answers `POS` (10_state.md R31) as a 128-bit number and changes nothing else; after a SEEK that
succeeded it answers the operand (R222). -/
def Obligations.GetposAnswersThePosition : Prop :=
  (∀ (s : State), CipherReady s →
    let pos := if s.off = 0 then 64 * s.ctr
      else 64 * ((s.ctr + 2 ^ widthBits s.width - 1) % 2 ^ widthBits s.width) + s.off.toNat
    exec .getPos s = .next { s with resp := 0x00001000 :: qwordWords (BitVec.ofNat 128 pos) })
  ∧ ∀ (s : State) (v : QWord), CipherReady s → v.toNat < 2 ^ 64 → seekPast s v.toNat = false →
    ∃ t, exec (.seek v) s = .next t
      ∧ exec .getPos t = .next { t with resp := 0x00001000 :: qwordWords v }

/-- RDSTAT (R224) answers the STATUS word field by field (10_state.md R35), in every state. -/
def Obligations.RdstatAnswersTheStatusWord : Prop :=
  ∀ (s : State), ∃ w : Word, exec .rdStat s = .next { s with resp := [0x00000400, w] }
    ∧ w.getLsbD 0 = s.inited
    ∧ w.getLsbD 1 = s.fault
    ∧ w.getLsbD 2 = (s.inited && s.off != 0)
    ∧ w.getLsbD 3 = (s.inited && s.pol != .rng && s.ctr == 2 ^ widthBits s.width - 1)
    ∧ w.extractLsb' 4 3 = backendCode s.backend
    ∧ w.extractLsb' 7 1 = famCode s.fam
    ∧ w.extractLsb' 8 2 = polCode s.pol
    ∧ w.extractLsb' 10 2 = rndCode s.rnd
    ∧ w.extractLsb' 12 6 = s.off
    ∧ w.extractLsb' 18 2 = 0
    ∧ w.extractLsb' 20 8 = statusCode s.err
    ∧ w.extractLsb' 28 4 = 0

/-- ZEROIZE (R225) clears the engine, in every state, and leaves `FAULT` and `ERR`. -/
def Obligations.ZeroizeClearsTheEngine : Prop :=
  ∀ (s : State), exec .zeroize s = .next { s with
    words := Vector.replicate 16 0
    buf := Vector.replicate 64 0
    off := 0
    fam := .chacha
    pol := .standard
    rnd := .r8
    backend := .soft
    inited := false
    resp := [0x00000000] }

/-! ### The RNG Adapter (45_rng_adapter.md) -/

/-- RNGFILL (R272): the region is written with the keystream from `POS` on, positions modulo `2^38`, and
the old data does not matter. -/
def Obligations.RngfillWritesTheKeystream : Prop :=
  ∀ (s : State) (addr len : DWord), RngReady s → ConfigLegal s → BufferValid s →
    addr.toNat + len.toNat ≤ 2 ^ 64 →
    ∃ t, exec (.rngFill addr len) s = .next t
      ∧ t = { s with words := t.words, buf := t.buf, off := t.off, mem := t.mem, resp := [0x00000000] }
      ∧ (∀ k : Fin 16, k ≠ 12 → t.words[k] = s.words[k])
      ∧ (∀ a, t.mem.read a = if addr.toNat ≤ a ∧ a < addr.toNat + len.toNat then
          keystream s ((s.pos + (a - addr.toNat)) % 2 ^ 38)
        else s.mem.read a)
      ∧ t.pos = (s.pos + len.toNat) % 2 ^ 38

/-- RNGGETWP answers the word position of R276. -/
def Obligations.RnggetwpAnswersTheWordPosition : Prop :=
  ∀ (s : State), RngReady s → ConfigLegal s →
    let ctr := s.words[12].toNat
    let bi := if s.off = 0 then ctr else (ctr + 2 ^ 32 - 1) % 2 ^ 32
    exec .rngGetWp s = .next { s with
      resp := 0x00001000 :: qwordWords (BitVec.ofNat 128 ((16 * bi + s.off.toNat / 4) % 2 ^ 36)) }

/-- RNGSETWP (R275): the counter, the offset and the regenerated block of the word position modulo
`2^36`, which RNGGETWP then answers. -/
def Obligations.RngsetwpGoesToTheWord : Prop :=
  ∀ (s : State) (v : QWord), RngReady s → ConfigLegal s →
    let p := v.toNat % 2 ^ 36
    let b := p / 16
    let j := p % 16
    ∃ t, exec (.rngSetWp v) s = .next t
      ∧ t = { s with
          words := s.words.set 12 (BitVec.ofNat 32 (if j = 0 then b else b + 1))
          buf := if j = 0 then s.buf else blockAt .chacha .w32 (roundCount s.rnd) s.words b
          off := BitVec.ofNat 6 (4 * j)
          resp := [0x00000000] }
      ∧ exec .rngGetWp t = .next { t with resp := 0x00001000 :: qwordWords (BitVec.ofNat 128 p) }

/-- RNGGETSTR answers the three stream words and a zero word (R277). -/
def Obligations.RnggetstrAnswersTheStream : Prop :=
  ∀ (s : State), RngReady s →
    exec .rngGetStr s = .next { s with
      resp := [0x00001000, s.words[13], s.words[14], s.words[15], 0] }

/-- RNGSETSTR (R278): the stream words are replaced, the position is kept, and the buffered block is
regenerated under the new identifier; `V[127:96]` must be 0. -/
def Obligations.RngsetstrKeepsThePosition : Prop :=
  ∀ (s : State) (v : QWord), RngReady s → ConfigLegal s →
    let x := ((s.words.set 13 (v.extractLsb' 0 32)).set 14 (v.extractLsb' 32 32)).set 15
      (v.extractLsb' 64 32)
    if 2 ^ 96 ≤ v.toNat then
      exec (.rngSetStr v) s = .next { s with err := .illegalCommand, resp := [0x00000003] }
    else
      exec (.rngSetStr v) s = .next { s with
        words := x
        buf := if s.off = 0 then s.buf else blockAt .chacha .w32 (roundCount s.rnd) x
          ((s.words[12].toNat + 2 ^ 32 - 1) % 2 ^ 32)
        resp := [0x00000000] }

/-- RNGSAVE answers the stream words and the word position, 28 bytes (R280). -/
def Obligations.RngsaveAnswersTheRecord : Prop :=
  ∀ (s : State), RngReady s → ConfigLegal s →
    let ctr := s.words[12].toNat
    let bi := if s.off = 0 then ctr else (ctr + 2 ^ 32 - 1) % 2 ^ 32
    exec .rngSave s = .next { s with
      resp := 0x00001c00 :: s.words[13] :: s.words[14] :: s.words[15]
        :: qwordWords (BitVec.ofNat 128 ((16 * bi + s.off.toNat / 4) % 2 ^ 36)) }

/-- RNGLOAD (R281): the stream words, then what RNGSETWP does. -/
def Obligations.RngloadRestoresTheRecord : Prop :=
  ∀ (s : State) (i0 i1 i2 : Word) (wp : QWord), RngReady s → ConfigLegal s →
    let x := ((s.words.set 13 i0).set 14 i1).set 15 i2
    let p := wp.toNat % 2 ^ 36
    let b := p / 16
    let j := p % 16
    exec (.rngLoad i0 i1 i2 wp) s = .next { s with
        words := x.set 12 (BitVec.ofNat 32 (if j = 0 then b else b + 1))
        buf := if j = 0 then s.buf else blockAt .chacha .w32 (roundCount s.rnd) x b
        off := BitVec.ofNat 6 (4 * j)
        resp := [0x00000000] }
      ∧ exec (.rngLoad i0 i1 i2 wp) s = exec (.rngSetWp wp) { s with words := x }

/-- Resumption (R280, R281): the record of an instance at a word boundary, loaded into another instance
with the same seed and round count, makes the second deliver the same bytes. -/
def Obligations.LoadedRecordResumesTheStream : Prop :=
  ∀ (s r : State), RngReady s → ConfigLegal s → BufferValid s → RngReady r → ConfigLegal r →
    s.off.toNat % 4 = 0 → r.rnd = s.rnd → (∀ k : Fin 16, k.val < 12 → r.words[k] = s.words[k]) →
    ∃ (i0 i1 i2 w0 w1 w2 w3 : Word) (u : State),
      exec .rngSave s = .next { s with resp := [0x00001c00, i0, i1, i2, w0, w1, w2, w3] }
      ∧ exec (.rngLoad i0 i1 i2 (w3 ++ w2 ++ w1 ++ w0)) r = .next u
      ∧ u.words = s.words ∧ u.off = s.off ∧ (s.off ≠ 0 → u.buf = s.buf)
      ∧ ∀ (addr len : DWord), addr.toNat + len.toNat ≤ 2 ^ 64 →
        ∃ p q, exec (.rngFill addr len) s = .next p ∧ exec (.rngFill addr len) u = .next q
          ∧ ∀ a, addr.toNat ≤ a → a < addr.toNat + len.toNat → q.mem.read a = p.mem.read a

/-! ### Invariants -/

/-- Every step keeps the data space in its canonical form. The form, a list of written bytes with rising
addresses, is the model's own choice (log entry 1, DESIGN CHOICE); 20_memory.md section 1 gives the address
space it stands for. -/
def Obligations.StepKeepsMemoryCanonical : Prop :=
  ∀ (s t : State), s.mem.wf = true → step s = .next t → t.mem.wf = true

/-- Every step keeps the buffer validity invariant (10_state.md R29, which the spec derives). -/
def Obligations.StepKeepsBufferValid : Prop :=
  ∀ (s t : State), BufferValid s → step s = .next t → BufferValid t

/-- Every step keeps the engine one of the six variants (30_encoding.md R98), an unconstructed one in the
configuration of reset, and the four constants in their slots (43_stream_engine.md R228). -/
def Obligations.StepKeepsVariantAndConstants : Prop :=
  ∀ (s t : State), ConfigLegal s → ConstantsInPlace s → step s = .next t →
    ConfigLegal t ∧ ConstantsInPlace t

/-- Every step keeps `ERR` from ever holding Faulted, and at CounterExhausted while `FAULT = 1`
(10_state.md R34; 60_exceptions.md R306, R307). -/
def Obligations.StepKeepsErrorLatch : Prop :=
  ∀ (s t : State), ErrorLatchLegal s → step s = .next t → ErrorLatchLegal t

/-- The reset state meets every invariant, and RDSTAT would answer 0 (10_state.md R40). The first clause is
the model's choice, not the spec's: that reset lists no byte of the data space is log entry 1 (DESIGN CHOICE). -/
def Obligations.ResetMeetsTheInvariants : Prop :=
  State.reset.mem.wf = true ∧ BufferValid State.reset ∧ ConfigLegal State.reset
    ∧ ConstantsInPlace State.reset ∧ ErrorLatchLegal State.reset ∧ State.reset.statusWord = 0
end

