-- ==== Sys2Proof/Laws/Bytes.lean ====
section
/-! SUPPORT. Words as bytes and bytes as words: the packing of packets and responses (30_encoding.md R91)
against the byte order of the core (20_memory.md R62, R63). -/

namespace Sys2Proof.Machine

/-! ### One word -/

theorem packWord_bytes (w : Word) :
    packetWord (byteOf w 0) (byteOf w 1) (byteOf w 2) (byteOf w 3) = w := by
  apply BitVec.eq_of_getLsbD_eq
  intro i hi
  simp only [packetWord, byteOf, BitVec.getLsbD_append, BitVec.getLsbD_extractLsb']
  rcases Nat.lt_or_ge i 8 with h | h
  · simp [h]
  · rcases Nat.lt_or_ge i 16 with h1 | h1
    · have : ¬ i < 8 := by omega
      have e : i - 8 < 8 := by omega
      have e2 : 8 + (i - 8) = i := by omega
      simp [this, e, e2]
    · rcases Nat.lt_or_ge i 24 with h2 | h2
      · have a1 : ¬ i < 8 := by omega
        have a2 : ¬ i - 8 < 8 := by omega
        have e : i - 8 - 8 < 8 := by omega
        have e2 : 16 + (i - 8 - 8) = i := by omega
        simp [a1, a2, e, e2]
      · have a1 : ¬ i < 8 := by omega
        have a2 : ¬ i - 8 < 8 := by omega
        have a3 : ¬ i - 8 - 8 < 8 := by omega
        have e : i - 8 - 8 - 8 < 8 := by omega
        have e2 : 24 + (i - 8 - 8 - 8) = i := by omega
        simp [a1, a2, a3, e, e2]

theorem packetByte_packetWord (b0 b1 b2 b3 : Byte) :
    packetByte (packetWord b0 b1 b2 b3) 0 = b0 ∧ packetByte (packetWord b0 b1 b2 b3) 1 = b1 ∧
    packetByte (packetWord b0 b1 b2 b3) 2 = b2 ∧ packetByte (packetWord b0 b1 b2 b3) 3 = b3 := by
  refine ⟨?_, ?_, ?_, ?_⟩ <;> apply BitVec.eq_of_getLsbD_eq <;> intro i hi <;>
    simp only [packetWord, packetByte, BitVec.getLsbD_append, BitVec.getLsbD_extractLsb', hi,
      decide_true, Bool.true_and] <;> grind

/-- The two byte orders agree (20_memory.md R63): a packed key word is the state word. -/
theorem le32_eq_packetWord (b0 b1 b2 b3 : Byte) : le32 b0 b1 b2 b3 = packetWord b0 b1 b2 b3 := rfl

theorem le32_bytes (w : Word) : le32 (byteOf w 0) (byteOf w 1) (byteOf w 2) (byteOf w 3) = w :=
  packWord_bytes w

/-! ### Byte strings -/

@[simp] theorem packBytes_length (bs : List Byte) : (packBytes bs).length = wordsFor bs.length := by
  simp [packBytes]

@[simp] theorem packBytes_nil : packBytes [] = [] := rfl

/-- Four bytes at a time. -/
theorem packBytes_cons4 (b0 b1 b2 b3 : Byte) (bs : List Byte) :
    packBytes (b0 :: b1 :: b2 :: b3 :: bs) = packetWord b0 b1 b2 b3 :: packBytes bs := by
  have h : wordsFor (b0 :: b1 :: b2 :: b3 :: bs).length = wordsFor bs.length + 1 := by
    simp [wordsFor]; omega
  have shift (i k : Nat) : (b0 :: b1 :: b2 :: b3 :: bs).getD (4 * (i + 1) + k) 0
      = bs.getD (4 * i + k) 0 := by
    rw [show 4 * (i + 1) + k = 4 * i + k + 1 + 1 + 1 + 1 by omega]
    simp only [List.getD_cons_succ]
  unfold packBytes
  rw [h, List.range_succ_eq_map, List.map_cons, List.map_map]
  refine congrArg₂ List.cons rfl (List.map_congr_left fun i _ => ?_)
  have s0 := shift i 0
  simp only [Nat.add_zero] at s0
  simp only [Function.comp_apply, Nat.succ_eq_add_one, shift, s0]

/-- The bytes of words pack into the words. -/
@[simp] theorem packBytes_flatMap_bytesLE (ws : List Word) : packBytes (ws.flatMap bytesLE) = ws := by
  induction ws with
  | nil => rfl
  | cons w ws ih =>
    simp only [List.flatMap_cons, bytesLE, List.cons_append, List.nil_append]
    rw [packBytes_cons4, packWord_bytes, ih]

theorem packBytes_bytesLE (w : Word) : packBytes (bytesLE w) = [w] := by
  simpa using packBytes_flatMap_bytesLE [w]

/-- A string of whole words packs before what follows it. -/
theorem packBytes_append (ws : List Word) (bs : List Byte) :
    packBytes (ws.flatMap bytesLE ++ bs) = ws ++ packBytes bs := by
  induction ws with
  | nil => rfl
  | cons w ws ih =>
    simp only [List.flatMap_cons, bytesLE, List.cons_append, List.nil_append]
    rw [packBytes_cons4, packWord_bytes, ih]

@[simp] theorem length_flatMap_bytesLE (ws : List Word) : (ws.flatMap bytesLE).length = 4 * ws.length := by
  induction ws with
  | nil => rfl
  | cons w ws ih => simp [bytesLE, ih]; omega

/-- `ser(X)` is the bytes of its sixteen words in order (00_scope.md R12). -/
theorem ser_toList (x : Words) : (ser x).toList = x.toList.flatMap bytesLE := by
  obtain ⟨⟨l⟩, h⟩ := x
  simp only [List.size_toArray] at h
  match l, h with
  | [a, b, c, d, e, f, g, i, j, k, m, n, o, p, q, r], _ =>
    simp [ser, bytesLE, Vector.toList_ofFn, List.ofFn_succ]

/-- The payload of a block of words is the words themselves (30_encoding.md R105). -/
@[simp] theorem packBytes_ser (x : Words) : packBytes (ser x).toList = x.toList := by
  rw [ser_toList, packBytes_flatMap_bytesLE]

/-- Word `i` of the bytes of words is word `i` (00_scope.md R12 `words_le`). -/
theorem wordLE_flatMap_bytesLE (ws : List Word) (i : Nat) (h : i < ws.length) :
    wordLE (ws.flatMap bytesLE) i = ws[i] := by
  induction ws generalizing i with
  | nil => simp at h
  | cons w ws ih =>
    cases i with
    | zero => exact le32_bytes w
    | succ i =>
      have h' : i < ws.length := by simpa using h
      rw [List.getElem_cons_succ, ← ih i h']
      have shift (k : Nat) : (bytesLE w ++ ws.flatMap bytesLE).getD (4 * (i + 1) + k) 0
          = (ws.flatMap bytesLE).getD (4 * i + k) 0 := by
        rw [show 4 * (i + 1) + k = 4 * i + k + 1 + 1 + 1 + 1 by omega]
        simp only [bytesLE, List.cons_append, List.nil_append, List.getD_cons_succ]
      have s0 := shift 0
      simp only [Nat.add_zero] at s0
      simp only [wordLE, List.flatMap_cons, shift, s0]

/-! ### Numbers -/

@[simp] theorem natBytes_length (n v : Nat) : (natBytes n v).length = n := by
  induction n generalizing v with
  | zero => rfl
  | succ n ih => simp [natBytes, ih]

/-- The first four bytes of a number are its low word. -/
theorem natBytes_add4 (n v : Nat) :
    natBytes (n + 4) v = bytesLE (BitVec.ofNat 32 v) ++ natBytes n (v / 2 ^ 32) := by
  have byte (k : Nat) (hk : k < 4) :
      byteOf (BitVec.ofNat 32 v) k = BitVec.ofNat 8 (v / 2 ^ (8 * k)) := by
    apply BitVec.eq_of_toNat_eq
    simp only [byteOf, BitVec.extractLsb'_toNat, BitVec.toNat_ofNat, Nat.shiftRight_eq_div_pow]
    rcases k with _ | _ | _ | _ | k <;> omega
  simp only [natBytes, bytesLE, List.cons_append, List.nil_append, byte 0 (by decide),
    byte 1 (by decide), byte 2 (by decide), byte 3 (by decide), Nat.div_div_eq_div_mul]
  simp

/-- A 128-bit result is its four words, lowest first (30_encoding.md R92, R105). -/
theorem packBytes_natBytes16 (v : Nat) :
    packBytes (natBytes 16 v) = [BitVec.ofNat 32 v, BitVec.ofNat 32 (v / 2 ^ 32),
      BitVec.ofNat 32 (v / 2 ^ 64), BitVec.ofNat 32 (v / 2 ^ 96)] := by
  rw [natBytes_add4 12, natBytes_add4 8, natBytes_add4 4, natBytes_add4 0]
  simp only [Nat.div_div_eq_div_mul, ← Nat.pow_add, natBytes, List.append_nil]
  have := packBytes_flatMap_bytesLE [BitVec.ofNat 32 v, BitVec.ofNat 32 (v / 2 ^ 32),
      BitVec.ofNat 32 (v / 2 ^ 64), BitVec.ofNat 32 (v / 2 ^ 96)]
  simpa using this

theorem packBytes_natBytes4 (v : Nat) : packBytes (natBytes 4 v) = [BitVec.ofNat 32 v] := by
  rw [natBytes_add4 0]
  simpa [natBytes] using packBytes_bytesLE (BitVec.ofNat 32 v)

/-! ### Response headers (30_encoding.md R105) -/

/-- A refusal's header is the bare code. -/
theorem responseHeader_refusal (e : Status) : responseHeader e 0 = (statusCode e).setWidth 32 := by
  cases e <;> decide

/-- An OK header is `RLEN` in bits 31:8. -/
theorem responseHeader_ok (n : Nat) (h : n < 2 ^ 24) :
    responseHeader .ok n = BitVec.ofNat 32 (256 * n) := by
  apply BitVec.eq_of_toNat_eq
  simp only [responseHeader, statusCode, BitVec.toNat_append, BitVec.toNat_ofNat]
  have h1 : n % 2 ^ 24 = n := Nat.mod_eq_of_lt h
  rw [h1, Nat.shiftLeft_eq]
  simp
  omega

/-- The status byte of a header. -/
theorem responseHeader_status (e : Status) (n : Nat) :
    (responseHeader e n).setWidth 8 = statusCode e := by
  apply BitVec.eq_of_getLsbD_eq
  intro i hi
  rw [BitVec.getLsbD_setWidth, responseHeader, BitVec.getLsbD_append]
  simp [hi]

end Sys2Proof.Machine
end

