-- ==== Sys2Proof/Laws/State.lean ====
section
/-! SUPPORT. What each update of the state leaves alone, one lemma per field, and the value of each field
it writes, for the simp set, so that no later proof unfolds a record update. -/

namespace Sys2Proof.Machine

section
variable (s : State)


/-! ### `setCtr`: the counter words -/

@[simp] theorem State.setCtr_words (v : Nat) : (s.setCtr v).words = withCounter s.fam s.width v s.words := rfl
@[simp] theorem State.setCtr_buf (v : Nat) : (s.setCtr v).buf = s.buf := rfl
@[simp] theorem State.setCtr_off (v : Nat) : (s.setCtr v).off = s.off := rfl
@[simp] theorem State.setCtr_fam (v : Nat) : (s.setCtr v).fam = s.fam := rfl
@[simp] theorem State.setCtr_pol (v : Nat) : (s.setCtr v).pol = s.pol := rfl
@[simp] theorem State.setCtr_rnd (v : Nat) : (s.setCtr v).rnd = s.rnd := rfl
@[simp] theorem State.setCtr_backend (v : Nat) : (s.setCtr v).backend = s.backend := rfl
@[simp] theorem State.setCtr_inited (v : Nat) : (s.setCtr v).inited = s.inited := rfl
@[simp] theorem State.setCtr_fault (v : Nat) : (s.setCtr v).fault = s.fault := rfl
@[simp] theorem State.setCtr_err (v : Nat) : (s.setCtr v).err = s.err := rfl
@[simp] theorem State.setCtr_mem (v : Nat) : (s.setCtr v).mem = s.mem := rfl
@[simp] theorem State.setCtr_caps (v : Nat) : (s.setCtr v).caps = s.caps := rfl
@[simp] theorem State.setCtr_rst (v : Nat) : (s.setCtr v).rst = s.rst := rfl
@[simp] theorem State.setCtr_cmd (v : Nat) : (s.setCtr v).cmd = s.cmd := rfl
@[simp] theorem State.setCtr_resp (v : Nat) : (s.setCtr v).resp = s.resp := rfl

/-! ### `advance`: the counter words -/

@[simp] theorem State.advance_words : s.advance.words = withCounter s.fam s.width (s.ctr + 1) s.words := rfl
@[simp] theorem State.advance_buf : s.advance.buf = s.buf := rfl
@[simp] theorem State.advance_off : s.advance.off = s.off := rfl
@[simp] theorem State.advance_fam : s.advance.fam = s.fam := rfl
@[simp] theorem State.advance_pol : s.advance.pol = s.pol := rfl
@[simp] theorem State.advance_rnd : s.advance.rnd = s.rnd := rfl
@[simp] theorem State.advance_backend : s.advance.backend = s.backend := rfl
@[simp] theorem State.advance_inited : s.advance.inited = s.inited := rfl
@[simp] theorem State.advance_fault : s.advance.fault = s.fault := rfl
@[simp] theorem State.advance_err : s.advance.err = s.err := rfl
@[simp] theorem State.advance_mem : s.advance.mem = s.mem := rfl
@[simp] theorem State.advance_caps : s.advance.caps = s.caps := rfl
@[simp] theorem State.advance_rst : s.advance.rst = s.rst := rfl
@[simp] theorem State.advance_cmd : s.advance.cmd = s.cmd := rfl
@[simp] theorem State.advance_resp : s.advance.resp = s.resp := rfl

/-! ### `fillBuf`: the counter words and `BUF` -/

@[simp] theorem State.fillBuf_words : s.fillBuf.words = withCounter s.fam s.width (s.ctr + 1) s.words := rfl
@[simp] theorem State.fillBuf_buf : s.fillBuf.buf = s.block := rfl
@[simp] theorem State.fillBuf_off : s.fillBuf.off = s.off := rfl
@[simp] theorem State.fillBuf_fam : s.fillBuf.fam = s.fam := rfl
@[simp] theorem State.fillBuf_pol : s.fillBuf.pol = s.pol := rfl
@[simp] theorem State.fillBuf_rnd : s.fillBuf.rnd = s.rnd := rfl
@[simp] theorem State.fillBuf_backend : s.fillBuf.backend = s.backend := rfl
@[simp] theorem State.fillBuf_inited : s.fillBuf.inited = s.inited := rfl
@[simp] theorem State.fillBuf_fault : s.fillBuf.fault = s.fault := rfl
@[simp] theorem State.fillBuf_err : s.fillBuf.err = s.err := rfl
@[simp] theorem State.fillBuf_mem : s.fillBuf.mem = s.mem := rfl
@[simp] theorem State.fillBuf_caps : s.fillBuf.caps = s.caps := rfl
@[simp] theorem State.fillBuf_rst : s.fillBuf.rst = s.rst := rfl
@[simp] theorem State.fillBuf_cmd : s.fillBuf.cmd = s.cmd := rfl
@[simp] theorem State.fillBuf_resp : s.fillBuf.resp = s.resp := rfl

/-! ### `respond`: the response -/

@[simp] theorem State.respond_words (p : List Byte) : (s.respond p).words = s.words := rfl
@[simp] theorem State.respond_buf (p : List Byte) : (s.respond p).buf = s.buf := rfl
@[simp] theorem State.respond_off (p : List Byte) : (s.respond p).off = s.off := rfl
@[simp] theorem State.respond_fam (p : List Byte) : (s.respond p).fam = s.fam := rfl
@[simp] theorem State.respond_pol (p : List Byte) : (s.respond p).pol = s.pol := rfl
@[simp] theorem State.respond_rnd (p : List Byte) : (s.respond p).rnd = s.rnd := rfl
@[simp] theorem State.respond_backend (p : List Byte) : (s.respond p).backend = s.backend := rfl
@[simp] theorem State.respond_inited (p : List Byte) : (s.respond p).inited = s.inited := rfl
@[simp] theorem State.respond_fault (p : List Byte) : (s.respond p).fault = s.fault := rfl
@[simp] theorem State.respond_err (p : List Byte) : (s.respond p).err = s.err := rfl
@[simp] theorem State.respond_mem (p : List Byte) : (s.respond p).mem = s.mem := rfl
@[simp] theorem State.respond_caps (p : List Byte) : (s.respond p).caps = s.caps := rfl
@[simp] theorem State.respond_rst (p : List Byte) : (s.respond p).rst = s.rst := rfl
@[simp] theorem State.respond_cmd (p : List Byte) : (s.respond p).cmd = s.cmd := rfl
@[simp] theorem State.respond_resp (p : List Byte) : (s.respond p).resp = responseHeader .ok p.length :: packBytes p := rfl

/-! ### `takeError`: `FAULT`, `ERR`, the response -/

@[simp] theorem State.takeError_words (b : Bool) (e : Status) : (s.takeError b e).words = s.words := rfl
@[simp] theorem State.takeError_buf (b : Bool) (e : Status) : (s.takeError b e).buf = s.buf := rfl
@[simp] theorem State.takeError_off (b : Bool) (e : Status) : (s.takeError b e).off = s.off := rfl
@[simp] theorem State.takeError_fam (b : Bool) (e : Status) : (s.takeError b e).fam = s.fam := rfl
@[simp] theorem State.takeError_pol (b : Bool) (e : Status) : (s.takeError b e).pol = s.pol := rfl
@[simp] theorem State.takeError_rnd (b : Bool) (e : Status) : (s.takeError b e).rnd = s.rnd := rfl
@[simp] theorem State.takeError_backend (b : Bool) (e : Status) : (s.takeError b e).backend = s.backend := rfl
@[simp] theorem State.takeError_inited (b : Bool) (e : Status) : (s.takeError b e).inited = s.inited := rfl
@[simp] theorem State.takeError_fault (b : Bool) (e : Status) : (s.takeError b e).fault = (s.fault || b) := rfl
@[simp] theorem State.takeError_err (b : Bool) (e : Status) : (s.takeError b e).err = if s.fault then s.err else e := rfl
@[simp] theorem State.takeError_mem (b : Bool) (e : Status) : (s.takeError b e).mem = s.mem := rfl
@[simp] theorem State.takeError_caps (b : Bool) (e : Status) : (s.takeError b e).caps = s.caps := rfl
@[simp] theorem State.takeError_rst (b : Bool) (e : Status) : (s.takeError b e).rst = s.rst := rfl
@[simp] theorem State.takeError_cmd (b : Bool) (e : Status) : (s.takeError b e).cmd = s.cmd := rfl
@[simp] theorem State.takeError_resp (b : Bool) (e : Status) : (s.takeError b e).resp = [responseHeader e 0] := rfl

/-! ### `raise`: `ERR`, the response -/

@[simp] theorem State.raise_words (e : Status) : (s.raise e).words = s.words := rfl
@[simp] theorem State.raise_buf (e : Status) : (s.raise e).buf = s.buf := rfl
@[simp] theorem State.raise_off (e : Status) : (s.raise e).off = s.off := rfl
@[simp] theorem State.raise_fam (e : Status) : (s.raise e).fam = s.fam := rfl
@[simp] theorem State.raise_pol (e : Status) : (s.raise e).pol = s.pol := rfl
@[simp] theorem State.raise_rnd (e : Status) : (s.raise e).rnd = s.rnd := rfl
@[simp] theorem State.raise_backend (e : Status) : (s.raise e).backend = s.backend := rfl
@[simp] theorem State.raise_inited (e : Status) : (s.raise e).inited = s.inited := rfl
@[simp] theorem State.raise_fault (e : Status) : (s.raise e).fault = s.fault := Bool.or_false s.fault
@[simp] theorem State.raise_err (e : Status) : (s.raise e).err = if s.fault then s.err else e := rfl
@[simp] theorem State.raise_mem (e : Status) : (s.raise e).mem = s.mem := rfl
@[simp] theorem State.raise_caps (e : Status) : (s.raise e).caps = s.caps := rfl
@[simp] theorem State.raise_rst (e : Status) : (s.raise e).rst = s.rst := rfl
@[simp] theorem State.raise_cmd (e : Status) : (s.raise e).cmd = s.cmd := rfl
@[simp] theorem State.raise_resp (e : Status) : (s.raise e).resp = [responseHeader e 0] := rfl

/-! ### `raiseFault`: `FAULT`, `ERR`, the response -/

@[simp] theorem State.raiseFault_words (e : Status) : (s.raiseFault e).words = s.words := rfl
@[simp] theorem State.raiseFault_buf (e : Status) : (s.raiseFault e).buf = s.buf := rfl
@[simp] theorem State.raiseFault_off (e : Status) : (s.raiseFault e).off = s.off := rfl
@[simp] theorem State.raiseFault_fam (e : Status) : (s.raiseFault e).fam = s.fam := rfl
@[simp] theorem State.raiseFault_pol (e : Status) : (s.raiseFault e).pol = s.pol := rfl
@[simp] theorem State.raiseFault_rnd (e : Status) : (s.raiseFault e).rnd = s.rnd := rfl
@[simp] theorem State.raiseFault_backend (e : Status) : (s.raiseFault e).backend = s.backend := rfl
@[simp] theorem State.raiseFault_inited (e : Status) : (s.raiseFault e).inited = s.inited := rfl
@[simp] theorem State.raiseFault_fault (e : Status) : (s.raiseFault e).fault = true := Bool.or_true s.fault
@[simp] theorem State.raiseFault_err (e : Status) : (s.raiseFault e).err = if s.fault then s.err else e := rfl
@[simp] theorem State.raiseFault_mem (e : Status) : (s.raiseFault e).mem = s.mem := rfl
@[simp] theorem State.raiseFault_caps (e : Status) : (s.raiseFault e).caps = s.caps := rfl
@[simp] theorem State.raiseFault_rst (e : Status) : (s.raiseFault e).rst = s.rst := rfl
@[simp] theorem State.raiseFault_cmd (e : Status) : (s.raiseFault e).cmd = s.cmd := rfl
@[simp] theorem State.raiseFault_resp (e : Status) : (s.raiseFault e).resp = [responseHeader e 0] := rfl

/-! ### `consume`: the command port -/

@[simp] theorem State.consume_words (r : List Word) : (s.consume r).words = s.words := rfl
@[simp] theorem State.consume_buf (r : List Word) : (s.consume r).buf = s.buf := rfl
@[simp] theorem State.consume_off (r : List Word) : (s.consume r).off = s.off := rfl
@[simp] theorem State.consume_fam (r : List Word) : (s.consume r).fam = s.fam := rfl
@[simp] theorem State.consume_pol (r : List Word) : (s.consume r).pol = s.pol := rfl
@[simp] theorem State.consume_rnd (r : List Word) : (s.consume r).rnd = s.rnd := rfl
@[simp] theorem State.consume_backend (r : List Word) : (s.consume r).backend = s.backend := rfl
@[simp] theorem State.consume_inited (r : List Word) : (s.consume r).inited = s.inited := rfl
@[simp] theorem State.consume_fault (r : List Word) : (s.consume r).fault = s.fault := rfl
@[simp] theorem State.consume_err (r : List Word) : (s.consume r).err = s.err := rfl
@[simp] theorem State.consume_mem (r : List Word) : (s.consume r).mem = s.mem := rfl
@[simp] theorem State.consume_caps (r : List Word) : (s.consume r).caps = s.caps := rfl
@[simp] theorem State.consume_rst (r : List Word) : (s.consume r).rst = s.rst := rfl
@[simp] theorem State.consume_cmd (r : List Word) : (s.consume r).cmd = r := rfl
@[simp] theorem State.consume_resp (r : List Word) : (s.consume r).resp = s.resp := rfl

/-! ### `drain`: the data and `OFF` -/

@[simp] theorem State.drain_words (op : DataOp) (a t : Nat) : (s.drain op a t).words = s.words := rfl
@[simp] theorem State.drain_buf (op : DataOp) (a t : Nat) : (s.drain op a t).buf = s.buf := rfl
@[simp] theorem State.drain_off (op : DataOp) (a t : Nat) : (s.drain op a t).off = BitVec.ofNat 6 (s.off.toNat + t) := rfl
@[simp] theorem State.drain_fam (op : DataOp) (a t : Nat) : (s.drain op a t).fam = s.fam := rfl
@[simp] theorem State.drain_pol (op : DataOp) (a t : Nat) : (s.drain op a t).pol = s.pol := rfl
@[simp] theorem State.drain_rnd (op : DataOp) (a t : Nat) : (s.drain op a t).rnd = s.rnd := rfl
@[simp] theorem State.drain_backend (op : DataOp) (a t : Nat) : (s.drain op a t).backend = s.backend := rfl
@[simp] theorem State.drain_inited (op : DataOp) (a t : Nat) : (s.drain op a t).inited = s.inited := rfl
@[simp] theorem State.drain_fault (op : DataOp) (a t : Nat) : (s.drain op a t).fault = s.fault := rfl
@[simp] theorem State.drain_err (op : DataOp) (a t : Nat) : (s.drain op a t).err = s.err := rfl
@[simp] theorem State.drain_mem (op : DataOp) (a t : Nat) : (s.drain op a t).mem = streamBytes op s.mem a ((s.buf.toList.drop s.off.toNat).take t) := rfl
@[simp] theorem State.drain_caps (op : DataOp) (a t : Nat) : (s.drain op a t).caps = s.caps := rfl
@[simp] theorem State.drain_rst (op : DataOp) (a t : Nat) : (s.drain op a t).rst = s.rst := rfl
@[simp] theorem State.drain_cmd (op : DataOp) (a t : Nat) : (s.drain op a t).cmd = s.cmd := rfl
@[simp] theorem State.drain_resp (op : DataOp) (a t : Nat) : (s.drain op a t).resp = s.resp := rfl

/-! ### `construct`: the engine -/

@[simp] theorem State.construct_words (fam : Family) (pol : Policy) (rnd : Rounds) (b : Backend) (k n : List Byte) : (s.construct fam pol rnd b k n).words = initialWords fam pol (roundCount rnd) k n := rfl
@[simp] theorem State.construct_buf (fam : Family) (pol : Policy) (rnd : Rounds) (b : Backend) (k n : List Byte) : (s.construct fam pol rnd b k n).buf = s.buf := rfl
@[simp] theorem State.construct_off (fam : Family) (pol : Policy) (rnd : Rounds) (b : Backend) (k n : List Byte) : (s.construct fam pol rnd b k n).off = 0 := rfl
@[simp] theorem State.construct_fam (fam : Family) (pol : Policy) (rnd : Rounds) (b : Backend) (k n : List Byte) : (s.construct fam pol rnd b k n).fam = fam := rfl
@[simp] theorem State.construct_pol (fam : Family) (pol : Policy) (rnd : Rounds) (b : Backend) (k n : List Byte) : (s.construct fam pol rnd b k n).pol = pol := rfl
@[simp] theorem State.construct_rnd (fam : Family) (pol : Policy) (rnd : Rounds) (b : Backend) (k n : List Byte) : (s.construct fam pol rnd b k n).rnd = rnd := rfl
@[simp] theorem State.construct_backend (fam : Family) (pol : Policy) (rnd : Rounds) (b : Backend) (k n : List Byte) : (s.construct fam pol rnd b k n).backend = b := rfl
@[simp] theorem State.construct_inited (fam : Family) (pol : Policy) (rnd : Rounds) (b : Backend) (k n : List Byte) : (s.construct fam pol rnd b k n).inited = true := rfl
@[simp] theorem State.construct_fault (fam : Family) (pol : Policy) (rnd : Rounds) (b : Backend) (k n : List Byte) : (s.construct fam pol rnd b k n).fault = s.fault := rfl
@[simp] theorem State.construct_err (fam : Family) (pol : Policy) (rnd : Rounds) (b : Backend) (k n : List Byte) : (s.construct fam pol rnd b k n).err = .ok := rfl
@[simp] theorem State.construct_mem (fam : Family) (pol : Policy) (rnd : Rounds) (b : Backend) (k n : List Byte) : (s.construct fam pol rnd b k n).mem = s.mem := rfl
@[simp] theorem State.construct_caps (fam : Family) (pol : Policy) (rnd : Rounds) (b : Backend) (k n : List Byte) : (s.construct fam pol rnd b k n).caps = s.caps := rfl
@[simp] theorem State.construct_rst (fam : Family) (pol : Policy) (rnd : Rounds) (b : Backend) (k n : List Byte) : (s.construct fam pol rnd b k n).rst = s.rst := rfl
@[simp] theorem State.construct_cmd (fam : Family) (pol : Policy) (rnd : Rounds) (b : Backend) (k n : List Byte) : (s.construct fam pol rnd b k n).cmd = s.cmd := rfl
@[simp] theorem State.construct_resp (fam : Family) (pol : Policy) (rnd : Rounds) (b : Backend) (k n : List Byte) : (s.construct fam pol rnd b k n).resp = s.resp := rfl

/-! ### `zeroized`: the engine but `FAULT` and `ERR` -/

@[simp] theorem State.zeroized_words : s.zeroized.words = Vector.replicate 16 0 := rfl
@[simp] theorem State.zeroized_buf : s.zeroized.buf = Vector.replicate 64 0 := rfl
@[simp] theorem State.zeroized_off : s.zeroized.off = 0 := rfl
@[simp] theorem State.zeroized_fam : s.zeroized.fam = .chacha := rfl
@[simp] theorem State.zeroized_pol : s.zeroized.pol = .standard := rfl
@[simp] theorem State.zeroized_rnd : s.zeroized.rnd = .r8 := rfl
@[simp] theorem State.zeroized_backend : s.zeroized.backend = .soft := rfl
@[simp] theorem State.zeroized_inited : s.zeroized.inited = false := rfl
@[simp] theorem State.zeroized_fault : s.zeroized.fault = s.fault := rfl
@[simp] theorem State.zeroized_err : s.zeroized.err = s.err := rfl
@[simp] theorem State.zeroized_mem : s.zeroized.mem = s.mem := rfl
@[simp] theorem State.zeroized_caps : s.zeroized.caps = s.caps := rfl
@[simp] theorem State.zeroized_rst : s.zeroized.rst = s.rst := rfl
@[simp] theorem State.zeroized_cmd : s.zeroized.cmd = s.cmd := rfl
@[simp] theorem State.zeroized_resp : s.zeroized.resp = s.resp := rfl

/-! ### `resetEngine`: the instance -/

@[simp] theorem State.resetEngine_words : s.resetEngine.words = Vector.replicate 16 Config.resetWord := rfl
@[simp] theorem State.resetEngine_buf : s.resetEngine.buf = Vector.replicate 64 Config.resetByte := rfl
@[simp] theorem State.resetEngine_off : s.resetEngine.off = 0 := rfl
@[simp] theorem State.resetEngine_fam : s.resetEngine.fam = .chacha := rfl
@[simp] theorem State.resetEngine_pol : s.resetEngine.pol = .standard := rfl
@[simp] theorem State.resetEngine_rnd : s.resetEngine.rnd = .r8 := rfl
@[simp] theorem State.resetEngine_backend : s.resetEngine.backend = .soft := rfl
@[simp] theorem State.resetEngine_inited : s.resetEngine.inited = false := rfl
@[simp] theorem State.resetEngine_fault : s.resetEngine.fault = false := rfl
@[simp] theorem State.resetEngine_err : s.resetEngine.err = .ok := rfl
@[simp] theorem State.resetEngine_mem : s.resetEngine.mem = s.mem := rfl
@[simp] theorem State.resetEngine_caps : s.resetEngine.caps = s.caps := rfl
@[simp] theorem State.resetEngine_rst : s.resetEngine.rst = false := rfl
@[simp] theorem State.resetEngine_cmd : s.resetEngine.cmd = s.cmd := rfl
@[simp] theorem State.resetEngine_resp : s.resetEngine.resp = [] := rfl

/-! ### `setStream`: the stream words -/

@[simp] theorem State.setStream_words (i0 i1 i2 : Word) : (s.setStream i0 i1 i2).words = ((s.words.set 13 i0).set 14 i1).set 15 i2 := rfl
@[simp] theorem State.setStream_buf (i0 i1 i2 : Word) : (s.setStream i0 i1 i2).buf = s.buf := rfl
@[simp] theorem State.setStream_off (i0 i1 i2 : Word) : (s.setStream i0 i1 i2).off = s.off := rfl
@[simp] theorem State.setStream_fam (i0 i1 i2 : Word) : (s.setStream i0 i1 i2).fam = s.fam := rfl
@[simp] theorem State.setStream_pol (i0 i1 i2 : Word) : (s.setStream i0 i1 i2).pol = s.pol := rfl
@[simp] theorem State.setStream_rnd (i0 i1 i2 : Word) : (s.setStream i0 i1 i2).rnd = s.rnd := rfl
@[simp] theorem State.setStream_backend (i0 i1 i2 : Word) : (s.setStream i0 i1 i2).backend = s.backend := rfl
@[simp] theorem State.setStream_inited (i0 i1 i2 : Word) : (s.setStream i0 i1 i2).inited = s.inited := rfl
@[simp] theorem State.setStream_fault (i0 i1 i2 : Word) : (s.setStream i0 i1 i2).fault = s.fault := rfl
@[simp] theorem State.setStream_err (i0 i1 i2 : Word) : (s.setStream i0 i1 i2).err = s.err := rfl
@[simp] theorem State.setStream_mem (i0 i1 i2 : Word) : (s.setStream i0 i1 i2).mem = s.mem := rfl
@[simp] theorem State.setStream_caps (i0 i1 i2 : Word) : (s.setStream i0 i1 i2).caps = s.caps := rfl
@[simp] theorem State.setStream_rst (i0 i1 i2 : Word) : (s.setStream i0 i1 i2).rst = s.rst := rfl
@[simp] theorem State.setStream_cmd (i0 i1 i2 : Word) : (s.setStream i0 i1 i2).cmd = s.cmd := rfl
@[simp] theorem State.setStream_resp (i0 i1 i2 : Word) : (s.setStream i0 i1 i2).resp = s.resp := rfl

/-! ### `moveTo`: the counter words, `BUF`, `OFF` -/

@[simp] theorem State.moveTo_fam (b r : Nat) : (s.moveTo b r).fam = s.fam := by
  unfold State.moveTo; split <;> rfl
@[simp] theorem State.moveTo_pol (b r : Nat) : (s.moveTo b r).pol = s.pol := by
  unfold State.moveTo; split <;> rfl
@[simp] theorem State.moveTo_rnd (b r : Nat) : (s.moveTo b r).rnd = s.rnd := by
  unfold State.moveTo; split <;> rfl
@[simp] theorem State.moveTo_backend (b r : Nat) : (s.moveTo b r).backend = s.backend := by
  unfold State.moveTo; split <;> rfl
@[simp] theorem State.moveTo_inited (b r : Nat) : (s.moveTo b r).inited = s.inited := by
  unfold State.moveTo; split <;> rfl
@[simp] theorem State.moveTo_fault (b r : Nat) : (s.moveTo b r).fault = s.fault := by
  unfold State.moveTo; split <;> rfl
@[simp] theorem State.moveTo_err (b r : Nat) : (s.moveTo b r).err = s.err := by
  unfold State.moveTo; split <;> rfl
@[simp] theorem State.moveTo_caps (b r : Nat) : (s.moveTo b r).caps = s.caps := by
  unfold State.moveTo; split <;> rfl
@[simp] theorem State.moveTo_rst (b r : Nat) : (s.moveTo b r).rst = s.rst := by
  unfold State.moveTo; split <;> rfl
@[simp] theorem State.moveTo_cmd (b r : Nat) : (s.moveTo b r).cmd = s.cmd := by
  unfold State.moveTo; split <;> rfl
@[simp] theorem State.moveTo_resp (b r : Nat) : (s.moveTo b r).resp = s.resp := by
  unfold State.moveTo; split <;> rfl
@[simp] theorem State.moveTo_mem (b r : Nat) : (s.moveTo b r).mem = s.mem := by
  unfold State.moveTo; split <;> rfl

/-! ### `lastPart`: the counter words, `BUF`, `OFF`, the data -/

@[simp] theorem State.lastPart_fam (op : DataOp) (a r : Nat) : (s.lastPart op a r).fam = s.fam := by
  unfold State.lastPart; split <;> rfl
@[simp] theorem State.lastPart_pol (op : DataOp) (a r : Nat) : (s.lastPart op a r).pol = s.pol := by
  unfold State.lastPart; split <;> rfl
@[simp] theorem State.lastPart_rnd (op : DataOp) (a r : Nat) : (s.lastPart op a r).rnd = s.rnd := by
  unfold State.lastPart; split <;> rfl
@[simp] theorem State.lastPart_backend (op : DataOp) (a r : Nat) : (s.lastPart op a r).backend = s.backend := by
  unfold State.lastPart; split <;> rfl
@[simp] theorem State.lastPart_inited (op : DataOp) (a r : Nat) : (s.lastPart op a r).inited = s.inited := by
  unfold State.lastPart; split <;> rfl
@[simp] theorem State.lastPart_fault (op : DataOp) (a r : Nat) : (s.lastPart op a r).fault = s.fault := by
  unfold State.lastPart; split <;> rfl
@[simp] theorem State.lastPart_err (op : DataOp) (a r : Nat) : (s.lastPart op a r).err = s.err := by
  unfold State.lastPart; split <;> rfl
@[simp] theorem State.lastPart_caps (op : DataOp) (a r : Nat) : (s.lastPart op a r).caps = s.caps := by
  unfold State.lastPart; split <;> rfl
@[simp] theorem State.lastPart_rst (op : DataOp) (a r : Nat) : (s.lastPart op a r).rst = s.rst := by
  unfold State.lastPart; split <;> rfl
@[simp] theorem State.lastPart_cmd (op : DataOp) (a r : Nat) : (s.lastPart op a r).cmd = s.cmd := by
  unfold State.lastPart; split <;> rfl
@[simp] theorem State.lastPart_resp (op : DataOp) (a r : Nat) : (s.lastPart op a r).resp = s.resp := by
  unfold State.lastPart; split <;> rfl

/-! ### `setWordPos`: as `moveTo` -/

@[simp] theorem State.setWordPos_fam (v : QWord) : (s.setWordPos v).fam = s.fam := by
  simp [State.setWordPos]
@[simp] theorem State.setWordPos_pol (v : QWord) : (s.setWordPos v).pol = s.pol := by
  simp [State.setWordPos]
@[simp] theorem State.setWordPos_rnd (v : QWord) : (s.setWordPos v).rnd = s.rnd := by
  simp [State.setWordPos]
@[simp] theorem State.setWordPos_backend (v : QWord) : (s.setWordPos v).backend = s.backend := by
  simp [State.setWordPos]
@[simp] theorem State.setWordPos_inited (v : QWord) : (s.setWordPos v).inited = s.inited := by
  simp [State.setWordPos]
@[simp] theorem State.setWordPos_fault (v : QWord) : (s.setWordPos v).fault = s.fault := by
  simp [State.setWordPos]
@[simp] theorem State.setWordPos_err (v : QWord) : (s.setWordPos v).err = s.err := by
  simp [State.setWordPos]
@[simp] theorem State.setWordPos_caps (v : QWord) : (s.setWordPos v).caps = s.caps := by
  simp [State.setWordPos]
@[simp] theorem State.setWordPos_rst (v : QWord) : (s.setWordPos v).rst = s.rst := by
  simp [State.setWordPos]
@[simp] theorem State.setWordPos_cmd (v : QWord) : (s.setWordPos v).cmd = s.cmd := by
  simp [State.setWordPos]
@[simp] theorem State.setWordPos_resp (v : QWord) : (s.setWordPos v).resp = s.resp := by
  simp [State.setWordPos]
@[simp] theorem State.setWordPos_mem (v : QWord) : (s.setWordPos v).mem = s.mem := by
  simp [State.setWordPos]

/-! ### `switchStream`: the stream words and `BUF` -/

@[simp] theorem State.switchStream_fam (v : QWord) : (s.switchStream v).fam = s.fam := by
  simp only [State.switchStream]; split <;> simp
@[simp] theorem State.switchStream_pol (v : QWord) : (s.switchStream v).pol = s.pol := by
  simp only [State.switchStream]; split <;> simp
@[simp] theorem State.switchStream_rnd (v : QWord) : (s.switchStream v).rnd = s.rnd := by
  simp only [State.switchStream]; split <;> simp
@[simp] theorem State.switchStream_backend (v : QWord) : (s.switchStream v).backend = s.backend := by
  simp only [State.switchStream]; split <;> simp
@[simp] theorem State.switchStream_inited (v : QWord) : (s.switchStream v).inited = s.inited := by
  simp only [State.switchStream]; split <;> simp
@[simp] theorem State.switchStream_fault (v : QWord) : (s.switchStream v).fault = s.fault := by
  simp only [State.switchStream]; split <;> simp
@[simp] theorem State.switchStream_err (v : QWord) : (s.switchStream v).err = s.err := by
  simp only [State.switchStream]; split <;> simp
@[simp] theorem State.switchStream_caps (v : QWord) : (s.switchStream v).caps = s.caps := by
  simp only [State.switchStream]; split <;> simp
@[simp] theorem State.switchStream_rst (v : QWord) : (s.switchStream v).rst = s.rst := by
  simp only [State.switchStream]; split <;> simp
@[simp] theorem State.switchStream_cmd (v : QWord) : (s.switchStream v).cmd = s.cmd := by
  simp only [State.switchStream]; split <;> simp
@[simp] theorem State.switchStream_resp (v : QWord) : (s.switchStream v).resp = s.resp := by
  simp only [State.switchStream]; split <;> simp
@[simp] theorem State.switchStream_mem (v : QWord) : (s.switchStream v).mem = s.mem := by
  simp only [State.switchStream]; split <;> simp
@[simp] theorem State.switchStream_off (v : QWord) : (s.switchStream v).off = s.off := by
  simp only [State.switchStream]; split <;> simp

end


/-! ### `wholeBlocks`: the counter words and the data -/

@[simp] theorem State.wholeBlocks_fam (op : DataOp) (n a : Nat) (s : State) :
    (State.wholeBlocks op n a s).fam = s.fam := by
  induction n generalizing a s with
  | zero => rfl
  | succ n ih => simp [State.wholeBlocks, ih]
@[simp] theorem State.wholeBlocks_pol (op : DataOp) (n a : Nat) (s : State) :
    (State.wholeBlocks op n a s).pol = s.pol := by
  induction n generalizing a s with
  | zero => rfl
  | succ n ih => simp [State.wholeBlocks, ih]
@[simp] theorem State.wholeBlocks_rnd (op : DataOp) (n a : Nat) (s : State) :
    (State.wholeBlocks op n a s).rnd = s.rnd := by
  induction n generalizing a s with
  | zero => rfl
  | succ n ih => simp [State.wholeBlocks, ih]
@[simp] theorem State.wholeBlocks_backend (op : DataOp) (n a : Nat) (s : State) :
    (State.wholeBlocks op n a s).backend = s.backend := by
  induction n generalizing a s with
  | zero => rfl
  | succ n ih => simp [State.wholeBlocks, ih]
@[simp] theorem State.wholeBlocks_inited (op : DataOp) (n a : Nat) (s : State) :
    (State.wholeBlocks op n a s).inited = s.inited := by
  induction n generalizing a s with
  | zero => rfl
  | succ n ih => simp [State.wholeBlocks, ih]
@[simp] theorem State.wholeBlocks_fault (op : DataOp) (n a : Nat) (s : State) :
    (State.wholeBlocks op n a s).fault = s.fault := by
  induction n generalizing a s with
  | zero => rfl
  | succ n ih => simp [State.wholeBlocks, ih]
@[simp] theorem State.wholeBlocks_err (op : DataOp) (n a : Nat) (s : State) :
    (State.wholeBlocks op n a s).err = s.err := by
  induction n generalizing a s with
  | zero => rfl
  | succ n ih => simp [State.wholeBlocks, ih]
@[simp] theorem State.wholeBlocks_caps (op : DataOp) (n a : Nat) (s : State) :
    (State.wholeBlocks op n a s).caps = s.caps := by
  induction n generalizing a s with
  | zero => rfl
  | succ n ih => simp [State.wholeBlocks, ih]
@[simp] theorem State.wholeBlocks_rst (op : DataOp) (n a : Nat) (s : State) :
    (State.wholeBlocks op n a s).rst = s.rst := by
  induction n generalizing a s with
  | zero => rfl
  | succ n ih => simp [State.wholeBlocks, ih]
@[simp] theorem State.wholeBlocks_cmd (op : DataOp) (n a : Nat) (s : State) :
    (State.wholeBlocks op n a s).cmd = s.cmd := by
  induction n generalizing a s with
  | zero => rfl
  | succ n ih => simp [State.wholeBlocks, ih]
@[simp] theorem State.wholeBlocks_resp (op : DataOp) (n a : Nat) (s : State) :
    (State.wholeBlocks op n a s).resp = s.resp := by
  induction n generalizing a s with
  | zero => rfl
  | succ n ih => simp [State.wholeBlocks, ih]
@[simp] theorem State.wholeBlocks_buf (op : DataOp) (n a : Nat) (s : State) :
    (State.wholeBlocks op n a s).buf = s.buf := by
  induction n generalizing a s with
  | zero => rfl
  | succ n ih => simp [State.wholeBlocks, ih]
@[simp] theorem State.wholeBlocks_off (op : DataOp) (n a : Nat) (s : State) :
    (State.wholeBlocks op n a s).off = s.off := by
  induction n generalizing a s with
  | zero => rfl
  | succ n ih => simp [State.wholeBlocks, ih]

/-! ### `applyCore`: the counter words, `BUF`, `OFF`, the data -/

@[simp] theorem State.applyCore_fam (s : State) (op : DataOp) (a len : Nat) :
    (s.applyCore op a len).fam = s.fam := by
  simp [State.applyCore]
@[simp] theorem State.applyCore_pol (s : State) (op : DataOp) (a len : Nat) :
    (s.applyCore op a len).pol = s.pol := by
  simp [State.applyCore]
@[simp] theorem State.applyCore_rnd (s : State) (op : DataOp) (a len : Nat) :
    (s.applyCore op a len).rnd = s.rnd := by
  simp [State.applyCore]
@[simp] theorem State.applyCore_backend (s : State) (op : DataOp) (a len : Nat) :
    (s.applyCore op a len).backend = s.backend := by
  simp [State.applyCore]
@[simp] theorem State.applyCore_inited (s : State) (op : DataOp) (a len : Nat) :
    (s.applyCore op a len).inited = s.inited := by
  simp [State.applyCore]
@[simp] theorem State.applyCore_fault (s : State) (op : DataOp) (a len : Nat) :
    (s.applyCore op a len).fault = s.fault := by
  simp [State.applyCore]
@[simp] theorem State.applyCore_err (s : State) (op : DataOp) (a len : Nat) :
    (s.applyCore op a len).err = s.err := by
  simp [State.applyCore]
@[simp] theorem State.applyCore_caps (s : State) (op : DataOp) (a len : Nat) :
    (s.applyCore op a len).caps = s.caps := by
  simp [State.applyCore]
@[simp] theorem State.applyCore_rst (s : State) (op : DataOp) (a len : Nat) :
    (s.applyCore op a len).rst = s.rst := by
  simp [State.applyCore]
@[simp] theorem State.applyCore_cmd (s : State) (op : DataOp) (a len : Nat) :
    (s.applyCore op a len).cmd = s.cmd := by
  simp [State.applyCore]
@[simp] theorem State.applyCore_resp (s : State) (op : DataOp) (a len : Nat) :
    (s.applyCore op a len).resp = s.resp := by
  simp [State.applyCore]

end Sys2Proof.Machine
end

