-- ==== Sys2Proof/Laws/Counter.lean ====
section
/-! SUPPORT. The block counter as a view of the state words (10_state.md R25; 41_state_builder.md R165):
what reading gives after writing, what a write leaves alone, and the blocks that do not see it. -/

namespace Sys2Proof.Machine

/-- The counter is a `W`-bit number. -/
theorem counterOf_lt (fam : Family) (w : CtrWidth) (x : Words) :
    counterOf fam w x < 2 ^ widthBits w := by
  cases w <;> cases fam <;> simp only [counterOf, widthBits] <;> omega

theorem two_pow_width_pos (w : CtrWidth) : 0 < 2 ^ widthBits w := Nat.two_pow_pos _

/-- Reading the counter after writing it gives the value modulo `2^W`. -/
@[simp] theorem counterOf_withCounter (fam : Family) (w : CtrWidth) (c : Nat) (x : Words) :
    counterOf fam w (withCounter fam w c x) = c % 2 ^ widthBits w := by
  cases w <;> cases fam <;>
    simp [counterOf, withCounter, widthBits] <;> omega

/-- Only the value modulo `2^W` matters. -/
theorem withCounter_mod (fam : Family) (w : CtrWidth) (c : Nat) (x : Words) :
    withCounter fam w (c % 2 ^ widthBits w) x = withCounter fam w c x := by
  have lo (n : Nat) : BitVec.ofNat 32 (n % 2 ^ 32) = BitVec.ofNat 32 n := by
    apply BitVec.eq_of_toNat_eq; simp
  have lo64 (n : Nat) : BitVec.ofNat 32 (n % 2 ^ 64) = BitVec.ofNat 32 n := by
    apply BitVec.eq_of_toNat_eq; simp
  have hi64 (n : Nat) : BitVec.ofNat 32 (n % 2 ^ 64 / 2 ^ 32) = BitVec.ofNat 32 (n / 2 ^ 32) := by
    apply BitVec.eq_of_toNat_eq; simp; omega
  cases w <;> cases fam <;> simp only [withCounter, widthBits, lo, lo64, hi64]

/-- Which word takes which half of the counter, layout by layout. -/
theorem withCounter_halves (fam : Family) (pol : Policy) (c : Nat) (x : Words) :
    withCounter fam (ctrWidth fam pol) c x =
      match fam, pol with
      | .chacha, .legacy => (x.set 12 ((BitVec.ofNat 64 c).extractLsb' 0 32)).set 13
          ((BitVec.ofNat 64 c).extractLsb' 32 32)
      | .chacha, _ => x.set 12 ((BitVec.ofNat 64 c).extractLsb' 0 32)
      | .salsa, _ => (x.set 8 ((BitVec.ofNat 64 c).extractLsb' 0 32)).set 9
          ((BitVec.ofNat 64 c).extractLsb' 32 32) := by
  have lo : (BitVec.ofNat 64 c).extractLsb' 0 32 = BitVec.ofNat 32 c := by
    apply BitVec.eq_of_toNat_eq; simp
  have hi : (BitVec.ofNat 64 c).extractLsb' 32 32 = BitVec.ofNat 32 (c / 2 ^ 32) := by
    apply BitVec.eq_of_toNat_eq; simp [Nat.shiftRight_eq_div_pow]; omega
  rw [lo, hi]
  cases fam <;> cases pol <;> rfl

/-- Writing the counter twice leaves the second value. -/
@[simp] theorem withCounter_withCounter (fam : Family) (w : CtrWidth) (c d : Nat) (x : Words) :
    withCounter fam w c (withCounter fam w d x) = withCounter fam w c x := by
  cases w <;> cases fam <;> simp only [withCounter] <;> ext i hi <;>
    simp only [Vector.getElem_set] <;> grind

/-- Writing back the value the counter has changes nothing. -/
@[simp] theorem withCounter_counterOf (fam : Family) (w : CtrWidth) (x : Words) :
    withCounter fam w (counterOf fam w x) x = x := by
  have lo (a b : Word) : BitVec.ofNat 32 (a.toNat + 2 ^ 32 * b.toNat) = a := by
    apply BitVec.eq_of_toNat_eq
    have := a.isLt
    simp only [BitVec.toNat_ofNat]
    omega
  have hi (a b : Word) : BitVec.ofNat 32 ((a.toNat + 2 ^ 32 * b.toNat) / 2 ^ 32) = b := by
    apply BitVec.eq_of_toNat_eq
    have := a.isLt
    have := b.isLt
    simp only [BitVec.toNat_ofNat]
    omega
  cases w <;> cases fam <;> simp only [withCounter, counterOf, lo, hi] <;> ext i hi <;>
    simp only [Vector.getElem_set] <;> grind

/-! ### The counter of an engine -/

@[simp] theorem State.width_setCtr (s : State) (v : Nat) : (s.setCtr v).width = s.width := rfl

@[simp] theorem State.width_fillBuf (s : State) : s.fillBuf.width = s.width := rfl

@[simp] theorem State.width_advance (s : State) : s.advance.width = s.width := rfl

theorem State.ctr_lt (s : State) : s.ctr < 2 ^ widthBits s.width := counterOf_lt _ _ _

/-- `CTR <= CTRMAX` (43_stream_engine.md R228). -/
theorem State.ctr_le_max (s : State) : s.ctr ≤ ctrMax s.width := by
  have := s.ctr_lt; unfold ctrMax; omega

@[simp] theorem State.ctr_setCtr (s : State) (v : Nat) :
    (s.setCtr v).ctr = v % 2 ^ widthBits s.width := counterOf_withCounter _ _ _ _

@[simp] theorem State.ctr_advance (s : State) :
    s.advance.ctr = (s.ctr + 1) % 2 ^ widthBits s.width := counterOf_withCounter _ _ _ _

@[simp] theorem State.ctr_fillBuf (s : State) :
    s.fillBuf.ctr = (s.ctr + 1) % 2 ^ widthBits s.width := counterOf_withCounter _ _ _ _

@[simp] theorem State.setCtr_setCtr (s : State) (v w : Nat) :
    (s.setCtr v).setCtr w = s.setCtr w := by
  simp [State.setCtr, State.width]

@[simp] theorem State.setCtr_ctr (s : State) : s.setCtr s.ctr = s := by
  simp [State.setCtr, State.ctr]

/-! ### Blocks (41_state_builder.md R166) -/

/-- A block of a given index does not depend on the counter words. -/
@[simp] theorem blockAt_withCounter (fam : Family) (w : CtrWidth) (rc : Nat) (x : Words)
    (c d : Nat) : blockAt fam w rc (withCounter fam w d x) c = blockAt fam w rc x c := by
  simp [blockAt]

theorem blockAt_mod (fam : Family) (w : CtrWidth) (rc : Nat) (x : Words) (c : Nat) :
    blockAt fam w rc x (c % 2 ^ widthBits w) = blockAt fam w rc x c := by
  simp [blockAt, withCounter_mod]

/-- The keystream does not depend on the counter words. -/
@[simp] theorem keystreamByte_withCounter (fam : Family) (w : CtrWidth) (rc : Nat) (x : Words)
    (d p : Nat) : keystreamByte fam w rc (withCounter fam w d x) p = keystreamByte fam w rc x p := by
  simp [keystreamByte]

/-- `Block(S)` is the block of index `CTR`. -/
theorem State.block_eq (s : State) :
    s.block = blockAt s.fam s.width (roundCount s.rnd) s.words s.ctr := by
  simp [State.block, blockAt, State.ctr]

/-- The bytes of block `c` are the keystream from position `64 * c`. -/
theorem getElem_blockAt (fam : Family) (w : CtrWidth) (rc : Nat) (x : Words) (c i : Nat)
    (h : i < 64) : (blockAt fam w rc x c)[i] = keystreamByte fam w rc x (64 * c + i) := by
  have h1 : (64 * c + i) / 64 = c := by omega
  have h2 : (64 * c + i) % 64 = i := by omega
  simp [keystreamByte, h1, h2]

end Sys2Proof.Machine
end

