-- ==== Sys2Proof/Laws/Memory.lean ====
section
/-! SUPPORT. The data space: what a read gives after a write and after a string of bytes is combined in,
for every memory, and that every operation keeps the canonical form. -/

namespace Sys2Proof.Machine

/-! ### Reading after writing -/

theorem Memory.read_erase_same (m : Memory) (a : Nat) :
    (m.erase a).read a = Config.unwrittenByte := by
  induction m with
  | nil => rfl
  | cons c t ih =>
    by_cases h : c.1 = a
    · simpa [Memory.erase, h] using ih
    · simpa [Memory.erase, Memory.read, h] using ih

theorem Memory.read_erase_ne (m : Memory) {a b : Nat} (h : b ≠ a) :
    (m.erase a).read b = m.read b := by
  induction m with
  | nil => rfl
  | cons c t ih =>
    obtain ⟨k, v⟩ := c
    by_cases hk : k = a
    · have hab : a ≠ b := h.symm
      simpa [Memory.erase, Memory.read, hk, hab] using ih
    · by_cases hb : k = b
      · subst hb; simp [Memory.erase, Memory.read, hk]
      · simpa [Memory.erase, Memory.read, hk, hb] using ih

theorem Memory.read_insert_same (m : Memory) (a : Nat) (b : Byte) :
    (m.insert a b).read a = b := by
  induction m with
  | nil => simp [Memory.insert, Memory.read]
  | cons c t ih =>
    obtain ⟨k, v⟩ := c
    unfold Memory.insert
    split
    · simp [Memory.read]
    · split
      · simp [Memory.read]
      · rename_i h
        have hk : k ≠ a := fun e => h e.symm
        simp [Memory.read, hk, ih]

theorem Memory.read_insert_ne (m : Memory) {a c : Nat} (b : Byte) (h : c ≠ a) :
    (m.insert a b).read c = m.read c := by
  induction m with
  | nil => simp [Memory.insert, Memory.read, h.symm]
  | cons d t ih =>
    obtain ⟨k, v⟩ := d
    have hac : a ≠ c := h.symm
    unfold Memory.insert
    split
    · simp [Memory.read, hac]
    · split
      · rename_i hk; subst hk
        simp [Memory.read, hac]
      · simp [Memory.read, ih]

/-- A read after a write to the same address gives the byte written. -/
@[simp] theorem Memory.read_write_same (m : Memory) (a : Nat) (b : Byte) :
    (m.write a b).read a = b := by
  unfold Memory.write
  split
  · rename_i h; rw [Memory.read_erase_same, h]
  · exact Memory.read_insert_same m a b

/-- A write leaves every other address alone. -/
theorem Memory.read_write_ne (m : Memory) {a c : Nat} (b : Byte) (h : c ≠ a) :
    (m.write a b).read c = m.read c := by
  unfold Memory.write
  split
  · exact Memory.read_erase_ne m h
  · exact Memory.read_insert_ne m b h

/-! ### Reading after a string of bytes -/

/-- Addresses below the region read as before. -/
theorem read_streamBytes_below (op : DataOp) (ks : List Byte) (m : Memory) {a c : Nat} (h : c < a) :
    (streamBytes op m a ks).read c = m.read c := by
  induction ks generalizing m a with
  | nil => rfl
  | cons k ks ih =>
    rw [streamBytes, ih _ (by omega), Memory.read_write_ne _ _ (by omega)]

/-- Addresses above the region read as before. -/
theorem read_streamBytes_above (op : DataOp) (ks : List Byte) (m : Memory) {a c : Nat}
    (h : a + ks.length ≤ c) : (streamBytes op m a ks).read c = m.read c := by
  induction ks generalizing m a with
  | nil => rfl
  | cons k ks ih =>
    simp only [List.length_cons] at h
    rw [streamBytes, ih _ (by omega), Memory.read_write_ne _ _ (by omega)]

/-- Byte `i` of the region combines the old byte with byte `i` of the string, once. -/
theorem read_streamBytes_inside (op : DataOp) (ks : List Byte) (m : Memory) (a i : Nat)
    (h : i < ks.length) :
    (streamBytes op m a ks).read (a + i) = combine op (m.read (a + i)) ks[i] := by
  induction ks generalizing m a i with
  | nil => simp at h
  | cons k ks ih =>
    cases i with
    | zero => rw [streamBytes, read_streamBytes_below _ _ _ (by omega)]; simp
    | succ i =>
      have h' : i < ks.length := by simpa using h
      have e : a + (i + 1) = a + 1 + i := by omega
      rw [streamBytes, e, ih _ _ _ h', Memory.read_write_ne _ _ (by omega)]
      simp

/-- Two strings one after the other are one string. -/
theorem streamBytes_append (op : DataOp) (ks ls : List Byte) (m : Memory) (a : Nat) :
    streamBytes op m a (ks ++ ls) = streamBytes op (streamBytes op m a ks) (a + ks.length) ls := by
  induction ks generalizing m a with
  | nil => rfl
  | cons k ks ih =>
    rw [List.cons_append, streamBytes, streamBytes, ih, List.length_cons,
      show a + 1 + ks.length = a + (ks.length + 1) by omega]

@[simp] theorem streamBytes_nil (op : DataOp) (m : Memory) (a : Nat) : streamBytes op m a [] = m := rfl

/-! ### The canonical form -/

/-- The canonical form as a predicate on lists: addresses rise, every entry is inside the space and
differs from what an unlisted address reads as. -/
theorem Memory.wf_iff (m : Memory) :
    m.wf = true ↔ m.Pairwise (fun c d => c.1 < d.1) ∧
      ∀ c ∈ m, c.1 < 2 ^ 64 ∧ c.2 ≠ Config.unwrittenByte := by
  have rising : ∀ m : Memory, m.rising = true ↔ m.Pairwise (fun c d => c.1 < d.1) := by
    intro m
    induction m with
    | nil => simp [Memory.rising]
    | cons c t ih =>
      cases t with
      | nil => simp [Memory.rising]
      | cons d t =>
        simp only [Memory.rising, Bool.and_eq_true, decide_eq_true_eq, ih, List.pairwise_cons]
        constructor
        · rintro ⟨h, hd, ht⟩
          refine ⟨?_, hd, ht⟩
          intro e he
          rcases List.mem_cons.1 he with rfl | he
          · exact h
          · exact Nat.lt_trans h (hd e he)
        · rintro ⟨h, hd, ht⟩
          exact ⟨h d (by simp), hd, ht⟩
  simp [Memory.wf, rising]

theorem Memory.wf_nil : Memory.wf [] = true := by decide

theorem Memory.wf_erase {m : Memory} (h : m.wf = true) (a : Nat) : (m.erase a).wf = true := by
  rw [Memory.wf_iff] at h ⊢
  exact ⟨h.1.filter _, fun c hc => h.2 c (List.mem_of_mem_filter hc)⟩

theorem Memory.mem_insert {m : Memory} {a : Nat} {b : Byte} {c : Host.Cell}
    (h : c ∈ m.insert a b) : c = (a, b) ∨ c ∈ m := by
  induction m with
  | nil => simpa [Memory.insert] using h
  | cons d t ih =>
    obtain ⟨k, v⟩ := d
    unfold Memory.insert at h
    split at h
    · simpa using h
    · split at h
      · rcases List.mem_cons.1 h with h | h
        · exact .inl h
        · exact .inr (List.mem_cons_of_mem _ h)
      · rcases List.mem_cons.1 h with h | h
        · exact .inr (h ▸ List.mem_cons_self)
        · exact (ih h).imp id (List.mem_cons_of_mem _)

theorem Memory.wf_insert {m : Memory} (h : m.wf = true) {a : Nat} {b : Byte} (ha : a < 2 ^ 64)
    (hb : b ≠ Config.unwrittenByte) : (m.insert a b).wf = true := by
  rw [Memory.wf_iff] at h ⊢
  refine ⟨?_, fun c hc => ?_⟩
  · obtain ⟨hp, -⟩ := h
    induction m with
    | nil => simp [Memory.insert]
    | cons d t ih =>
      obtain ⟨k, v⟩ := d
      rw [List.pairwise_cons] at hp
      obtain ⟨hd, ht⟩ := hp
      unfold Memory.insert
      split
      · rename_i hk
        refine List.pairwise_cons.2 ⟨fun e he => ?_, List.pairwise_cons.2 ⟨hd, ht⟩⟩
        rcases List.mem_cons.1 he with rfl | he
        · exact hk
        · exact Nat.lt_trans hk (hd e he)
      · split
        · rename_i hk; subst hk
          exact List.pairwise_cons.2 ⟨hd, ht⟩
        · rename_i h1 h2
          refine List.pairwise_cons.2 ⟨fun e he => ?_, ih ht⟩
          rcases Memory.mem_insert he with rfl | he
          · show k < a; omega
          · exact hd e he
  · rcases Memory.mem_insert hc with rfl | hc
    · exact ⟨ha, hb⟩
    · exact h.2 c hc

/-- Storing a byte inside the space keeps the canonical form. -/
theorem Memory.wf_write {m : Memory} (h : m.wf = true) {a : Nat} (b : Byte) (ha : a < 2 ^ 64) :
    (m.write a b).wf = true := by
  unfold Memory.write
  split
  · exact Memory.wf_erase h a
  · exact Memory.wf_insert h ha ‹_›

/-- Combining a string of bytes into a region inside the space keeps the canonical form. -/
theorem wf_streamBytes (op : DataOp) (ks : List Byte) {m : Memory} (h : m.wf = true) {a : Nat}
    (ha : a + ks.length ≤ 2 ^ 64) : (streamBytes op m a ks).wf = true := by
  induction ks generalizing m a with
  | nil => exact h
  | cons k ks ih =>
    simp only [List.length_cons] at ha
    exact ih (Memory.wf_write h _ (by omega)) (by omega)

/-- Two memories in canonical form that read alike are the same list. -/
theorem Memory.eq_of_read {m n : Memory} (hm : m.wf = true) (hn : n.wf = true)
    (h : ∀ a, m.read a = n.read a) : m = n := by
  rw [Memory.wf_iff] at hm hn
  have below : ∀ (t : Memory) (a : Nat), (∀ c ∈ t, a < c.1) → t.read a = Config.unwrittenByte := by
    intro t a ht
    induction t with
    | nil => rfl
    | cons c t ih =>
      have : c.1 ≠ a := by have := ht c (by simp); omega
      simpa [Memory.read, this] using ih fun d hd => ht d (by simp [hd])
  induction m generalizing n with
  | nil =>
    cases n with
    | nil => rfl
    | cons d u =>
      have := h d.1
      simp [Memory.read] at this
      exact absurd this.symm (hn.2 d (by simp)).2
  | cons c t ih =>
    cases n with
    | nil =>
      have := h c.1
      simp [Memory.read] at this
      exact absurd this (hm.2 c (by simp)).2
    | cons d u =>
      obtain ⟨⟨hct, ht⟩, hmv⟩ := And.intro (List.pairwise_cons.1 hm.1) hm.2
      obtain ⟨⟨hdu, hu⟩, hnv⟩ := And.intro (List.pairwise_cons.1 hn.1) hn.2
      have hcd : c.1 = d.1 := by
        rcases Nat.lt_trichotomy c.1 d.1 with hlt | he | hlt
        · have h1 := h c.1
          rw [below (d :: u) c.1 (by
            intro e he
            rcases List.mem_cons.1 he with rfl | he
            · exact hlt
            · exact Nat.lt_trans hlt (hdu e he))] at h1
          simp [Memory.read] at h1
          exact absurd h1 (hmv c (by simp)).2
        · exact he
        · have h1 := h d.1
          rw [below (c :: t) d.1 (by
            intro e he
            rcases List.mem_cons.1 he with rfl | he
            · exact hlt
            · exact Nat.lt_trans hlt (hct e he))] at h1
          simp [Memory.read] at h1
          exact absurd h1.symm (hnv d (by simp)).2
      have hv : c.2 = d.2 := by
        have h1 := h c.1
        simpa [Memory.read, hcd] using h1
      have hcd' : c = d := Prod.ext hcd hv
      subst hcd'
      congr 1
      refine ih ⟨ht, fun e he => hmv e (by simp [he])⟩ ⟨hu, fun e he => hnv e (by simp [he])⟩ fun a => ?_
      by_cases ha : c.1 = a
      · subst ha
        rw [below t _ hct, below u _ hdu]
      · simpa [Memory.read, ha] using h a

end Sys2Proof.Machine
end

