-- ==== Sys2Proof/Laws/Stream.lean ====
section
/-! SUPPORT. What the shared body of APPLY, TRYAPPLY and RNGFILL does, once and for all
(43_stream_engine.md R215; 45_rng_adapter.md R272): the data gets the keystream from the current
position on, the counter advances by `Need`, the offset follows, and the buffer stays valid. -/

namespace Sys2Proof.Machine

open Safety

/-! ### Runs of keystream -/

/-- `n` keystream bytes from position `p`. -/
def ksBytes (fam : Family) (w : CtrWidth) (rc : Nat) (x : Words) (p n : Nat) : List Byte :=
  (List.range n).map fun i => keystreamByte fam w rc x (p + i)

section
variable (fam : Family) (w : CtrWidth) (rc : Nat) (x : Words)

@[simp] theorem ksBytes_length (p n : Nat) : (ksBytes fam w rc x p n).length = n := by simp [ksBytes]

@[simp] theorem ksBytes_zero (p : Nat) : ksBytes fam w rc x p 0 = [] := rfl

theorem getElem_ksBytes (p n i : Nat) (h : i < (ksBytes fam w rc x p n).length) :
    (ksBytes fam w rc x p n)[i] = keystreamByte fam w rc x (p + i) := by simp [ksBytes]

@[simp] theorem ksBytes_withCounter (d p n : Nat) :
    ksBytes fam w rc (withCounter fam w d x) p n = ksBytes fam w rc x p n := by simp [ksBytes]

theorem ksBytes_append (p m n : Nat) :
    ksBytes fam w rc x p (m + n) = ksBytes fam w rc x p m ++ ksBytes fam w rc x (p + m) n := by
  simp [ksBytes, List.range_add, Nat.add_assoc]

/-- The keystream is periodic in the counter's range. -/
theorem keystreamByte_mod (c i : Nat) :
    keystreamByte fam w rc x (64 * (c % 2 ^ widthBits w) + i)
      = keystreamByte fam w rc x (64 * c + i) := by
  have e : ∀ d, 64 * d + i = 64 * (d + i / 64) + i % 64 := fun d => by omega
  rw [e (c % 2 ^ widthBits w), e c, ← getElem_blockAt _ _ _ _ _ _ (Nat.mod_lt i (by decide)),
    ← getElem_blockAt _ _ _ _ _ _ (Nat.mod_lt i (by decide))]
  have h : blockAt fam w rc x (c % 2 ^ widthBits w + i / 64) = blockAt fam w rc x (c + i / 64) := by
    rw [← blockAt_mod, Nat.mod_add_mod, blockAt_mod]
  simp only [h]

theorem ksBytes_mod (c j n : Nat) :
    ksBytes fam w rc x (64 * (c % 2 ^ widthBits w) + j) n = ksBytes fam w rc x (64 * c + j) n := by
  simp only [ksBytes]
  refine List.map_congr_left fun i _ => ?_
  rw [Nat.add_assoc, keystreamByte_mod, Nat.add_assoc]

/-- A piece of a block is a run of keystream. -/
theorem block_piece (c o t : Nat) (h : o + t ≤ 64) :
    ((blockAt fam w rc x c).toList.drop o).take t = ksBytes fam w rc x (64 * c + o) t := by
  apply List.ext_getElem
  · simp; omega
  · intro i h1 h2
    have hi : i < t := by simpa using h2
    rw [getElem_ksBytes, Nat.add_assoc, ← getElem_blockAt _ _ _ _ _ _ (by omega : o + i < 64)]
    simp

theorem block_take (c r : Nat) (h : r ≤ 64) :
    (blockAt fam w rc x c).toList.take r = ksBytes fam w rc x (64 * c) r := by
  simpa using block_piece fam w rc x c 0 r (by omega)

theorem block_toList (c : Nat) :
    (blockAt fam w rc x c).toList = ksBytes fam w rc x (64 * c) 64 := by
  have := block_take fam w rc x c 64 (Nat.le_refl _)
  rwa [List.take_of_length_le (by simp)] at this

end

/-! ### The engine's keystream -/

/-- `n` keystream bytes of the engine from position `p`. -/
def State.ks (s : State) (p n : Nat) : List Byte :=
  ksBytes s.fam s.width (roundCount s.rnd) s.words p n

@[simp] theorem State.ks_length (s : State) (p n : Nat) : (s.ks p n).length = n :=
  ksBytes_length _ _ _ _ _ _

@[simp] theorem State.ks_zero (s : State) (p : Nat) : s.ks p 0 = [] := rfl

theorem State.ks_append (s : State) (p m n : Nat) : s.ks p (m + n) = s.ks p m ++ s.ks (p + m) n :=
  ksBytes_append _ _ _ _ _ _ _

theorem State.ks_mod (s : State) (c n : Nat) :
    s.ks (64 * (c % 2 ^ widthBits s.width)) n = s.ks (64 * c) n :=
  ksBytes_mod s.fam s.width (roundCount s.rnd) s.words c 0 n

/-- Two states with the same configuration whose words differ in the counter only have the same
keystream. -/
theorem State.ks_congr {s t : State} {c : Nat} (hf : t.fam = s.fam) (hp : t.pol = s.pol)
    (hr : t.rnd = s.rnd) (hw : t.words = withCounter s.fam s.width c s.words) (p n : Nat) :
    t.ks p n = s.ks p n := by
  have hwid : t.width = s.width := by rw [State.width, State.width, hf, hp]
  rw [State.ks, State.ks, hf, hr, hwid, hw, ksBytes_withCounter]

theorem State.block_take_eq (s : State) {r : Nat} (h : r ≤ 64) :
    s.block.toList.take r = s.ks (64 * s.ctr) r := by
  rw [State.block_eq, block_take _ _ _ _ _ _ h, State.ks]

theorem State.block_toList_eq (s : State) : s.block.toList = s.ks (64 * s.ctr) 64 := by
  rw [State.block_eq, block_toList, State.ks]

/-! ### Phase 1 -/

@[simp] theorem State.width_drain (s : State) (op : DataOp) (a t : Nat) :
    (s.drain op a t).width = s.width := rfl

@[simp] theorem State.ctr_drain (s : State) (op : DataOp) (a t : Nat) :
    (s.drain op a t).ctr = s.ctr := rfl

@[simp] theorem State.ks_drain (s : State) (op : DataOp) (a t p n : Nat) :
    (s.drain op a t).ks p n = s.ks p n := rfl

theorem State.blockIndex_of_ne {s : State} (h : s.off ≠ 0) :
    s.blockIndex = (s.ctr + 2 ^ widthBits s.width - 1) % 2 ^ widthBits s.width := if_neg h

theorem State.blockIndex_of_eq {s : State} (h : s.off = 0) : s.blockIndex = s.ctr := if_pos h

theorem State.avail_of_ne {s : State} (h : s.off ≠ 0) : s.avail = 64 - s.off.toNat := if_neg h

theorem State.avail_of_eq {s : State} (h : s.off = 0) : s.avail = 0 := if_pos h

theorem off_toNat_eq_zero {o : BitVec 6} : o.toNat = 0 ↔ o = 0 :=
  ⟨fun h => BitVec.eq_of_toNat_eq h, fun h => by rw [h]; rfl⟩

/-- The buffered tail, `t` bytes of it, is the keystream from `POS` on. -/
theorem State.drain_bytes {s : State} (hv : s.off ≠ 0 → s.buf = blockAt s.fam s.width
      (roundCount s.rnd) s.words s.blockIndex) {t : Nat} (ht : t ≤ s.avail) :
    (s.buf.toList.drop s.off.toNat).take t = s.ks s.pos t := by
  by_cases h : s.off = 0
  · rw [State.avail_of_eq h] at ht
    obtain rfl : t = 0 := by omega
    rfl
  · have hlt := s.off.isLt
    rw [State.avail_of_ne h] at ht
    rw [hv h, block_piece _ _ _ _ _ _ _ (by omega), State.ks, State.pos]

/-! ### Phase 2 -/

@[simp] theorem State.width_wholeBlocks (op : DataOp) (n a : Nat) (s : State) :
    (State.wholeBlocks op n a s).width = s.width := by
  rw [State.width, State.width, State.wholeBlocks_fam, State.wholeBlocks_pol]

/-- One whole block. -/
def State.oneBlock (s : State) (op : DataOp) (a : Nat) : State :=
  { s.advance with mem := streamBytes op s.mem a s.block.toList }

theorem State.wholeBlocks_succ (op : DataOp) (n a : Nat) (s : State) :
    State.wholeBlocks op (n + 1) a s = State.wholeBlocks op n (a + 64) (s.oneBlock op a) := rfl

theorem State.oneBlock_words (s : State) (op : DataOp) (a : Nat) :
    (s.oneBlock op a).words = withCounter s.fam s.width (s.ctr + 1) s.words := rfl

theorem State.oneBlock_mem (s : State) (op : DataOp) (a : Nat) :
    (s.oneBlock op a).mem = streamBytes op s.mem a (s.ks (64 * s.ctr) 64) := by
  rw [State.oneBlock, ← State.block_toList_eq]

theorem State.oneBlock_fam (s : State) (op : DataOp) (a : Nat) : (s.oneBlock op a).fam = s.fam := rfl

theorem State.oneBlock_pol (s : State) (op : DataOp) (a : Nat) : (s.oneBlock op a).pol = s.pol := rfl

theorem State.oneBlock_rnd (s : State) (op : DataOp) (a : Nat) : (s.oneBlock op a).rnd = s.rnd := rfl

theorem State.width_oneBlock (s : State) (op : DataOp) (a : Nat) :
    (s.oneBlock op a).width = s.width := by
  rw [State.width, State.width, State.oneBlock_fam, State.oneBlock_pol]

theorem State.oneBlock_ctr (s : State) (op : DataOp) (a : Nat) :
    (s.oneBlock op a).ctr = (s.ctr + 1) % 2 ^ widthBits s.width := by
  rw [State.ctr, State.width_oneBlock, State.oneBlock_words, State.oneBlock_fam,
    counterOf_withCounter]

theorem State.oneBlock_ks (s : State) (op : DataOp) (a p n : Nat) :
    (s.oneBlock op a).ks p n = s.ks p n :=
  State.ks_congr (s.oneBlock_fam op a) (s.oneBlock_pol op a) (s.oneBlock_rnd op a)
    (s.oneBlock_words op a) p n

/-- Phase 2 advances the counter by `n` and changes no other word. -/
theorem State.wholeBlocks_words (op : DataOp) (n a : Nat) (s : State) :
    (State.wholeBlocks op n a s).words = withCounter s.fam s.width (s.ctr + n) s.words := by
  induction n generalizing a s with
  | zero => exact (withCounter_counterOf _ _ _).symm
  | succ n ih =>
    rw [State.wholeBlocks_succ, ih, State.oneBlock_words, State.oneBlock_ctr]
    rw [State.oneBlock_fam, State.width_oneBlock, withCounter_withCounter, ← withCounter_mod, Nat.mod_add_mod, withCounter_mod,
      show s.ctr + 1 + n = s.ctr + (n + 1) by omega]

theorem State.wholeBlocks_ctr (op : DataOp) (n a : Nat) (s : State) :
    (State.wholeBlocks op n a s).ctr = (s.ctr + n) % 2 ^ widthBits s.width := by
  rw [State.ctr, State.width_wholeBlocks, State.wholeBlocks_words, State.wholeBlocks_fam,
    counterOf_withCounter]

theorem State.wholeBlocks_ks (op : DataOp) (m a : Nat) (s : State) (p n : Nat) :
    (State.wholeBlocks op m a s).ks p n = s.ks p n :=
  State.ks_congr (by simp) (by simp) (by simp) (State.wholeBlocks_words op m a s) p n

/-- Phase 2 puts `64 * n` bytes of keystream from block `CTR` on into the data. -/
theorem State.wholeBlocks_mem (op : DataOp) (n a : Nat) (s : State) :
    (State.wholeBlocks op n a s).mem = streamBytes op s.mem a (s.ks (64 * s.ctr) (64 * n)) := by
  induction n generalizing a s with
  | zero => rfl
  | succ n ih =>
    have e : 64 * (n + 1) = 64 + 64 * n := by omega
    have e' : 64 * s.ctr + 64 = 64 * (s.ctr + 1) := by omega
    rw [State.wholeBlocks_succ, ih, State.oneBlock_mem, State.oneBlock_ctr, State.oneBlock_ks,
      State.ks_mod, e, State.ks_append, streamBytes_append, State.ks_length, e']

/-! ### Phase 3 -/

theorem State.lastPart_mem (s : State) (op : DataOp) (a : Nat) {r : Nat} (h : r ≤ 64) :
    (s.lastPart op a r).mem = streamBytes op s.mem a (s.ks (64 * s.ctr) r) := by
  unfold State.lastPart
  split
  · subst r; rfl
  · rw [← State.block_take_eq s h]

theorem State.lastPart_words (s : State) (op : DataOp) (a r : Nat) :
    (s.lastPart op a r).words
      = withCounter s.fam s.width (s.ctr + if r = 0 then 0 else 1) s.words := by
  unfold State.lastPart
  split
  · exact (withCounter_counterOf _ _ _).symm
  · rfl

theorem State.lastPart_off (s : State) (op : DataOp) (a r : Nat) :
    (s.lastPart op a r).off = if r = 0 then s.off else BitVec.ofNat 6 r := by
  unfold State.lastPart; split <;> rfl

theorem State.lastPart_buf (s : State) (op : DataOp) (a r : Nat) :
    (s.lastPart op a r).buf
      = if r = 0 then s.buf else blockAt s.fam s.width (roundCount s.rnd) s.words s.ctr := by
  unfold State.lastPart
  split
  · rfl
  · exact s.block_eq

/-! ### The whole body -/

theorem pred_add_one (c m : Nat) (hm : 0 < m) : ((c + m - 1) % m + 1) % m = c % m := by
  rw [Nat.mod_add_mod, show c + m - 1 + 1 = c + m by omega, Nat.add_mod_right]

/-- `Need(OFF, LEN)` is the whole blocks of phase 2 and the one block of phase 3. -/
theorem need_split (avail len : Nat) :
    need avail len = (len - min len avail) / 64
      + (if (len - min len avail) % 64 = 0 then 0 else 1) := by
  unfold need
  split <;> split <;> omega

/-- When a request uses up the buffered tail, the next byte is the first of block `CTR`. -/
theorem State.pos_after_tail (s : State) (n : Nat) :
    s.ks (s.pos + s.avail) n = s.ks (64 * s.ctr) n := by
  by_cases h : s.off = 0
  · rw [State.avail_of_eq h, State.pos, State.blockIndex_of_eq h, h]; rfl
  · have hlt := s.off.isLt
    have e : s.pos + s.avail = 64 * (s.blockIndex + 1) := by
      rw [State.avail_of_ne h, State.pos]; omega
    rw [e, ← State.ks_mod, State.blockIndex_of_ne h, pred_add_one _ _ (two_pow_width_pos _),
      State.ks_mod]

/-- What the shared body of APPLY, TRYAPPLY and RNGFILL does to the data: `LEN` bytes of keystream from
`POS` on, in order (43_stream_engine.md R227(a)). -/
theorem State.applyCore_mem (s : State) (op : DataOp) (a len : Nat)
    (hv : s.off ≠ 0 → s.buf = blockAt s.fam s.width (roundCount s.rnd) s.words s.blockIndex) :
    (s.applyCore op a len).mem = streamBytes op s.mem a (s.ks s.pos len) := by
  unfold State.applyCore
  rw [State.lastPart_mem _ _ _ (by omega), State.wholeBlocks_mem, State.wholeBlocks_ctr,
    State.wholeBlocks_ks, State.ks_drain, State.ks_drain, State.ctr_drain, State.width_drain,
    State.ks_mod, State.drain_mem, State.drain_bytes hv (Nat.min_le_right _ _)]
  rcases Nat.le_total len s.avail with h | h
  · rw [Nat.min_eq_left h, Nat.sub_self]
    simp
  · rw [Nat.min_eq_right h]
    have hlen : len = s.avail + (64 * ((len - s.avail) / 64) + (len - s.avail) % 64) := by omega
    have hall : s.ks s.pos len = s.ks s.pos s.avail
        ++ (s.ks (64 * s.ctr) (64 * ((len - s.avail) / 64))
          ++ s.ks (64 * (s.ctr + (len - s.avail) / 64)) ((len - s.avail) % 64)) := by
      rw [Nat.mul_add, ← State.ks_append, ← State.pos_after_tail, ← State.ks_append, ← hlen]
    rw [hall, streamBytes_append, streamBytes_append, State.ks_length, State.ks_length]

/-- It advances the counter by `Need(OFF, LEN)` and changes no other word (R213, R215). -/
theorem State.applyCore_words (s : State) (op : DataOp) (a len : Nat) :
    (s.applyCore op a len).words
      = withCounter s.fam s.width (s.ctr + need s.avail len) s.words := by
  unfold State.applyCore
  rw [need_split, State.lastPart_words, State.wholeBlocks_ctr, State.wholeBlocks_words,
    State.width_wholeBlocks, State.wholeBlocks_fam, State.drain_fam, State.width_drain,
    State.ctr_drain, State.drain_words, withCounter_withCounter, ← withCounter_mod, Nat.mod_add_mod,
    withCounter_mod, Nat.add_assoc]

@[simp] theorem State.width_applyCore (s : State) (op : DataOp) (a len : Nat) :
    (s.applyCore op a len).width = s.width := by
  rw [State.width, State.width, State.applyCore_fam, State.applyCore_pol]

theorem State.applyCore_ctr (s : State) (op : DataOp) (a len : Nat) :
    (s.applyCore op a len).ctr = (s.ctr + need s.avail len) % 2 ^ widthBits s.width := by
  rw [State.ctr, State.width_applyCore, State.applyCore_words, State.applyCore_fam,
    counterOf_withCounter]

/-- It leaves the keystream as it was. -/
theorem State.applyCore_ks (s : State) (op : DataOp) (a len p n : Nat) :
    (s.applyCore op a len).ks p n = s.ks p n :=
  State.ks_congr (by simp) (by simp) (by simp) (s.applyCore_words op a len) p n

/-- The offset advances by `LEN` modulo 64 (43_stream_engine.md R218). -/
theorem State.applyCore_off (s : State) (op : DataOp) (a len : Nat) :
    (s.applyCore op a len).off = BitVec.ofNat 6 (s.off.toNat + len) := by
  have hlt := s.off.isLt
  unfold State.applyCore
  rw [State.lastPart_off, State.wholeBlocks_off, State.drain_off]
  apply BitVec.eq_of_toNat_eq
  by_cases h : s.off = 0
  · have h0 := off_toNat_eq_zero.2 h
    rw [State.avail_of_eq h]
    split <;> simp only [BitVec.toNat_ofNat] <;> omega
  · have h0 : s.off.toNat ≠ 0 := fun e => h (off_toNat_eq_zero.1 e)
    rw [State.avail_of_ne h]
    split <;> simp only [BitVec.toNat_ofNat] <;> omega

/-- The buffer stays valid (10_state.md R29): if the offset is not 0 after, the buffer holds the block of
the index before the counter. -/
theorem State.applyCore_buf (s : State) (op : DataOp) (a len : Nat)
    (hv : s.off ≠ 0 → s.buf = blockAt s.fam s.width (roundCount s.rnd) s.words
      ((s.ctr + 2 ^ widthBits s.width - 1) % 2 ^ widthBits s.width))
    (h : (s.applyCore op a len).off ≠ 0) :
    (s.applyCore op a len).buf = blockAt s.fam s.width (roundCount s.rnd) s.words
      ((s.ctr + need s.avail len + 2 ^ widthBits s.width - 1) % 2 ^ widthBits s.width) := by
  have hlt := s.off.isLt
  have hoff : (s.off.toNat + len) % 64 ≠ 0 := by
    intro e
    apply h
    rw [State.applyCore_off]
    exact BitVec.eq_of_toNat_eq (by simpa using e)
  unfold State.applyCore
  rw [State.lastPart_buf, need_split]
  split
  · rename_i hr
    have hne : s.off ≠ 0 := by
      intro e
      rw [State.avail_of_eq e] at hr
      rw [off_toNat_eq_zero.2 e] at hoff
      omega
    have hz : len - min len s.avail = 0 := by
      have h0 : s.off.toNat ≠ 0 := fun e => hne (off_toNat_eq_zero.1 e)
      rw [State.avail_of_ne hne] at hr ⊢
      omega
    rw [State.wholeBlocks_buf, State.drain_buf, hv hne, hz]
    simp
  · rw [State.wholeBlocks_words, State.wholeBlocks_ctr, State.width_wholeBlocks,
      State.wholeBlocks_fam, State.wholeBlocks_rnd, State.drain_rnd, State.drain_fam,
      State.width_drain, State.ctr_drain, State.drain_words, blockAt_withCounter, ← Nat.add_assoc,
      show ∀ k m, k + 1 + m - 1 = k + m from fun k m => by omega, Nat.add_mod_right]

end Sys2Proof.Machine
end

