-- ==== Sys2Proof/Laws/Exec.lean ====
section
/-! SUPPORT. What one command can do, said once: it takes the first error its check finds, or it runs its
body (60_exceptions.md R309, R310). `checkOf` and `bodyOf` are read off the meanings; `exec_eq` is the
one lemma that unfolds them all. Then the shared operations the bodies use, field by field. -/

namespace Sys2Proof.Machine

/-! ### Checks -/

theorem checked_some {c : Option Status} {e : Status} (h : c = some e) (s : State)
    (body : State → State) : checked c s body = .next (s.raise e) := by rw [h]; rfl

theorem checked_none {c : Option Status} (h : c = none) (s : State) (body : State → State) :
    checked c s body = .next (body s) := by rw [h]; rfl

theorem pureCheck_eq_none {legal : Bool} {s : State} :
    pureCheck legal s = none ↔ legal = true ∧ s.fault = false := by
  unfold pureCheck; cases legal <;> cases s.fault <;> simp

theorem engineCheck_eq_none {legal rng : Bool} {s : State} :
    engineCheck legal rng s = none ↔
      legal = true ∧ s.fault = false ∧ s.inited = true ∧ (s.pol = .rng ↔ rng = true) := by
  unfold engineCheck
  cases legal <;> cases s.fault <;> cases s.inited <;> cases rng <;> cases s.pol <;> simp

theorem outOfRange_eq_false {a : DWord} {n : Nat} : outOfRange a n = false ↔ a.toNat + n ≤ 2 ^ 64 := by
  simp [outOfRange]

theorem regionCheck_eq_none {rng : Bool} {addr len : DWord} {s : State} :
    regionCheck rng addr len s = none ↔
      s.fault = false ∧ s.inited = true ∧ (s.pol = .rng ↔ rng = true)
        ∧ addr.toNat + len.toNat ≤ 2 ^ 64 := by
  rw [regionCheck, Option.or_eq_none_iff, engineCheck_eq_none, ← outOfRange_eq_false]
  cases outOfRange addr len.toNat <;> simp

/-! ### Every command -/

/-- The check of a command, APPLY's exhaustion included. -/
def checkOf (i : Instr) (s : State) : Option Status :=
  match i with
  | .qr _ a b c d _ => pureCheck (distinct4 a b c d) s
  | .dround _ _ => pureCheck true s
  | .rounds _ _ _ => pureCheck true s
  | .permnf _ _ _ => pureCheck true s
  | .hderive _ rnd _ _ => pureCheck (roundsOf rnd).isSome s
  | .bsize => pureCheck true s
  | .maxpar bsel => pureCheck (legalBsel bsel) s
  | .gen fam pol rnd bsel nblk _ cb => pureCheck (legalGen fam pol rnd bsel nblk cb s.caps) s
  | .genx fam pol rnd bsel nblk _ cb addr =>
    (pureCheck (legalGen fam pol rnd bsel nblk cb s.caps) s).or
      (if outOfRange addr (64 * nblk.toNat) then some .dataRange else none)
  | .init fam pol rnd bsel key nonce =>
    (pureCheck (legalVariant fam pol && (roundsOf rnd).isSome && legalBsel bsel) s).or
      (if key.length ≠ 32 ∨ nonce.length ≠ nonceBytes pol then some .invalidKeyOrNonceLength else none)
  | .apply addr len =>
    (regionCheck false addr len s).or (if s.exhaustedBy len.toNat then some .counterExhausted else none)
  | .tryApply addr len =>
    (regionCheck false addr len s).or (if s.exhaustedBy len.toNat then some .counterExhausted else none)
  | .seek v =>
    (engineCheck (v.toNat < 2 ^ 64) false s).or
      (if seekExhausted v.toNat s then some .counterExhausted else none)
  | .getPos => engineCheck true false s
  | .rdStat => none
  | .zeroize => none
  | .rngFill addr len => regionCheck true addr len s
  | .rngGetWp => engineCheck true true s
  | .rngSetWp _ => engineCheck true true s
  | .rngGetStr => engineCheck true true s
  | .rngSetStr v => engineCheck (v.toNat < 2 ^ 96) true s
  | .rngSave => engineCheck true true s
  | .rngLoad _ _ _ _ => engineCheck true true s

/-- What a command does when its check finds nothing. -/
def bodyOf (i : Instr) (s : State) : State :=
  match i with
  | .qr fam a b c d x => s.respond (ser (quarter fam x a b c d)).toList
  | .dround fam x => s.respond (ser (doubleRound fam x)).toList
  | .rounds fam rc x => s.respond (ser (perm fam rc.toNat x)).toList
  | .permnf fam rc x => s.respond (ser (permNF fam rc.toNat x)).toList
  | .hderive fam rnd key inp =>
    s.respond (hDerive fam (roundCount (fieldRounds rnd)) key.toList inp.toList)
  | .bsize => s.respond (natBytes 4 64)
  | .maxpar bsel => s.respond (natBytes 4 (parOf (select bsel s.caps)))
  | .gen fam pol rnd _ nblk x cb =>
    s.respond (genBlocks fam (ctrWidth fam pol) (roundCount (fieldRounds rnd)) x cb.toNat nblk.toNat)
  | .genx fam pol rnd _ nblk x cb addr =>
    State.respond
      { s with
        mem := streamBytes .xor s.mem addr.toNat
          (genBlocks fam (ctrWidth fam pol) (roundCount (fieldRounds rnd)) x cb.toNat nblk.toNat) }
      []
  | .init fam pol rnd bsel key nonce =>
    (s.construct fam pol (fieldRounds rnd) (select bsel s.caps) key nonce).respond []
  | .apply addr len => (s.applyCore .xor addr.toNat len.toNat).respond []
  | .tryApply addr len => (s.applyCore .xor addr.toNat len.toNat).respond []
  | .seek v => (s.moveTo (v.toNat / 64) (v.toNat % 64)).respond []
  | .getPos => s.respond (natBytes 16 s.pos)
  | .rdStat => s.respond (bytesLE s.statusWord)
  | .zeroize => s.zeroized.respond []
  | .rngFill addr len => (s.applyCore .store addr.toNat len.toNat).respond []
  | .rngGetWp => s.respond (natBytes 16 s.wordPos)
  | .rngSetWp v => (s.setWordPos v).respond []
  | .rngGetStr => s.respond (s.streamId ++ [0, 0, 0, 0])
  | .rngSetStr v => (s.switchStream v).respond []
  | .rngSave => s.respond (s.streamId ++ natBytes 16 s.wordPos)
  | .rngLoad id0 id1 id2 wp => ((s.setStream id0 id1 id2).setWordPos wp).respond []

/-- The one error that sticks is APPLY's CounterExhausted (60_exceptions.md R306). -/
def stickyOf (i : Instr) (e : Status) : Bool :=
  match i with
  | .apply _ _ => decide (e = .counterExhausted)
  | _ => false

theorem engineCheck_ne_exhausted (legal rng : Bool) (s : State) :
    engineCheck legal rng s ≠ some .counterExhausted := by
  unfold engineCheck; split_ifs <;> simp

theorem regionCheck_ne_exhausted (rng : Bool) (addr len : DWord) (s : State) :
    regionCheck rng addr len s ≠ some .counterExhausted := by
  rw [regionCheck]
  have h := engineCheck_ne_exhausted true rng s
  cases he : engineCheck true rng s with
  | some e => rw [he] at h; simpa using h
  | none => split_ifs <;> simp

/-- A command takes the error its check finds, or runs its body; it always answers a next state. -/
theorem exec_eq (i : Instr) (s : State) :
    exec i s = .next (match checkOf i s with
      | some e => s.takeError (stickyOf i e) e
      | none => bodyOf i s) := by
  have general (j : Instr) (hs : ∀ e, stickyOf j e = false)
      (h : exec j s = checked (checkOf j s) s (bodyOf j)) :
      exec j s = .next (match checkOf j s with
        | some e => s.takeError (stickyOf j e) e
        | none => bodyOf j s) := by
    rw [h]
    cases checkOf j s with
    | some e => simp [checked, State.raise, hs]
    | none => rfl
  cases i
  case apply addr len =>
    have hne := regionCheck_ne_exhausted false addr len s
    simp only [exec, execApply, checkOf, stickyOf, bodyOf]
    cases h : regionCheck false addr len s with
    | some e =>
      have he : e ≠ .counterExhausted := fun he => hne (by rw [h, he])
      simp [he, State.raise]
    | none => cases s.exhaustedBy len.toNat <;> simp [State.raiseFault]
  all_goals exact general _ (fun _ => rfl) rfl

/-- The two outcomes of a command. -/
theorem exec_cases {i : Instr} {s t : State} (h : exec i s = .next t) :
    (∃ e, checkOf i s = some e ∧ t = s.takeError (stickyOf i e) e)
      ∨ (checkOf i s = none ∧ t = bodyOf i s) := by
  rw [exec_eq] at h
  cases hc : checkOf i s with
  | some e => rw [hc] at h; cases h; exact .inl ⟨e, rfl, rfl⟩
  | none => rw [hc] at h; cases h; exact .inr ⟨rfl, rfl⟩

/-- No check answers OK. -/
theorem checkOf_ne_ok (i : Instr) (s : State) : checkOf i s ≠ some .ok := by
  have hp (l : Bool) : pureCheck l s ≠ some .ok := by unfold pureCheck; split_ifs <;> simp
  have he (l r : Bool) : engineCheck l r s ≠ some .ok := by unfold engineCheck; split_ifs <;> simp
  have ho (a : Option Status) (p : Prop) [Decidable p] (e : Status) (ha : a ≠ some .ok) (h : e ≠ .ok) :
      a.or (if p then some e else none) ≠ some .ok := by
    cases a with
    | some x => simpa using ha
    | none => split_ifs <;> simp [h]
  cases i <;> simp only [checkOf, regionCheck] <;>
    first
    | exact hp _
    | exact he _ _
    | exact Option.some_ne_none _ |>.symm
    | exact ho _ _ _ (hp _) (by decide)
    | exact ho _ _ _ (he _ _) (by decide)
    | exact ho _ _ _ (ho _ _ _ (he _ _) (by decide)) (by decide)

/-- What taking an error leaves. -/
theorem takeError_ordinary (s : State) (e : Status) :
    s.takeError false e = { s with
      err := if s.fault = true then s.err else e
      resp := [(statusCode e).setWidth 32] } := by
  simp [State.takeError, responseHeader_refusal]

theorem takeError_sticky {s : State} (h : s.fault = false) (e : Status) :
    s.takeError true e = { s with fault := true, err := e, resp := [(statusCode e).setWidth 32] } := by
  simp [State.takeError, responseHeader_refusal, h]

/-! ### Moving to a position -/

/-- `moveTo b r`, `0 ≤ r < 64`, field by field; every other field stays. -/
theorem State.moveTo_eq (s : State) (b r : Nat) :
    s.moveTo b r = { s with
      words := withCounter s.fam s.width (if r = 0 then b else b % 2 ^ widthBits s.width + 1) s.words
      buf := if r = 0 then s.buf else blockAt s.fam s.width (roundCount s.rnd) s.words b
      off := BitVec.ofNat 6 r } := by
  unfold State.moveTo
  split
  · subst r; rfl
  · rename_i h
    have hb : (s.setCtr b).block = blockAt s.fam s.width (roundCount s.rnd) s.words b := rfl
    have hw : withCounter s.fam s.width ((s.setCtr b).ctr + 1) (s.setCtr b).words
        = withCounter s.fam s.width (b % 2 ^ widthBits s.width + 1) s.words := by
      rw [State.ctr_setCtr, State.setCtr_words, withCounter_withCounter]
    simp only [State.fillBuf, State.advance, hb]
    rw [State.setCtr]
    simp only [State.setCtr_fam, State.width_setCtr, hw]
    rfl

theorem State.moveTo_ctr (s : State) (b r : Nat) :
    (s.moveTo b r).ctr = (if r = 0 then b else b + 1) % 2 ^ widthBits s.width := by
  rw [State.moveTo_eq]
  show counterOf s.fam s.width _ = _
  rw [counterOf_withCounter]
  split <;> simp

/-! ### Switching streams -/

/-- `CTR <- (CTR - 1) mod 2^W; BUF <- Block(S); CTR <- (CTR + 1) mod 2^W` ends with the counter it
started with (45_rng_adapter.md R278). -/
theorem State.regenerate_eq (s : State) :
    (s.setCtr (s.ctr + 2 ^ widthBits s.width - 1)).fillBuf = { s with
      buf := blockAt s.fam s.width (roundCount s.rnd) s.words
        ((s.ctr + 2 ^ widthBits s.width - 1) % 2 ^ widthBits s.width) } := by
  have hb : (s.setCtr (s.ctr + 2 ^ widthBits s.width - 1)).block
      = blockAt s.fam s.width (roundCount s.rnd) s.words
        ((s.ctr + 2 ^ widthBits s.width - 1) % 2 ^ widthBits s.width) := by
    rw [blockAt_mod]; rfl
  have hw : withCounter s.fam s.width
        ((s.setCtr (s.ctr + 2 ^ widthBits s.width - 1)).ctr + 1)
        (s.setCtr (s.ctr + 2 ^ widthBits s.width - 1)).words = s.words := by
    rw [State.ctr_setCtr, State.setCtr_words, withCounter_withCounter, ← withCounter_mod,
      pred_add_one _ _ (two_pow_width_pos _), Nat.mod_eq_of_lt s.ctr_lt]
    exact withCounter_counterOf _ _ _
  simp only [State.fillBuf, State.advance, hb]
  rw [State.setCtr]
  simp only [State.setCtr_fam, State.width_setCtr, hw]
  rfl

/-- Replacing the stream words, position kept: the words, and the buffered block made anew. -/
theorem State.switchStream_eq (s : State) (v : QWord) :
    s.switchStream v =
      (let x := ((s.words.set 13 (v.extractLsb' 0 32)).set 14 (v.extractLsb' 32 32)).set 15
        (v.extractLsb' 64 32)
      { s with
        words := x
        buf := if s.off = 0 then s.buf else blockAt s.fam s.width (roundCount s.rnd) x
          ((counterOf s.fam s.width x + 2 ^ widthBits s.width - 1) % 2 ^ widthBits s.width) }) := by
  unfold State.switchStream
  simp only
  by_cases h : s.off = 0
  · rw [if_pos (show (s.setStream _ _ _).off = 0 from h), if_pos h]; rfl
  · rw [if_neg (show ¬ (s.setStream _ _ _).off = 0 from h), if_neg h, State.regenerate_eq]; rfl

/-- RNGSETWP's body is a move to a block and a word of it. -/
theorem State.setWordPos_eq (s : State) (v : QWord) :
    s.setWordPos v = s.moveTo (v.toNat % 2 ^ 36 / 16) (4 * (v.toNat % 2 ^ 36 % 16)) := rfl

/-! ### The data region -/

/-- A region command that runs changes the data, the counter words, the buffer and the offset, and
nothing else. -/
theorem State.applyCore_frame (s : State) (op : DataOp) (a n : Nat) :
    s.applyCore op a n = { s with
      words := (s.applyCore op a n).words
      buf := (s.applyCore op a n).buf
      off := (s.applyCore op a n).off
      mem := (s.applyCore op a n).mem } := by
  cases h : s.applyCore op a n
  have hf := s.applyCore_fam op a n
  have hp := s.applyCore_pol op a n
  have hr := s.applyCore_rnd op a n
  have hb := s.applyCore_backend op a n
  have hi := s.applyCore_inited op a n
  have hfa := s.applyCore_fault op a n
  have he := s.applyCore_err op a n
  have hc := s.applyCore_caps op a n
  have hrs := s.applyCore_rst op a n
  have hcm := s.applyCore_cmd op a n
  have hre := s.applyCore_resp op a n
  rw [h] at hf hp hr hb hi hfa he hc hrs hcm hre
  simp only at hf hp hr hb hi hfa he hc hrs hcm hre
  subst_vars
  rfl

/-! ### What no body changes -/

theorem bodyOf_ports (i : Instr) (s : State) :
    (bodyOf i s).cmd = s.cmd ∧ (bodyOf i s).rst = s.rst ∧ (bodyOf i s).caps = s.caps
      ∧ (bodyOf i s).fault = s.fault := by
  cases i
  case rngSetStr v => simp only [bodyOf, State.switchStream_eq]; exact ⟨rfl, rfl, rfl, rfl⟩
  case apply a n => simp [bodyOf, State.respond]
  case tryApply a n => simp [bodyOf, State.respond]
  case rngFill a n => simp [bodyOf, State.respond]
  case seek v => simp only [bodyOf, State.moveTo_eq]; exact ⟨rfl, rfl, rfl, rfl⟩
  case rngSetWp v => simp only [bodyOf, State.setWordPos_eq, State.moveTo_eq]; exact ⟨rfl, rfl, rfl, rfl⟩
  case rngLoad a b c v => simp only [bodyOf, State.setWordPos_eq, State.moveTo_eq]; exact ⟨rfl, rfl, rfl, rfl⟩
  all_goals exact ⟨rfl, rfl, rfl, rfl⟩

/-- The configuration changes under INIT and ZEROIZE only. -/
theorem bodyOf_config (i : Instr) (s : State) :
    (∃ f p r b k n, i = .init f p r b k n) ∨ i = .zeroize ∨
      ((bodyOf i s).fam = s.fam ∧ (bodyOf i s).pol = s.pol ∧ (bodyOf i s).rnd = s.rnd
        ∧ (bodyOf i s).backend = s.backend ∧ (bodyOf i s).inited = s.inited
        ∧ (bodyOf i s).err = s.err) := by
  cases i
  case init f p r b k n => exact .inl ⟨f, p, r, b, k, n, rfl⟩
  case zeroize => exact .inr (.inl rfl)
  case rngSetStr v =>
    simp only [bodyOf, State.switchStream_eq]; exact .inr (.inr ⟨rfl, rfl, rfl, rfl, rfl, rfl⟩)
  case apply a n => simp [bodyOf, State.respond]
  case tryApply a n => simp [bodyOf, State.respond]
  case rngFill a n => simp [bodyOf, State.respond]
  case seek v =>
    simp only [bodyOf, State.moveTo_eq]; exact .inr (.inr ⟨rfl, rfl, rfl, rfl, rfl, rfl⟩)
  case rngSetWp v =>
    simp only [bodyOf, State.setWordPos_eq, State.moveTo_eq]
    exact .inr (.inr ⟨rfl, rfl, rfl, rfl, rfl, rfl⟩)
  case rngLoad a b c v =>
    simp only [bodyOf, State.setWordPos_eq, State.moveTo_eq]
    exact .inr (.inr ⟨rfl, rfl, rfl, rfl, rfl, rfl⟩)
  all_goals exact .inr (.inr ⟨rfl, rfl, rfl, rfl, rfl, rfl⟩)

/-! ### Responses -/

theorem respond_status (s : State) (p : List Byte) :
    ((s.respond p).resp.getD 0 0).setWidth 8 = statusCode .ok := by
  rw [State.respond, List.getD_cons_zero, responseHeader_status]

/-- A body responds OK. -/
theorem bodyOf_status (i : Instr) (s : State) :
    ((bodyOf i s).resp.getD 0 0).setWidth 8 = statusCode .ok := by
  cases i <;> exact respond_status _ _

/-- A refusal responds the code of its error. -/
theorem takeError_status (s : State) (sticky : Bool) (e : Status) :
    ((s.takeError sticky e).resp.getD 0 0).setWidth 8 = statusCode e := by
  rw [State.takeError, List.getD_cons_zero, responseHeader_status]

theorem statusCode_injective {e f : Status} (h : statusCode e = statusCode f) : e = f := by
  cases e <;> cases f <;> first | rfl | exact absurd h (by decide)

end Sys2Proof.Machine
end

