-- ==== Sys2Proof/Laws/Check.lean ====
section
/-! SUPPORT. Which error a command meets, in the order of 60_exceptions.md R309, and what it may rely on when
it meets none: the check each meaning makes is `Safety.errorOf`. -/

namespace Sys2Proof.Machine

open Safety

/-- The engine's exhaustion test is the one claims use (43_stream_engine.md R214). -/
theorem exhaustedBy_eq (s : State) (n : Nat) : s.exhaustedBy n = wouldExhaust s n := rfl

/-- So is SEEK's (43_stream_engine.md R220). -/
theorem seekExhausted_eq (s : State) (n : Nat) : seekExhausted n s = seekPast s n := rfl

/-- One block is a legal `NBLK` on every platform (42_backends.md R181). -/
theorem possibleBlocks_one (bsel : BitVec 3) : possibleBlocks bsel 1 = true := by
  revert bsel; decide

/-- The selected width is a legal `NBLK` on some platform. -/
theorem possibleBlocks_parOf (bsel : BitVec 3) (caps : BitVec 4) (nblk : BitVec 8) (h : nblk.toNat
    = parOf (select bsel caps)) :
    possibleBlocks bsel nblk = true := by
  unfold possibleBlocks
  rw [List.any_eq_true]
  exact ⟨caps.toNat, by simp; exact caps.isLt, by simp [h]⟩

/-- The check of GEN and GENX is `operandsLegal`. -/
theorem legalGen_eq (fam pol rnd bsel nblk x cb caps) :
    legalGen fam pol rnd bsel nblk cb caps = operandsLegal (.gen fam pol rnd bsel nblk x cb) caps
        := by
  simp only [legalGen, operandsLegal, Instr.legal]
  by_cases h : nblk.toNat = 1 ∨ nblk.toNat = parOf (select bsel caps)
  · have : possibleBlocks bsel nblk = true := by
      rcases h with h | h
      · have : nblk = 1 := BitVec.eq_of_toNat_eq h
        subst this; exact possibleBlocks_one _
      · exact possibleBlocks_parOf _ _ _ h
    rw [this]
    have : (nblk.toNat == 1 || nblk.toNat == parOf (select bsel caps)) = true := by simpa using h
    rw [this]; simp
  · have : (nblk.toNat == 1 || nblk.toNat == parOf (select bsel caps)) = false := by simpa using h
    rw [this]; simp

/-- A command that names no region never passes the top of the data space. -/
theorem pastTheTop_of_no_region (i) (h : region i = (0, 0)) : pastTheTop i = false := by
  unfold pastTheTop; rw [h]; simp

/-- INIT is the one command that constructs. -/
theorem kind_construct {i} (h : kind i = .construct) : ∃ f p r b k n, i = .init f p r b k n := by
  cases i <;> first | exact ⟨_, _, _, _, _, _, rfl⟩ | cases h

/-- The check of a command finds the first error in the order of 60_exceptions.md R309. -/
theorem checkOf_eq_errorOf (i : Instr) (s : State) : checkOf i s = errorOf i s := by
  cases i
  case gen fam pol rnd bsel nblk x cb =>
    have h1 : pastTheTop (.gen fam pol rnd bsel nblk x cb) = false := by simp [pastTheTop, region]
    simp only [checkOf, errorOf, legalGen_eq _ _ _ _ _ x, pureCheck, kind, wrongMode, badLength,
        exhausts, h1]
    cases operandsLegal (.gen fam pol rnd bsel nblk x cb) s.caps <;> cases s.fault <;> rfl
  case genx fam pol rnd bsel nblk x cb a =>
    have : operandsLegal (.genx fam pol rnd bsel nblk x cb a) s.caps = operandsLegal (.gen fam pol
        rnd bsel nblk x cb) s.caps := rfl
    have h2 : pastTheTop (.genx fam pol rnd bsel nblk x cb a) = outOfRange a (64 * nblk.toNat) :=
        rfl
    simp only [checkOf, errorOf, this, legalGen_eq _ _ _ _ _ x, pureCheck, kind, wrongMode,
        badLength, exhausts, h2]
    cases operandsLegal (.gen fam pol rnd bsel nblk x cb) s.caps <;> cases s.fault <;> cases
        outOfRange a (64 * nblk.toNat) <;> rfl
  case init fam pol rnd bsel k n =>
    have h1 : pastTheTop (.init fam pol rnd bsel k n) = false := by simp [pastTheTop, region]
    have h2 : (if k.length ≠ 32 ∨ n.length ≠ nonceBytes pol then some
        Status.invalidKeyOrNonceLength else none) = (if badLength (.init fam pol rnd bsel k n) then
        some Status.invalidKeyOrNonceLength else none) := by
      simp only [badLength]; congr 1; simp
    simp only [checkOf, errorOf, h2, operandsLegal, Instr.legal, pureCheck, kind, wrongMode,
        exhausts, h1]
    cases (legalVariant fam pol && (roundsOf rnd).isSome && legalBsel bsel) <;> cases s.fault <;>
        cases badLength (.init fam pol rnd bsel k n) <;> rfl
  case apply a n =>
    have h1 : pastTheTop (.apply a n) = outOfRange a n.toNat := rfl
    have hx : exhausts (.apply a n) s = s.exhaustedBy n.toNat := rfl
    unfold errorOf
    rw [hx]
    simp only [checkOf, operandsLegal, Instr.legal, regionCheck, engineCheck, kind, wrongMode,
        badLength, h1]
    cases s.fault <;> cases s.inited <;> cases s.pol <;> cases outOfRange a n.toNat <;> cases
        s.exhaustedBy n.toNat <;> rfl
  case tryApply a n =>
    have h1 : pastTheTop (.tryApply a n) = outOfRange a n.toNat := rfl
    have hx : exhausts (.tryApply a n) s = s.exhaustedBy n.toNat := rfl
    unfold errorOf
    rw [hx]
    simp only [checkOf, operandsLegal, Instr.legal, regionCheck, engineCheck, kind, wrongMode,
        badLength, h1]
    cases s.fault <;> cases s.inited <;> cases s.pol <;> cases outOfRange a n.toNat <;> cases
        s.exhaustedBy n.toNat <;> rfl
  case rngFill a n =>
    have h1 : pastTheTop (.rngFill a n) = outOfRange a n.toNat := rfl
    simp only [checkOf, errorOf, operandsLegal, Instr.legal, regionCheck, engineCheck, kind,
        wrongMode, exhausts, badLength, h1]
    cases s.fault <;> cases s.inited <;> cases s.pol <;> cases outOfRange a n.toNat <;> rfl
  case seek v =>
    have h1 : pastTheTop (.seek v) = false := by simp [pastTheTop, region]
    have hx : exhausts (.seek v) s = seekExhausted v.toNat s := rfl
    unfold errorOf
    rw [hx]
    simp only [checkOf, operandsLegal, Instr.legal, regionCheck, engineCheck, kind, wrongMode,
        badLength, h1]
    cases decide (v.toNat < 2 ^ 64) <;> cases s.fault <;> cases s.inited <;> cases s.pol <;> cases
        seekExhausted v.toNat s <;> rfl
  case rngSetStr v =>
    have h1 : pastTheTop (.rngSetStr v) = false := by simp [pastTheTop, region]
    simp only [checkOf, errorOf, operandsLegal, Instr.legal, regionCheck, engineCheck, kind,
        wrongMode, exhausts, badLength, h1]
    cases decide (v.toNat < 2 ^ 96) <;> cases s.fault <;> cases s.inited <;> cases s.pol <;> rfl
  case qr f a b c d x =>
    have h1 : pastTheTop (.qr f a b c d x) = false := by simp [pastTheTop, region]
    simp only [checkOf, errorOf, operandsLegal, Instr.legal, pureCheck, kind, wrongMode, exhausts,
        badLength, h1]
    cases distinct4 a b c d <;> cases s.fault <;> rfl
  case hderive f r k n =>
    have h1 : pastTheTop (.hderive f r k n) = false := by simp [pastTheTop, region]
    simp only [checkOf, errorOf, operandsLegal, Instr.legal, pureCheck, kind, wrongMode, exhausts,
        badLength, h1]
    cases (roundsOf r).isSome <;> cases s.fault <;> rfl
  case maxpar b =>
    have h1 : pastTheTop (.maxpar b) = false := by simp [pastTheTop, region]
    simp only [checkOf, errorOf, operandsLegal, Instr.legal, pureCheck, kind, wrongMode, exhausts,
        badLength, h1]
    cases legalBsel b <;> cases s.fault <;> rfl
  all_goals
    unfold errorOf
    rw [pastTheTop_of_no_region _ rfl]
    rcases s with ⟨w, bu, o, fa, p, r, ba, ini, fl, e, m, c, rs, cm, re⟩
    cases fl <;> cases ini <;> cases p <;> rfl

/-- Only OK has code 0. -/
theorem statusCode_eq_zero {e : Status} : statusCode e = 0 ↔ e = .ok := by
  cases e <;> decide

/-- A refusal answers the code of its error. -/
theorem responseStatus_takeError (i : Instr) {s e} : responseStatus (State.takeError s (stickyOf i
    e) e) = statusCode e := takeError_status s _ e

/-- A command that runs answers OK. -/
theorem responseStatus_bodyOf (i s) : responseStatus (bodyOf i s) = 0 := bodyOf_status i s

/-- A command that meets no error runs its body. -/
theorem exec_of_no_error {i s} (h : errorOf i s = none) : exec i s = .next (bodyOf i s) := by
  rw [exec_eq, checkOf_eq_errorOf, h]

/-- A command takes the first error it meets. -/
theorem exec_of_error {i s e} (h : errorOf i s = some e) : exec i s = .next (s.takeError (stickyOf
    i e) e) := by
  rw [exec_eq, checkOf_eq_errorOf, h]

/-- The response tells which error was met. -/
theorem errorOf_of_status {i s t e} (h : exec i s = .next t) (hs : responseStatus t = statusCode e)
    (he : e ≠ .ok) : errorOf i s = some e := by
  rcases exec_cases h with ⟨f, hc, rfl⟩ | ⟨_, rfl⟩
  · rw [checkOf_eq_errorOf] at hc
    rw [responseStatus_takeError i] at hs
    rw [hc, statusCode_injective hs]
  · rw [responseStatus_bodyOf] at hs
    exact absurd (statusCode_injective (e := .ok) hs).symm he

/-- No error but CounterExhausted sticks. -/
theorem stickyOf_eq_false (i : Instr) (e : Status) (h : e ≠ .counterExhausted) : stickyOf i e =
    false := by
  cases i <;> simp [stickyOf, h]

/-- What an ordinary error leaves when the instance is not faulted. -/
theorem exec_ordinary {i s e} (h : errorOf i s = some e) (he : e ≠ .counterExhausted) (hf : s.fault
    = false) :
   exec i s = .next { s with err := e, resp := [(statusCode e).setWidth 32] } := by
  rw [exec_of_error h, stickyOf_eq_false _ _ he, takeError_ordinary]; simp [hf]

/-- The region of a command that runs lies inside the data space. -/
theorem region_of_no_error {i s} (h : errorOf i s = none) : (region i).1 + (region i).2 ≤ 2 ^ 64 :=
    by
  have : pastTheTop i = false := by
    revert h; unfold errorOf; cases pastTheTop i
    · simp
    · split_ifs <;> simp_all
  simpa [pastTheTop] using this

/-- What a command that runs may rely on: its engine is ready and its operands are legal. -/
theorem ready_of_no_error {i s} (h : errorOf i s = none) : (kind i = .cipher → CipherReady s) ∧
    (kind i = .rng → RngReady s) ∧ exhausts i s = false ∧ badLength i = false ∧ operandsLegal i
    s.caps = true := by
  have hl : operandsLegal i s.caps = true := by
    revert h; unfold errorOf; cases operandsLegal i s.caps <;> simp
  have hb : badLength i = false := by
    revert h; unfold errorOf; cases badLength i <;> split_ifs <;> simp_all
  have hx : exhausts i s = false := by
    revert h; unfold errorOf; cases exhausts i s <;> split_ifs <;> simp_all
  refine ⟨?_, ?_, hx, hb, hl⟩
  · intro hk
    unfold errorOf at h; simp only [hl, hk, wrongMode] at h
    unfold CipherReady
    revert h; cases s.fault <;> cases s.inited <;> cases s.pol <;> simp
  · intro hk
    unfold errorOf at h; simp only [hl, hk, wrongMode] at h
    unfold RngReady
    revert h; cases s.fault <;> cases s.inited <;> cases s.pol <;> simp

/-- The four things a step can do. -/
theorem step_cases {s t : State} (h : step s = .next t) :
   (s.rst = true ∧ t = s.resetEngine) ∨ (∃ i rest, exec i { s with cmd := rest } = .next t) ∨ (∃
       rest, t = ({ s with cmd := rest } : State).raise .illegalCommand) ∨ t = s := by
  unfold step at h
  split at h
  · rename_i hr; cases h; exact .inl ⟨hr, rfl⟩
  · cases hf : s.fetch with
    | instr i r => rw [hf] at h; exact .inr (.inl ⟨i, r, h⟩)
    | illegal w r => rw [hf] at h; cases h; exact .inr (.inr (.inl ⟨r, rfl⟩))
    | incomplete => rw [hf] at h; cases h; exact .inr (.inr (.inr rfl))

/-- A pure command with legal operands meets no error. -/
theorem errorOf_pure {i s} (hk : kind i = .pure) (hl : operandsLegal i s.caps = true) (hf : s.fault
    = false) (hp : pastTheTop i = false) : errorOf i s = none := by
  have h1 : wrongMode i s = false := by simp [wrongMode, hk]
  have h2 : badLength i = false := by cases i <;> first | rfl | cases hk
  have h3 : exhausts i s = false := by cases i <;> first | rfl | cases hk
  unfold errorOf
  simp only [hk, hl, hf, hp, h1, h2, h3]; rfl

/-- And runs its body. -/
theorem exec_pure {i s} (hk : kind i = .pure) (hl : operandsLegal i s.caps = true) (hf : s.fault =
    false) (hp : region i = (0,0)) :
    exec i s = .next (bodyOf i s) := exec_of_no_error (errorOf_pure hk hl hf
        (pastTheTop_of_no_region _ hp))

/-- The one error a ready engine's APPLY can meet inside the data space. -/
theorem errorOf_apply {s addr len} (hc : CipherReady s) (hr : addr.toNat + len.toNat ≤ 2 ^ 64) :
    errorOf (.apply addr len) s = if wouldExhaust s len.toNat then some .counterExhausted else none
        := by
  obtain ⟨h1, h2, h3⟩ := hc
  have : pastTheTop (.apply addr len) = false := by exact decide_eq_false (show ¬ (2 ^ 64 <
      addr.toNat + len.toNat) by omega)
  have hx : exhausts (.apply addr len) s = wouldExhaust s len.toNat := rfl
  unfold errorOf; rw [hx]
  simp [operandsLegal, Instr.legal, kind, wrongMode, badLength, h1, h2, this, h3]

/-- TRYAPPLY, alike. -/
theorem errorOf_tryApply {s addr len} (hc : CipherReady s) (hr : addr.toNat + len.toNat ≤ 2 ^ 64) :
    errorOf (.tryApply addr len) s = if wouldExhaust s len.toNat then some .counterExhausted else
        none := errorOf_apply hc hr

/-- The two errors a ready engine's SEEK can meet. -/
theorem errorOf_seek {s} {v : QWord} (hc : CipherReady s) :
    errorOf (.seek v) s = if 2 ^ 64 ≤ v.toNat then some .illegalCommand else if seekPast s v.toNat
        then some .counterExhausted else none := by
  obtain ⟨h1, h2, h3⟩ := hc
  have hp : pastTheTop (.seek v) = false := by simp [pastTheTop, region]
  have hl : operandsLegal (.seek v) s.caps = decide (v.toNat < 2 ^ 64) := rfl
  have hx : exhausts (.seek v) s = seekPast s v.toNat := rfl
  unfold errorOf; rw [hx]
  simp only [kind, wrongMode, badLength, h1, h2, hp, hl]
  by_cases h : v.toNat < 2 ^ 64
  · have h' : ¬ 2 ^ 64 ≤ v.toNat := by omega
    rw [decide_eq_true h, if_neg h']; simp [h3]
  · have h' : 2 ^ 64 ≤ v.toNat := by omega
    rw [decide_eq_false h, if_pos h']; simp

/-- A ready adapter's RNGFILL meets none inside the data space. -/
theorem errorOf_rngFill {s addr len} (hc : RngReady s) (hr : addr.toNat + len.toNat ≤ 2 ^ 64) :
    errorOf (.rngFill addr len) s = none := by
  obtain ⟨h1, h2, h3⟩ := hc
  have : pastTheTop (.rngFill addr len) = false := decide_eq_false (show ¬ (2 ^ 64 < addr.toNat +
      len.toNat) by omega)
  unfold errorOf
  simp [operandsLegal, Instr.legal, kind, wrongMode, badLength, h1, h2, this, h3, exhausts]

/-- A ready adapter's commands meet no error but an illegal operand or the range. -/
theorem errorOf_rng {i s} (hc : RngReady s) (hk : kind i = .rng) (hl : operandsLegal i s.caps =
    true) (hp : pastTheTop i = false) : errorOf i s = none := by
  obtain ⟨h1, h2, h3⟩ := hc
  have hb : badLength i = false := by cases i <;> first | rfl | cases hk
  have hx : exhausts i s = false := by cases i <;> first | rfl | cases hk
  have hw : wrongMode i s = false := by simp [wrongMode, hk, h3]
  unfold errorOf; rw [hp, hl, hb, hx, hw]; simp [h1, h2]

/-- INIT with legal fields and the right lengths meets no error. -/
theorem errorOf_init {s : State} {fam pol rnd r bsel} {key nonce : List Byte} (hf : s.fault =
    false) (hv : legalVariant fam pol = true) (hr : roundsOf rnd = some r) (hb : bsel.toNat < 6)
    (hk : key.length = 32) (hn : nonce.length = nonceBytes pol) :
    errorOf (.init fam pol rnd bsel key nonce) s = none := by
  have h1 : operandsLegal (.init fam pol rnd bsel key nonce) s.caps = true := by
    simp [operandsLegal, Instr.legal, hv, hr, legalBsel, hb]
  have h2 : badLength (.init fam pol rnd bsel key nonce) = false := by simp [badLength, hk, hn]
  unfold errorOf
  rw [pastTheTop_of_no_region _ rfl, h1, h2]
  simp [kind, hf, wrongMode, exhausts]

/-- Not exhausted: the counter stays below its range. -/
theorem lt_of_not_wouldExhaust {s : State} {n} (h : wouldExhaust s n = false) : s.ctr + need
    s.avail n < 2 ^ widthBits s.width := by
  have : ¬ (ctrMax s.width < s.ctr + need s.avail n) := by
    rw [← exhaustedBy_eq] at h; simpa [State.exhaustedBy] using h
  unfold ctrMax at this
  have := Nat.two_pow_pos (widthBits s.width)
  omega

/-- Exhaustion as an inequality. -/
theorem wouldExhaust_eq_false {s : State} {n} : wouldExhaust s n = false ↔ s.ctr + need s.avail n <
    2 ^ widthBits s.width := by
  refine ⟨lt_of_not_wouldExhaust, fun h => ?_⟩
  rw [← exhaustedBy_eq]
  have := Nat.two_pow_pos (widthBits s.width)
  unfold State.exhaustedBy ctrMax; exact decide_eq_false (by omega)

/-- SEEK's refusals as inequalities. -/
theorem seekPast_eq_true {s n} : seekPast s n = true ↔ (2 ^ widthBits s.width - 1 < n / 64 ∨ (n %
    64 ≠ 0 ∧ 2 ^ widthBits s.width - 1 < n / 64 + 1)) := by
  simp [seekPast]

/-- A command that runs leaves `FAULT` alone. -/
theorem bodyOf_fault (i s) : (bodyOf i s).fault = s.fault := (bodyOf_ports i s).2.2.2

end Sys2Proof.Machine
end

