-- ==== Sys2Proof/Laws/Body.lean ====
section
/-! SUPPORT. What a command that runs does, field by field: the words of its response, the data, the state
words, the buffer, the position (43_stream_engine.md R213 to R222; 45_rng_adapter.md R271 to R281). -/

namespace Sys2Proof.Machine

open Safety

/-- An OK response with no payload. -/
theorem respond_nil (s : State) : s.respond [] = { s with resp := [0] } := rfl

/-- The header of a one-word payload. -/
theorem responseHeader_word (w : Word) : responseHeader .ok (bytesLE w).length = 0x400 := by
  have : (bytesLE w).length = 4 := by simp [bytesLE]
  rw [this]; rfl

/-- The response to a permutation command. -/
theorem respond_ser (s : State) (y : Words) : s.respond (ser y).toList =
    { s with resp := 0x00004000 :: y.toList } := by
  rw [State.respond, packBytes_ser, Vector.length_toList]
  rfl

/-- The response whose payload is a list of words. -/
theorem respond_words (s : State) (ws : List Word) (h : 4 * ws.length < 2^24): s.respond
    (ws.flatMap bytesLE) = { s with resp := BitVec.ofNat 32 (256 * (4 * ws.length)) :: ws } := by
  rw [State.respond, packBytes_flatMap_bytesLE, length_flatMap_bytesLE, responseHeader_ok _ h]

/-- The little-endian words of a byte string are its packet words (20_memory.md R63; 30_encoding.md R91). -/
theorem wordLE_eq_packBytes (bs : List Byte) (i : Nat) (h : 4 * i < bs.length) : wordLE bs i =
    (packBytes bs).getD i 0 := by
  have hi : i < wordsFor bs.length := by unfold wordsFor; omega
  rw [List.getD_eq_getElem _ _ (by simpa using hi)]
  simp [packBytes, wordLE, le32, packetWord]

/-- The four words of a 128-bit number. -/
theorem qwordWords_ofNat (n : Nat) : [BitVec.ofNat 32 n, BitVec.ofNat 32 (n / 2 ^ 32), BitVec.ofNat
    32 (n / 2 ^ 64), BitVec.ofNat 32 (n / 2 ^ 96)] = qwordWords (BitVec.ofNat 128 n) := by
  have h : ∀ k, k + 32 ≤ 128 → BitVec.ofNat 32 (n / 2 ^ k) = (BitVec.ofNat 128 n).extractLsb' k 32
      := by
    intro k hk
    apply BitVec.eq_of_getLsbD_eq
    intro i hi
    rw [BitVec.getLsbD_extractLsb', BitVec.getLsbD_ofNat, BitVec.getLsbD_ofNat,
        Nat.testBit_div_two_pow]
    have : k + i < 128 := by omega
    simp [hi, this, Nat.add_comm]
  have h0 := h 0 (by decide)
  rw [Nat.pow_zero, Nat.div_one] at h0
  rw [qwordWords, h0, h 32 (by decide), h 64 (by decide), h 96 (by decide)]

/-- The response whose payload is a 128-bit number. -/
theorem respond_natBytes16 (s : State) (n : Nat) : s.respond (natBytes 16 n) =
    { s with resp := 0x00001000 :: qwordWords (BitVec.ofNat 128 n) } := by
  rw [State.respond, packBytes_natBytes16, natBytes_length, qwordWords_ofNat]
  rfl

/-- A legal `RND` field gives its round count. -/
theorem fieldRounds_of_roundsOf {rnd r} (h : roundsOf rnd = some r) : fieldRounds rnd = r := by
    simp [fieldRounds, h]

/-- No backend is wider than 16 blocks (42_backends.md R183). -/
theorem parOf_le (b) : parOf b ≤ 16 := by cases b <;> decide

/-- A legal `NBLK` is at most 16. -/
theorem nblk_le {fam pol rnd bsel nblk x cb} {caps} (hl : operandsLegal (.gen fam pol rnd bsel nblk
    x cb) caps = true) : nblk.toNat ≤ 16 := by
  simp [operandsLegal] at hl
  have := parOf_le (select bsel caps)
  omega

/-- The blocks of GEN and GENX are a run of keystream. -/
theorem genBlocks_eq_ksBytes (fam w rc x cb n) : genBlocks fam w rc x cb n = ksBytes fam w rc x (64
    * cb) (64 * n) := by
  induction n with
  | zero => rfl
  | succ n ih =>
    have : genBlocks fam w rc x cb (n+1) = genBlocks fam w rc x cb n ++ (blockAt fam w rc x ((cb +
        n) % 2 ^ widthBits w)).toList := by
      simp [genBlocks, List.range_succ]
    rw [this, ih, blockAt_mod, block_toList, Nat.mul_succ, ksBytes_append]
    congr 2; omega

/-- Their length. -/
theorem genBlocks_length (fam w rc x cb n) : (genBlocks fam w rc x cb n).length = 64 * n := by
  rw [genBlocks_eq_ksBytes, ksBytes_length]

/-- Double-rounds are an iterate of one. -/
theorem doubleRounds_eq_iterate (fam n x) : doubleRounds fam n x = (doubleRound fam)^[n] x := by
  induction n generalizing x with
  | zero => rfl
  | succ n ih => exact ih _

/-- Counter arithmetic changes the counter words only (10_state.md R25). -/
theorem withCounter_other (fam pol c) (x : Words) (k : Fin 16) (h : isCounterWord fam pol k =
    false) : (withCounter fam (ctrWidth fam pol) c x)[k] = x[k] := by
  unfold isCounterWord at h
  rw [Fin.getElem_fin, Fin.getElem_fin]
  revert h
  cases ctrWidth fam pol <;> cases fam <;> simp only [withCounter] <;> intro h <;> simp only
      [Vector.getElem_set] <;>
    simp [Fin.ext_iff] at h
  · rw [if_neg (fun e => h e.symm)]
  · rw [if_neg (fun e => h e.symm)]
  · rw [if_neg (fun e => h.2 e.symm), if_neg (fun e => h.1 e.symm)]
  · rw [if_neg (fun e => h.2 e.symm), if_neg (fun e => h.1 e.symm)]

/-- The same, for the engine's own configuration. -/
theorem withCounter_other_of (s : State) (c) (x : Words) (k : Fin 16) (h : isCounterWord s.fam
    s.pol k = false) : (withCounter s.fam s.width c x)[k] = x[k] := withCounter_other _ _ _ _ _ h

/-- A move to a position changes the counter words only. -/
theorem moveTo_other (s : State) (b r) (k : Fin 16) (h : isCounterWord s.fam s.pol k = false) :
    (s.moveTo b r).words[k] = s.words[k] := by
  rw [State.moveTo_eq]; exact withCounter_other_of s _ _ _ h

/-- Replacing the stream words changes `S[13..15]` only (45_rng_adapter.md R271). -/
theorem setStream_other (s : State) (a b c : Word) (k : Fin 16) (h : k.val < 13) :
    (s.setStream a b c).words[k] = s.words[k] := by
  simp only [State.setStream, Fin.getElem_fin, Vector.getElem_set]
  rw [if_neg (by omega), if_neg (by omega), if_neg (by omega)]

/-- The state after a region command that runs, field by field. -/
theorem applyCore_respond (s : State) (op : DataOp) (a n : Nat) :
    (s.applyCore op a n).respond [] = { s with
      words := (s.applyCore op a n).words
      buf := (s.applyCore op a n).buf
      off := (s.applyCore op a n).off
      mem := (s.applyCore op a n).mem
      resp := [0] } := by
  rw [respond_nil]
  conv_lhs => rw [State.applyCore_frame]

/-- The keystream bytes a region command uses, whatever the buffer holds: the buffered tail, then whole
and partial blocks from `CTR` on. -/
def coreBytes (s : State) (len : Nat) : List Byte :=
  (s.buf.toList.drop s.off.toNat).take (min len s.avail)
    ++ s.ks (64 * s.ctr) (len - min len s.avail)

/-- The buffered tail is as long as asked for. -/
theorem tail_length (s : State) (t : Nat) (h : t ≤ s.avail) : ((s.buf.toList.drop s.off.toNat).take
    t).length = t := by
  by_cases h0 : s.off = 0
  · rw [State.avail_of_eq h0] at h
    obtain rfl : t = 0 := by omega
    simp
  · rw [State.avail_of_ne h0] at h; simp; omega

/-- They are as many as asked for. -/
theorem coreBytes_length (s n) : (coreBytes s n).length = n := by
  rw [coreBytes, List.length_append, tail_length _ _ (Nat.min_le_right _ _), State.ks_length]; omega

/-- The data after a region command, without any premise on the buffer. -/
theorem applyCore_mem_eq (s : State) (op : DataOp) (a len : Nat) : (s.applyCore op a len).mem =
    streamBytes op s.mem a (coreBytes s len) := by
  unfold State.applyCore
  rw [State.lastPart_mem _ _ _ (by omega), State.wholeBlocks_mem, State.wholeBlocks_ctr,
    State.wholeBlocks_ks, State.ks_drain, State.ks_drain, State.ctr_drain, State.width_drain,
    State.ks_mod, State.drain_mem]
  rw [coreBytes, streamBytes_append, tail_length _ _ (Nat.min_le_right _ _)]
  generalize len - min len s.avail = k
  conv_rhs => rw [show k = 64 * (k / 64) + k % 64 by omega, State.ks_append, streamBytes_append,
      State.ks_length]
  rw [Nat.mul_add]

/-- The buffer after a region command. -/
theorem applyCore_buf_eq (s : State) (op : DataOp) (a len : Nat) : (s.applyCore op a len).buf =
   if (len - min len s.avail) % 64 = 0 then s.buf else blockAt s.fam s.width (roundCount s.rnd)
       s.words (s.ctr + (len - min len s.avail) / 64) := by
  unfold State.applyCore
  rw [State.lastPart_buf]
  split
  · simp
  · rw [State.width_wholeBlocks, State.wholeBlocks_fam, State.wholeBlocks_rnd,
      State.wholeBlocks_words, State.wholeBlocks_ctr]
    simp only [State.drain_fam, State.width_drain, State.drain_rnd, State.drain_words,
        State.ctr_drain, blockAt_withCounter]
    rw [blockAt_mod]

/-- A region of no bytes changes nothing. -/
theorem applyCore_zero (s : State) (op a) : s.applyCore op a 0 = s := by
  have hn : need s.avail 0 = 0 := by simp [need]
  rw [State.applyCore_frame]
  have h1 : (s.applyCore op a 0).words = s.words := by
    rw [State.applyCore_words, hn]; exact withCounter_counterOf _ _ _
  have h2 : (s.applyCore op a 0).off = s.off := by
    rw [State.applyCore_off]; apply BitVec.eq_of_toNat_eq; simp
  have h3 : (s.applyCore op a 0).mem = s.mem := by
    unfold State.applyCore
    simp only [Nat.zero_min, Nat.sub_zero, Nat.zero_div, Nat.zero_mod]
    rw [State.lastPart_mem _ _ _ (by omega), State.wholeBlocks_mem, State.drain_mem]; rfl
  have h4 : (s.applyCore op a 0).buf = s.buf := by
    unfold State.applyCore
    rw [State.lastPart_buf, State.wholeBlocks_buf, State.drain_buf]; simp
  rw [h1, h2, h3, h4]

/-- Reading a byte after a run of keystream was combined into the data. -/
theorem read_streamBytes_ks (op : DataOp) (m : Memory) (ad n : Nat) (s : State) (p a : Nat) :
   (streamBytes op m ad (s.ks p n)).read a = if ad ≤ a ∧ a < ad + n then combine op (m.read a)
       (keystream s (p + (a - ad))) else m.read a := by
    split
    · rename_i h
      obtain ⟨i, rfl⟩ := Nat.exists_eq_add_of_le h.1
      rw [read_streamBytes_inside _ _ _ _ _ (by simp; omega)]
      unfold State.ks keystream
      rw [getElem_ksBytes]
      congr 2; omega
    · rename_i h
      rcases Nat.lt_or_ge a ad with h1 | h1
      · exact read_streamBytes_below _ _ _ h1
      · exact read_streamBytes_above _ _ _ (by simp; omega)

/-- A valid buffer holds the block of the current position. -/
theorem bufferValid_block {s} (hb : BufferValid s) (hi : s.inited = true) : s.off ≠ 0 → s.buf =
    blockAt s.fam s.width (roundCount s.rnd) s.words s.blockIndex := by
  intro h; rw [State.blockIndex_of_ne h]; exact (hb hi h).1

/-- The position by cases (10_state.md R31). -/
theorem pos_cases (s : State) : s.pos = if s.off = 0 then 64 * s.ctr
      else 64 * ((s.ctr + 2 ^ widthBits s.width - 1) % 2 ^ widthBits s.width) + s.off.toNat := by
  unfold State.pos State.blockIndex; split
  · rename_i h; rw [h]; rfl
  · rfl

/-- A cipher command advances the position by its length. -/
theorem applyCore_position (s : State) (op a n) (hb : s.off ≠ 0 → s.pol ≠ .rng → 1 ≤ s.ctr) (hp :
    s.pol ≠ .rng) (hx : s.ctr + need s.avail n < 2 ^ widthBits s.width) :
   (s.applyCore op a n).pos = s.pos + n := by
  have hlt := s.off.isLt
  have hc := State.applyCore_ctr s op a n
  rw [Nat.mod_eq_of_lt hx] at hc
  have ho := congrArg BitVec.toNat (State.applyCore_off s op a n)
  rw [BitVec.toNat_ofNat] at ho
  have hpos : ∀ t : State, (t.off ≠ 0 → 1 ≤ t.ctr) → t.ctr < 2 ^ widthBits t.width → t.pos = if
      t.off.toNat = 0 then 64 * t.ctr else 64 * (t.ctr - 1) + t.off.toNat := by
    intro t h1 h2
    unfold State.pos State.blockIndex
    by_cases h : t.off = 0
    · rw [if_pos h, if_pos (off_toNat_eq_zero.2 h), h]; rfl
    · rw [if_neg h, if_neg (fun e => h (off_toNat_eq_zero.1 e))]
      have := h1 h
      rw [show t.ctr + 2 ^ widthBits t.width - 1 = t.ctr - 1 + 2 ^ widthBits t.width by omega,
          Nat.add_mod_right, Nat.mod_eq_of_lt (by omega)]
  have hneed : need s.avail n = if n ≤ s.avail then 0 else (n - s.avail + 63) / 64 := rfl
  have hav : s.avail = if s.off.toNat = 0 then 0 else 64 - s.off.toNat := by
    unfold State.avail
    by_cases h : s.off = 0
    · rw [if_pos h, if_pos (off_toNat_eq_zero.2 h)]
    · rw [if_neg h, if_neg (fun e => h (off_toNat_eq_zero.1 e))]
  have hb' : s.off.toNat ≠ 0 → 1 ≤ s.ctr := fun h => hb (fun e => h (off_toNat_eq_zero.2 e)) hp
  rw [hpos s (fun h => hb h hp) s.ctr_lt, hpos (s.applyCore op a n) ?_ (State.ctr_lt _), hc, ho]
  · rw [hneed, hav]
    by_cases h0 : s.off.toNat = 0
    · simp only [h0, if_true]
      split <;> split <;> omega
    · have := hb' h0
      simp only [h0, if_false]
      split <;> split <;> omega
  · intro h
    have h' : (s.off.toNat + n) % 2 ^ 6 ≠ 0 := by rw [← ho]; exact fun e => h (off_toNat_eq_zero.1
        e)
    rw [hc, hneed, hav]
    by_cases h0 : s.off.toNat = 0
    · simp only [h0, if_true]
      rw [h0] at h'
      split <;> omega
    · have := hb' h0
      simp only [h0, if_false]
      omega

/-- The buffered tail after a region command. -/
theorem avail_applyCore (s : State) (op a m) : ((s.applyCore op a m).respond []).avail = if
    (s.off.toNat + m) % 64 = 0 then 0 else 64 - (s.off.toNat + m) % 64 := by
  have ho2 := congrArg BitVec.toNat (State.applyCore_off s op a m)
  rw [BitVec.toNat_ofNat] at ho2
  have : ((s.applyCore op a m).respond []).off = (s.applyCore op a m).off := rfl
  unfold State.avail
  rw [this]
  by_cases h : (s.applyCore op a m).off = 0
  · rw [if_pos h, if_pos (by rw [← off_toNat_eq_zero, ho2] at h; exact h)]
  · rw [if_neg h, if_neg (by intro e; apply h; rw [← off_toNat_eq_zero, ho2]; exact e), ho2]

/-- `Need` of a region in two parts. -/
theorem need_applyCore_add (s : State) (m n : Nat) (op a) :
  need s.avail (m + n) = need s.avail m + need (((s.applyCore op a m).respond []).avail) n := by
  rw [avail_applyCore]
  have hlt := s.off.isLt
  have hav : s.avail = if s.off.toNat = 0 then 0 else 64 - s.off.toNat := by
    unfold State.avail
    by_cases h : s.off = 0
    · rw [if_pos h, if_pos (off_toNat_eq_zero.2 h)]
    · rw [if_neg h, if_neg (fun e => h (off_toNat_eq_zero.1 e))]
  rw [hav]
  unfold need
  split <;> split <;> split <;> split <;> split <;> omega

/-- What each command does to the data. -/
theorem bodyOf_mem (i : Instr) (s : State) : (bodyOf i s).mem = match i with
  | .genx fam pol rnd _ nblk x cb addr => streamBytes .xor s.mem addr.toNat (genBlocks fam
      (ctrWidth fam pol) (roundCount (fieldRounds rnd)) x cb.toNat nblk.toNat)
  | .apply a n => streamBytes .xor s.mem a.toNat (coreBytes s n.toNat)
  | .tryApply a n => streamBytes .xor s.mem a.toNat (coreBytes s n.toNat)
  | .rngFill a n => streamBytes .store s.mem a.toNat (coreBytes s n.toNat)
  | _ => s.mem := by
  cases i
  case apply a n => exact applyCore_mem_eq _ _ _ _
  case tryApply a n => exact applyCore_mem_eq _ _ _ _
  case rngFill a n => exact applyCore_mem_eq _ _ _ _
  case seek v => simp only [bodyOf, State.moveTo_eq]; rfl
  case rngSetWp v => simp only [bodyOf, State.setWordPos_eq, State.moveTo_eq]; rfl
  case rngLoad a b c v => simp only [bodyOf, State.setWordPos_eq, State.moveTo_eq]; rfl
  case rngSetStr v => simp only [bodyOf, State.switchStream_eq]; rfl
  all_goals rfl

/-- What each command does to the state words. -/
theorem bodyOf_words (i : Instr) (s : State) : (bodyOf i s).words = match i with
  | .apply _ n => withCounter s.fam s.width (s.ctr + need s.avail n.toNat) s.words
  | .tryApply _ n => withCounter s.fam s.width (s.ctr + need s.avail n.toNat) s.words
  | .rngFill _ n => withCounter s.fam s.width (s.ctr + need s.avail n.toNat) s.words
  | .seek v => (s.moveTo (v.toNat / 64) (v.toNat % 64)).words
  | .rngSetWp v => (s.setWordPos v).words
  | .rngSetStr v => ((s.words.set 13 (v.extractLsb' 0 32)).set 14 (v.extractLsb' 32 32)).set 15
      (v.extractLsb' 64 32)
  | .rngLoad a b c v => ((s.setStream a b c).setWordPos v).words
  | .init f p r _ k n => initialWords f p (roundCount (fieldRounds r)) k n
  | .zeroize => Vector.replicate 16 0
  | _ => s.words := by
  cases i
  case apply a n => exact State.applyCore_words _ _ _ _
  case tryApply a n => exact State.applyCore_words _ _ _ _
  case rngFill a n => exact State.applyCore_words _ _ _ _
  case rngSetStr v => simp only [bodyOf, State.switchStream_eq]; rfl
  all_goals rfl

/-- The adapter runs on the ChaCha layout with a 32-bit counter (45_rng_adapter.md R270). -/
theorem rng_width {s} (hc : RngReady s) (hl : ConfigLegal s) : s.fam = .chacha ∧ s.width = .w32 :=
    by
  have := hl.1 hc.2.1
  rw [hc.2.2] at this
  have hf : s.fam = .chacha := by revert this; cases s.fam <;> simp [legalVariant]
  refine ⟨hf, ?_⟩
  rw [State.width, hf, hc.2.2]; rfl

/-- So its counter is `S[12]`. -/
theorem rng_ctr {s} (hc : RngReady s) (hl : ConfigLegal s) : s.ctr = s.words[12].toNat := by
  obtain ⟨h1, h2⟩ := rng_width hc hl
  rw [State.ctr, h2]; rfl

/-- The word position (45_rng_adapter.md R276). -/
theorem rng_wordPos {s} (hc : RngReady s) (hl : ConfigLegal s) : s.wordPos = (16 * (if s.off = 0
    then s.words[12].toNat else (s.words[12].toNat + 2 ^ 32 - 1) % 2 ^ 32) + s.off.toNat / 4) % 2 ^
    36 := by
  unfold State.wordPos State.blockIndex
  rw [(rng_width hc hl).2, rng_ctr hc hl]; rfl

/-- The adapter's move to word `j` of block `b` (45_rng_adapter.md R275). -/
theorem rng_moveTo {s} (hc : RngReady s) (hl : ConfigLegal s) (b j : Nat) (hb : b < 2 ^ 32) :
   s.moveTo b (4 * j) = { s with
          words := s.words.set 12 (BitVec.ofNat 32 (if j = 0 then b else b + 1))
          buf := if j = 0 then s.buf else blockAt .chacha .w32 (roundCount s.rnd) s.words b
          off := BitVec.ofNat 6 (4 * j) } := by
  obtain ⟨h1, h2⟩ := rng_width hc hl
  rw [State.moveTo_eq, h1, h2]
  by_cases hj : j = 0
  · subst hj; rfl
  · rw [if_neg (by omega), if_neg (by omega), if_neg hj, if_neg hj]
    simp only [withCounter, widthBits, Nat.mod_eq_of_lt hb]

/-- A 128-bit number from its four words. -/
theorem qwordWords_join (v : QWord) : (v.extractLsb' 96 32 ++ v.extractLsb' 64 32 ++ v.extractLsb'
    32 32 ++ v.extractLsb' 0 32 : QWord) = v := by
  apply BitVec.eq_of_getLsbD_eq
  intro k hk
  simp only [BitVec.getLsbD_append, BitVec.getLsbD_extractLsb']
  split
  · simp [*]
  · split
    · rename_i h1 h2; simp [h2]; congr 1; omega
    · split
      · rename_i h1 h2 h3; simp [h3]; congr 1; omega
      · rename_i h1 h2 h3; rw [decide_eq_true (by omega)]; simp; congr 1; omega

end Sys2Proof.Machine
end

