-- ==== Sys2Proof/Laws/PerInstr.lean ====
section
/-! SUPPORT. A statement made of every instruction (30_encoding.md R90, R111): its packet has exactly
as many words as the packet's own header asks for. One lemma per constructor. -/

namespace Sys2Proof.Laws.PacketLength

open Sys2Proof Machine

/-- The encoder writes the whole packet and nothing after it. -/
def Statement (i : Instr) : Prop :=
  i.encodable = true → (encode i).length = packetWords ((encode i).headD 0)

/-- The packet length depends on the row of the opcode byte. -/
theorem packetWords_of_row {w : Word} {r : Row} (h : rowOf w = some r) :
    packetWords w = formatWords r.fmt w := by simp [packetWords, h]

/-- The low byte of a header is its opcode. -/
theorem opc_append (v : BitVec 24) (o : Byte) : bits (v ++ o) 0 8 = o := by
  rw [bits, BitVec.extractLsb'_append_eq_of_add_le (by decide), BitVec.extractLsb'_eq_self]

theorem words_of_header (v : BitVec 24) (o : Byte) {r : Row}
    (h : opcodeTable.find? (fun r => r.opc == o) = some r) :
    packetWords (v ++ o) = formatWords r.fmt (v ++ o) :=
  packetWords_of_row (by rw [rowOf, opc_append]; exact h)

theorem qr (fam : Family) (a b c d : Fin 16) (x : Words) : Statement (.qr fam a b c d x) := fun _ => by
  simp only [encode, List.headD_cons, List.length_cons, Vector.length_toList]
  exact (words_of_header _ 0x01 (by rfl)).symm

theorem dround (fam : Family) (x : Words) : Statement (.dround fam x) := fun _ => by
  simp only [encode, List.headD_cons, List.length_cons, Vector.length_toList]
  exact (words_of_header _ 0x02 (by rfl)).symm

theorem rounds (fam : Family) (rc : BitVec 8) (x : Words) : Statement (.rounds fam rc x) := fun _ => by
  simp only [encode, List.headD_cons, List.length_cons, Vector.length_toList]
  exact (words_of_header _ 0x03 (by rfl)).symm

theorem permnf (fam : Family) (rc : BitVec 8) (x : Words) : Statement (.permnf fam rc x) := fun _ => by
  simp only [encode, List.headD_cons, List.length_cons, Vector.length_toList]
  exact (words_of_header _ 0x04 (by rfl)).symm

theorem hderive (fam : Family) (rnd : BitVec 2) (key : Vector Byte 32) (inp : Vector Byte 16) :
    Statement (.hderive fam rnd key inp) := fun _ => by
  simp only [encode, List.headD_cons, List.length_cons, List.length_append, packBytes_length,
    Vector.length_toList]
  exact (words_of_header _ 0x05 (by rfl)).symm

theorem bsize : Statement .bsize := fun _ => rfl

theorem maxpar (bsel : BitVec 3) : Statement (.maxpar bsel) := fun _ => by
  simp only [encode, List.headD_cons, List.length_cons, List.length_nil]
  exact (words_of_header _ 0x11 (by rfl)).symm

theorem gen (fam : Family) (pol : Policy) (rnd : BitVec 2) (bsel : BitVec 3) (nblk : BitVec 8)
    (x : Words) (cb : DWord) : Statement (.gen fam pol rnd bsel nblk x cb) := fun _ => by
  simp only [encode, dwordWords, List.headD_cons, List.length_cons, List.length_append,
    List.length_nil, Vector.length_toList]
  exact (words_of_header _ 0x12 (by rfl)).symm

theorem genx (fam : Family) (pol : Policy) (rnd : BitVec 2) (bsel : BitVec 3) (nblk : BitVec 8)
    (x : Words) (cb addr : DWord) : Statement (.genx fam pol rnd bsel nblk x cb addr) := fun _ => by
  simp only [encode, dwordWords, List.headD_cons, List.length_cons, List.length_append,
    List.length_nil, Vector.length_toList]
  exact (words_of_header _ 0x13 (by rfl)).symm

/-- The two length fields of an INIT header. -/
theorem init_header (nlen klen : Byte) (bsel : BitVec 3) (rnd pol : BitVec 2) (fam : BitVec 1) (o : Byte) :
    bits (nlen ++ klen ++ bsel ++ rnd ++ pol ++ fam ++ o) 16 8 = klen
      ∧ bits (nlen ++ klen ++ bsel ++ rnd ++ pol ++ fam ++ o) 24 8 = nlen := by
  constructor
  · rw [bits]
    iterate 5 rw [BitVec.extractLsb'_append_eq_of_le (by decide)]
    rw [BitVec.extractLsb'_append_eq_of_add_le (by decide)]
    exact BitVec.extractLsb'_eq_self
  · rw [bits]
    iterate 6 rw [BitVec.extractLsb'_append_eq_of_le (by decide)]
    exact BitVec.extractLsb'_eq_self

/-- INIT is the one packet whose length the header's own fields carry, hence the premise. -/
theorem init (fam : Family) (pol : Policy) (rnd : BitVec 2) (bsel : BitVec 3) (key nonce : List Byte) :
    Statement (.init fam pol rnd bsel key nonce) := fun h => by
  simp only [Instr.encodable, Bool.and_eq_true, decide_eq_true_eq] at h
  simp only [encode, List.headD_cons, List.length_cons, List.length_append, packBytes_length]
  have hw := words_of_header (BitVec.ofNat 8 nonce.length ++ BitVec.ofNat 8 key.length ++ bsel ++ rnd
    ++ polCode pol ++ famCode fam) 0x20 (r := ⟨0x20, .init, .I, 0x000000FF⟩) (by rfl)
  obtain ⟨hk, hn⟩ := init_header (BitVec.ofNat 8 nonce.length) (BitVec.ofNat 8 key.length) bsel rnd
    (polCode pol) (famCode fam) 0x20
  rw [formatWords, hk, hn, BitVec.toNat_ofNat, BitVec.toNat_ofNat, Nat.mod_eq_of_lt h.1,
    Nat.mod_eq_of_lt h.2] at hw
  exact (Nat.add_comm _ 1).trans ((Nat.add_assoc 1 _ _).symm.trans hw.symm)

theorem apply (addr len : DWord) : Statement (.apply addr len) := fun _ => rfl
theorem tryApply (addr len : DWord) : Statement (.tryApply addr len) := fun _ => rfl
theorem seek (v : QWord) : Statement (.seek v) := fun _ => rfl
theorem getPos : Statement .getPos := fun _ => rfl
theorem rdStat : Statement .rdStat := fun _ => rfl
theorem zeroize : Statement .zeroize := fun _ => rfl
theorem rngFill (addr len : DWord) : Statement (.rngFill addr len) := fun _ => rfl
theorem rngGetWp : Statement .rngGetWp := fun _ => rfl
theorem rngSetWp (v : QWord) : Statement (.rngSetWp v) := fun _ => rfl
theorem rngGetStr : Statement .rngGetStr := fun _ => rfl
theorem rngSetStr (v : QWord) : Statement (.rngSetStr v) := fun _ => rfl
theorem rngSave : Statement .rngSave := fun _ => rfl
theorem rngLoad (id0 id1 id2 : Word) (wp : QWord) : Statement (.rngLoad id0 id1 id2 wp) := fun _ => rfl

end Sys2Proof.Laws.PacketLength
end

