-- ==== Sys2Proof/Machine/Assembler.lean ====
section
/-! DEFINITION. The assembler notation of 30_encoding.md: what a line of R112 is, the line that writes
a command, its text, and the pseudo-commands of R113 as the commands they stand for. Notation only:
no step uses this file. -/

namespace Sys2Proof.Machine

/-- An operand as R112 writes it. -/
inductive AsmOperand where
  | number (n : Nat)
  | name (s : String)
  | bytes (bs : List Byte)
  | words (ws : List Word)
  deriving DecidableEq, Repr

/-- `MNEMONIC[.suffix] operand, operand, ...` (R112). -/
structure AsmLine where
  mnemonic : String
  suffix : Option String
  operands : List AsmOperand
  deriving DecidableEq, Repr

/-- `.C` for FAM 0, `.S` for FAM 1. -/
def famSuffix : Family → String
  | .chacha => "C"
  | .salsa => "S"

/-- The variant names of R98; none for the reserved pairs. -/
def variantName : Family → Policy → Option String
  | .chacha, .standard => some "CHACHA"
  | .chacha, .legacy => some "CHACHA_LEGACY"
  | .chacha, .extended => some "XCHACHA"
  | .chacha, .rng => some "CHACHA_RNG"
  | .salsa, .legacy => some "SALSA"
  | .salsa, .extended => some "XSALSA"
  | .salsa, .standard => none
  | .salsa, .rng => none

/-- The backend selectors of R112; none for the reserved values. -/
def selectorName (bsel : BitVec 3) : Option String :=
  ["AUTO", "SOFT", "SSE2", "AVX2", "AVX512", "NEON"][bsel.toNat]?

/-- The line that writes a command; none where a field has a reserved value, which the notation cannot
write. -/
def asmOf : Instr → Option AsmLine
  | .qr fam a b c d x => some ⟨"QR", some (famSuffix fam),
      [.number a.val, .number b.val, .number c.val, .number d.val, .words x.toList]⟩
  | .dround fam x => some ⟨"DROUND", some (famSuffix fam), [.words x.toList]⟩
  | .rounds fam rc x => some ⟨"ROUNDS", some (famSuffix fam), [.number rc.toNat, .words x.toList]⟩
  | .permnf fam rc x => some ⟨"PERMNF", some (famSuffix fam), [.number rc.toNat, .words x.toList]⟩
  | .hderive fam rnd key inp => do
    let r ← roundsOf rnd
    some ⟨"HDERIVE", some (famSuffix fam),
      [.number (roundCount r), .bytes key.toList, .bytes inp.toList]⟩
  | .bsize => some ⟨"BSIZE", none, []⟩
  | .maxpar bsel => do
    let b ← selectorName bsel
    some ⟨"MAXPAR", none, [.name b]⟩
  | .gen fam pol rnd bsel nblk x cb => do
    let v ← variantName fam pol
    let r ← roundsOf rnd
    let b ← selectorName bsel
    some ⟨"GEN", some v,
      [.number (roundCount r), .name b, .number nblk.toNat, .words x.toList, .number cb.toNat]⟩
  | .genx fam pol rnd bsel nblk x cb addr => do
    let v ← variantName fam pol
    let r ← roundsOf rnd
    let b ← selectorName bsel
    some ⟨"GENX", some v,
      [.number (roundCount r), .name b, .number nblk.toNat, .words x.toList, .number cb.toNat,
        .number addr.toNat]⟩
  | .init fam pol rnd bsel key nonce => do
    let v ← variantName fam pol
    let r ← roundsOf rnd
    let b ← selectorName bsel
    some ⟨"INIT", some v, [.number (roundCount r), .name b, .bytes key, .bytes nonce]⟩
  | .apply addr len => some ⟨"APPLY", none, [.number addr.toNat, .number len.toNat]⟩
  | .tryApply addr len => some ⟨"TRYAPPLY", none, [.number addr.toNat, .number len.toNat]⟩
  | .seek v => some ⟨"SEEK", none, [.number v.toNat]⟩
  | .getPos => some ⟨"GETPOS", none, []⟩
  | .rdStat => some ⟨"RDSTAT", none, []⟩
  | .zeroize => some ⟨"ZEROIZE", none, []⟩
  | .rngFill addr len => some ⟨"RNGFILL", none, [.number addr.toNat, .number len.toNat]⟩
  | .rngGetWp => some ⟨"RNGGETWP", none, []⟩
  | .rngSetWp v => some ⟨"RNGSETWP", none, [.number v.toNat]⟩
  | .rngGetStr => some ⟨"RNGGETSTR", none, []⟩
  | .rngSetStr v => some ⟨"RNGSETSTR", none, [.number v.toNat]⟩
  | .rngSave => some ⟨"RNGSAVE", none, []⟩
  | .rngLoad id0 id1 id2 wp => some ⟨"RNGLOAD", none,
      [.bytes (bytesLE id0 ++ bytesLE id1 ++ bytesLE id2), .number wp.toNat]⟩

/-- The two hexadecimal digits of a byte. -/
def hexPair (b : Byte) : String :=
  String.ofList [Nat.digitChar (b.toNat / 16), Nat.digitChar (b.toNat % 16)]

/-- Numbers in decimal, byte strings as digit pairs, first byte first, words as eight digits (R112). -/
def operandText : AsmOperand → String
  | .number n => toString n
  | .name s => s
  | .bytes bs => String.join (bs.map hexPair)
  | .words ws => String.intercalate " " (ws.map fun w =>
      String.join [hexPair (byteOf w 3), hexPair (byteOf w 2), hexPair (byteOf w 1), hexPair (byteOf w 0)])

/-- The text of a line. -/
def asmText (l : AsmLine) : String :=
  let head := match l.suffix with
    | some v => l.mnemonic ++ "." ++ v
    | none => l.mnemonic
  match l.operands with
  | [] => head
  | ops => head ++ " " ++ String.intercalate ", " (ops.map operandText)

/-- The pseudo-commands of R113. Those that construct an engine all use
automatic backend selection; `block` forces Soft and one block. -/
inductive Pseudo where
  | encrypt (addr len : DWord)
  | decrypt (addr len : DWord)
  | rewind
  | chacha20 (key nonce : List Byte)
  | chacha12 (key nonce : List Byte)
  | chacha8 (key nonce : List Byte)
  | xchacha20 (key nonce : List Byte)
  | xchacha12 (key nonce : List Byte)
  | xchacha8 (key nonce : List Byte)
  | chacha20Legacy (key nonce : List Byte)
  | salsa20 (key nonce : List Byte)
  | salsa12 (key nonce : List Byte)
  | salsa8 (key nonce : List Byte)
  | xsalsa20 (key nonce : List Byte)
  | hchacha20 (key : Vector Byte 32) (inp : Vector Byte 16)
  | hsalsa20 (key : Vector Byte 32) (inp : Vector Byte 16)
  | block (fam : Family) (pol : Policy) (rnd : Rounds) (x : Words) (cb : DWord)
  deriving DecidableEq, Repr

/-- The expansion of a pseudo-command (R113). -/
def expandPseudo : Pseudo → Instr
  | .encrypt addr len => .apply addr len
  | .decrypt addr len => .apply addr len
  | .rewind => .seek 0
  | .chacha20 key nonce => .init .chacha .standard 2 0 key nonce
  | .chacha12 key nonce => .init .chacha .standard 1 0 key nonce
  | .chacha8 key nonce => .init .chacha .standard 0 0 key nonce
  | .xchacha20 key nonce => .init .chacha .extended 2 0 key nonce
  | .xchacha12 key nonce => .init .chacha .extended 1 0 key nonce
  | .xchacha8 key nonce => .init .chacha .extended 0 0 key nonce
  | .chacha20Legacy key nonce => .init .chacha .legacy 2 0 key nonce
  | .salsa20 key nonce => .init .salsa .legacy 2 0 key nonce
  | .salsa12 key nonce => .init .salsa .legacy 1 0 key nonce
  | .salsa8 key nonce => .init .salsa .legacy 0 0 key nonce
  | .xsalsa20 key nonce => .init .salsa .extended 2 0 key nonce
  | .hchacha20 key inp => .hderive .chacha 2 key inp
  | .hsalsa20 key inp => .hderive .salsa 2 key inp
  | .block fam pol rnd x cb => .gen fam pol (rndCode rnd) 1 1 x cb

end Sys2Proof.Machine
end

