-- ==== Sys2Proof/Tests/Slice0.lean ====
section
/-! SUPPORT. Tests of the model: the well-formedness smoke, decoding of words written out from
30_encoding.md, one-step vectors of 95_test_vectors.md (cited as V<n>), and for every obligation with
premises a concrete state and operands that meet them. -/

set_option maxRecDepth 20000
set_option Elab.async false

namespace Sys2Proof.Tests

open Machine Safety

/-! ### Helpers -/

/-- The bytes of a hexadecimal string of `len` digit pairs, first byte first. -/
def hexBytes (len n : Nat) : List Byte :=
  (List.range len).map fun i => BitVec.ofNat 8 (n / 2 ^ (8 * (len - 1 - i)))

/-- `len` bytes of the data space. -/
def data (s : State) (a len : Nat) : List Byte := (List.range len).map fun i => s.mem.read (a + i)

/-- The state after one step with a packet on the command port. -/
def run (s : State) (p : List Word) : State :=
  match step { s with cmd := p } with
  | .next t => t
  | _ => s

/-- The state after a command. -/
def after (i : Instr) (s : State) : State :=
  match exec i s with
  | .next t => t
  | _ => s

theorem exec_after (i : Instr) (s : State) : exec i s = .next (after i s) := by
  unfold after; rw [exec_eq]

/-- `00 01 .. 1f`. -/
def keySeq : List Byte := (List.range 32).map (BitVec.ofNat 8)
def key80 : List Byte := 0x80 :: List.replicate 31 0
def zeros (n : Nat) : List Byte := List.replicate n 0
def nonce4a : List Byte := hexBytes 12 0x4a00000000

/-- `X[i] = 01010101 * (i + 1)`. -/
def ramp : Words := Vector.ofFn fun i : Fin 16 => BitVec.ofNat 32 (0x01010101 * (i.val + 1))

/-- `X232` of V4. -/
def x232 : Words :=
  #v[0x61707865, 0x3320646e, 0x79622d32, 0x6b206574, 0x03020100, 0x07060504, 0x0b0a0908, 0x0f0e0d0c,
    0x13121110, 0x17161514, 0x1b1a1918, 0x1f1e1d1c, 0x00000001, 0x09000000, 0x4a000000, 0x00000000]

/-- V1's state. -/
def x1 : Words := (x232.set 13 0).set 12 0

/-- `XS80` of V5. -/
def xs80 : Words :=
  #v[0x61707865, 0x00000080, 0, 0, 0, 0x3320646e, 0, 0, 0, 0, 0x79622d32, 0, 0, 0, 0, 0x6b206574]

/-- The engine of V19, freshly constructed. -/
def cipher : State := State.reset.construct .chacha .standard .r20 .soft keySeq nonce4a

/-- V19 after step 1: block 0 in the buffer, ten bytes consumed. -/
def midBlock : State := cipher.moveTo 0 10

/-- V21(a): the last usable block in the buffer, the counter at its maximum. -/
def nearEnd : State := cipher.moveTo 0xfffffffe 10

/-- The engine of V22. -/
def salsa : State := State.reset.construct .salsa .legacy .r20 .soft key80 (zeros 8)

/-- V7(a)'s engine: the ChaCha Legacy layout. -/
def legacy : State := State.reset.construct .chacha .legacy .r20 .soft keySeq (hexBytes 8 0x0001020304050607)

/-- The adapter of V24. -/
def rng : State := State.reset.construct .chacha .rng .r20 .soft (zeros 32) (zeros 12)

/-- The adapter with the stream identifier of V24(d), eight bytes into block 1. -/
def rngMid : State := (rng.setStream 0x04030201 0x08070605 0x0c0b0a09).moveTo 1 8

/-- A faulted engine: V21(c). -/
def faulted : State := { nearEnd with fault := true, err := .counterExhausted }

/-! ### WellFormed smoke: one ill-formed term for each check -/

theorem test_wf_accepts :
    [Instr.qr .chacha 0 1 2 3 ramp, .hderive .salsa 2 (Vector.replicate 32 0) (Vector.replicate 16 0),
      .maxpar 5, .gen .chacha .standard 2 4 16 ramp 0xffffffff, .gen .salsa .legacy 0 0 1 ramp 0xffffffffffffffff,
      .genx .chacha .legacy 1 3 8 ramp 0 0, .init .salsa .extended 2 5 [] (zeros 255),
      .seek 0xffffffffffffffff, .rngSetStr (BitVec.ofNat 128 (2 ^ 96 - 1))].all Instr.wf = true := by
  decide +kernel

theorem test_wf_qr : (Instr.qr .chacha 0 0 1 2 ramp).wf = false ∧ (Instr.qr .salsa 3 1 2 3 ramp).wf = false := by
  decide +kernel

theorem test_wf_round_field :
    (Instr.hderive .chacha 3 (Vector.replicate 32 0) (Vector.replicate 16 0)).wf = false
    ∧ (Instr.gen .chacha .standard 3 0 1 ramp 0).wf = false
    ∧ (Instr.genx .chacha .standard 3 0 1 ramp 0 0).wf = false
    ∧ (Instr.init .chacha .standard 3 0 keySeq nonce4a).wf = false := by decide +kernel

theorem test_wf_backend_field :
    (Instr.maxpar 6).wf = false ∧ (Instr.maxpar 7).wf = false
    ∧ (Instr.gen .chacha .standard 2 6 1 ramp 0).wf = false
    ∧ (Instr.genx .chacha .standard 2 7 1 ramp 0 0).wf = false
    ∧ (Instr.init .chacha .standard 2 6 keySeq nonce4a).wf = false := by decide +kernel

theorem test_wf_variant :
    (Instr.gen .chacha .extended 2 0 1 ramp 0).wf = false
    ∧ (Instr.gen .chacha .rng 2 0 1 ramp 0).wf = false
    ∧ (Instr.genx .salsa .standard 2 0 1 ramp 0 0).wf = false
    ∧ (Instr.init .salsa .standard 2 0 keySeq (zeros 12)).wf = false
    ∧ (Instr.init .salsa .rng 2 0 keySeq (zeros 12)).wf = false := by decide +kernel

theorem test_wf_block_count :
    (Instr.gen .chacha .standard 2 1 0 ramp 0).wf = false
    ∧ (Instr.gen .chacha .standard 2 3 4 ramp 0).wf = false
    ∧ (Instr.genx .chacha .standard 2 1 2 ramp 0 0).wf = false := by decide +kernel

theorem test_wf_counter_base :
    (Instr.gen .chacha .standard 2 1 1 ramp 0x100000000).wf = false
    ∧ (Instr.genx .chacha .standard 2 1 1 ramp 0x100000000 0).wf = false := by decide +kernel

theorem test_wf_lengths :
    (Instr.init .chacha .standard 2 0 (zeros 256) nonce4a).wf = false
    ∧ (Instr.init .chacha .standard 2 0 keySeq (zeros 256)).wf = false := by decide +kernel

theorem test_wf_wide_operands :
    (Instr.seek (BitVec.ofNat 128 (2 ^ 64))).wf = false
    ∧ (Instr.rngSetStr (BitVec.ofNat 128 (2 ^ 96))).wf = false := by decide +kernel

/-! ### Decoding: the words of V17, one packet for every constructor -/

theorem test_decode_permutation :
    decode (0x32100001 :: ramp.toList) = .instr (.qr .chacha 0 1 2 3 ramp) []
    ∧ decode (0xd8720101 :: ramp.toList) = .instr (.qr .salsa 2 7 8 13 ramp) []
    ∧ decode (0x00000102 :: ramp.toList) = .instr (.dround .salsa ramp) []
    ∧ decode (0x00140003 :: ramp.toList) = .instr (.rounds .chacha 20 ramp) []
    ∧ decode (0x000c0104 :: ramp.toList) = .instr (.permnf .salsa 12 ramp) [] := by decide +kernel

theorem test_decode_hderive :
    decode [0x00001105, 0x03020100, 0x07060504, 0x0b0a0908, 0x0f0e0d0c, 0x13121110, 0x17161514, 0x1b1a1918,
      0x1f1e1d1c, 0x09000000, 0x4a000000, 0x00000000, 0x27594131]
    = .instr (.hderive .salsa 2 (Vector.ofFn fun i : Fin 32 => BitVec.ofNat 8 i.val)
        #v[0, 0, 0, 9, 0, 0, 0, 0x4a, 0, 0, 0, 0, 0x31, 0x41, 0x59, 0x27]) [] := by decide +kernel

theorem test_decode_backends :
    decode [0x00000010] = .instr .bsize []
    ∧ decode [0x00006011] = .instr (.maxpar 3) []
    ∧ decode (0x0004a312 :: (ramp.toList ++ [0x89abcdef, 0x01234567]))
      = .instr (.gen .salsa .legacy 0 5 4 ramp 0x0123456789abcdef) []
    ∧ decode (0x00010a13 :: (ramp.toList ++ [0x89abcdef, 0x01234567, 0x44332211, 0x88776655]))
      = .instr (.genx .chacha .legacy 1 0 1 ramp 0x0123456789abcdef 0x8877665544332211) [] := by
  decide +kernel

theorem test_decode_init :
    decode [0x08203320, 0x00000080, 0, 0, 0, 0, 0, 0, 0, 0x04030201, 0x08070605]
      = .instr (.init .salsa .legacy 2 1 key80 [1, 2, 3, 4, 5, 6, 7, 8]) []
    ∧ decode [0x0c206e20, 0, 0, 0, 0, 0, 0, 0, 0x80000000, 0x04030201, 0x08070605, 0x0c0b0a09]
      = .instr (.init .chacha .rng 1 3 (zeros 31 ++ [0x80]) [1, 2, 3, 4, 5, 6, 7, 8, 9, 10, 11, 12]) []
    ∧ decode [0x01021020, 0x0000beef, 0x000000aa] = .instr (.init .chacha .standard 2 0 [0xef, 0xbe] [0xaa]) []
    ∧ decode [0x00001020] = .instr (.init .chacha .standard 2 0 [] []) [] := by decide +kernel

theorem test_decode_engine :
    decode [0x00000021, 0x00001000, 0, 0x00000072, 0] = .instr (.apply 0x1000 114) []
    ∧ decode [0x00000022, 0x00003000, 0, 0x00000036, 0x80000000]
      = .instr (.tryApply 0x3000 0x8000000000000036) []
    ∧ decode [0x00000023, 0xffffff8a, 0x0000003f, 0, 0] = .instr (.seek 0x3fffffff8a) []
    ∧ decode [0x00000024] = .instr .getPos []
    ∧ decode [0x00000025] = .instr .rdStat []
    ∧ decode [0x00000026] = .instr .zeroize [] := by decide +kernel

theorem test_decode_rng :
    decode [0x00000030, 0x00000500, 0, 0x00000008, 0] = .instr (.rngFill 0x500 8) []
    ∧ decode [0x00000031] = .instr .rngGetWp []
    ∧ decode [0x00000032, 0x00000021, 0, 0, 0] = .instr (.rngSetWp 0x21) []
    ∧ decode [0x00000033] = .instr .rngGetStr []
    ∧ decode [0x00000034, 0x04030201, 0x08070605, 0x0c0b0a09, 0]
      = .instr (.rngSetStr 0x0c0b0a090807060504030201) []
    ∧ decode [0x00000035] = .instr .rngSave []
    ∧ decode [0x00000036, 0x04030201, 0x08070605, 0x0c0b0a09, 0x21, 0, 0, 0]
      = .instr (.rngLoad 0x04030201 0x08070605 0x0c0b0a09 0x21) [] := by decide +kernel

/-- The illegal encodings of V17, V2(g), V4(g), V10, V15: the response is `ST = 03`. -/
theorem test_illegal_encodings :
    [[0x00000000], [0x00000037], [0x000000ff], [0x00000125], 0x32000001 :: ramp.toList,
      0x00010002 :: ramp.toList, 0x01000003 :: ramp.toList, 0x00000202 :: ramp.toList,
      0x00001805 :: List.replicate 12 0, 0x00001205 :: List.replicate 12 0, [0x0000c011], [0x0000e011],
      [0x00000111], [0x00000023, 0, 0, 1, 0], [0x00000023, 0, 0, 0, 1], [0x00000034, 0, 0, 0, 1],
      0x0c201820 :: List.replicate 11 0, 0x0c20d020 :: List.replicate 11 0, 0x08201120 :: List.replicate 10 0,
      0x0c1e1020 :: (List.replicate 7 0 ++ [0x00010000, 0, 0, 0])].all
      (fun p => (run State.reset p).resp == [0x00000003] && (run State.reset p).cmd == []) = true := by
  decide +kernel

/-- A short packet is not run, and what follows a packet stays on the port. -/
theorem test_port :
    run State.reset [0x00000023, 0, 0, 0] = { State.reset with cmd := [0x00000023, 0, 0, 0] }
    ∧ (run State.reset [0x00000010, 0x00000025]).cmd = [0x00000025]
    ∧ run State.reset [] = State.reset := by decide +kernel

/-- A word numbered as the opcode table numbers it is fetched and run. -/
theorem test_table_word :
    decodeTableWord 32 0x25 = some .rdStat
    ∧ decodeTableWord 32 0x23 = some (.seek 0)
    ∧ decodeTableWord 64 0x7_00000023 = some (.seek 7)
    ∧ decodeTableWord 32 0x125 = none
    ∧ (run (State.reset.withFetchWord 32 0x10) (State.reset.withFetchWord 32 0x10).cmd).resp
      = [0x00000400, 0x00000040] := by decide +kernel

/-! ### The Permutation Core -/

/-- V2(b). -/
theorem test_qr_chacha :
    run State.reset [0xd8720001, 0x879531e0, 0xc5ecf37d, 0x516461b1, 0xc9a62f8a, 0x44c20ef3, 0x3390af7f,
      0xd9fc690b, 0x2a5f714c, 0x53372767, 0xb00a5631, 0x974c541a, 0x359e9963, 0x5c971061, 0x3d631689,
      0x2098d9d6, 0x91dbd320]
    = { State.reset with resp := [0x00004000, 0x879531e0, 0xc5ecf37d, 0xbdb886dc, 0xc9a62f8a, 0x44c20ef3,
        0x3390af7f, 0xd9fc690b, 0xcfacafd2, 0xe46bea80, 0xb00a5631, 0x974c541a, 0x359e9963, 0x5c971061,
        0xccc07c79, 0x2098d9d6, 0x91dbd320] } := by decide +kernel

/-- V3(a) and (e). -/
theorem test_qr_salsa :
    (run State.reset (0x32100101 :: 1 :: List.replicate 15 0)).resp
      = 0x00004000 :: 0x08008145 :: 0x00000080 :: 0x00010200 :: 0x20500000 :: List.replicate 12 0
    ∧ (run State.reset (0x32100101 :: 0xffffffff :: 1 :: List.replicate 14 0)).resp
      = 0x00004000 :: 0x10040201 :: 0xfffffffe :: 0xfffffbff :: 0xff7fbfff :: List.replicate 12 0 := by
  decide +kernel

/-- V4(a). -/
theorem test_dround_chacha :
    (run State.reset (0x00000002 :: x232.toList)).resp
      = [0x00004000, 0xcd52e917, 0x85ab03b4, 0xb3457395, 0xf96de7dd, 0xc4b7cd22, 0x5c2e187a, 0xc95eb461,
        0x316c801a, 0x7bf7d740, 0x7eddd644, 0xf1a1bdf5, 0x761246ca, 0x6b0d58a3, 0x6798471a, 0xd737f167,
        0xf173888d] := by decide +kernel

/-- V4(b). -/
theorem test_dround_salsa :
    (run State.reset (0x00000102 :: 1 :: List.replicate 15 0)).resp
      = [0x00004000, 0x8186a22d, 0x0040a284, 0x82479210, 0x06929051, 0x08000090, 0x02402200, 0x00004000,
        0x00800000, 0x00010200, 0x20400000, 0x08008104, 0x00000000, 0x20500000, 0xa0000040, 0x0008180a,
        0x612a8020] := by decide +kernel

/-- V5, 20 rounds. -/
theorem test_rounds_chacha :
    (run State.reset (0x00140003 :: x232.toList)).resp
      = [0x00004000, 0xe4e7f110, 0x15593bd1, 0x1fdd0f50, 0xc47120a3, 0xc7f4d1c7, 0x0368c033, 0x9aaa2204,
        0x4e6cd4c3, 0x466482d2, 0x09aa9f07, 0x05d7c214, 0xa2028bd9, 0xd19c12b5, 0xb94e16de, 0xe883d0cb,
        0x4e3c50a2] := by decide +kernel

/-- V5: an odd count acts as the even one below it. -/
theorem test_rounds_odd :
    (run State.reset (0x00030103 :: xs80.toList)).resp
      = [0x00004000, 0xd9383660, 0xbc0114cd, 0x3e73244d, 0x1721e57b, 0x93b874be, 0xa056fea6, 0x5b0a6e9a,
        0xd566ed88, 0x6cdd42de, 0x1b6b53ef, 0x5a57ba1d, 0xbad717eb, 0xeeb3332a, 0x68462f5b, 0x9d4633e3,
        0x77ec38cb] := by decide +kernel

/-- V5, no feed-forward; no rounds leave the words. -/
theorem test_permnf :
    ((run State.reset (0x00140104 :: xs80.toList)).resp.take 5)
      = [0x00004000, 0x7c1f467e, 0xe3a2ec0b, 0x47f98eea, 0xe7a6295b]
    ∧ (run State.reset (0x00000004 :: x232.toList)).resp = 0x00004000 :: x232.toList := by decide +kernel

/-! ### The subkey derivation -/

/-- V8. -/
theorem test_hderive_chacha :
    (run State.reset [0x00001005, 0x03020100, 0x07060504, 0x0b0a0908, 0x0f0e0d0c, 0x13121110, 0x17161514,
      0x1b1a1918, 0x1f1e1d1c, 0x09000000, 0x4a000000, 0x00000000, 0x27594131]).resp
    = 0x00002000 :: packBytes
        (hexBytes 32 0x82413b4227b27bfed30e42508a877d73a0f9e4d58a74a853c12ec41326d3ecdc) := by decide +kernel

/-- V10. -/
theorem test_hderive_salsa :
    (run State.reset (0x00001105 :: List.replicate 12 0)).resp
    = 0x00002000 :: packBytes
        (hexBytes 32 0x351f86faa3b988468a850122b65b0acece9c4826806aeee63de9c0da2bd7f91e) := by decide +kernel

/-! ### Backends -/

/-- V15: the answers for every selector, `CAPS = 0011` and `1001`. -/
theorem test_maxpar :
    ([0x00000011, 0x00002011, 0x00004011, 0x00006011, 0x00008011, 0x0000a011].map fun w =>
      (run { State.reset with caps := 0b0011 } [w]).resp)
      = ([8, 1, 4, 8, 1, 1].map fun n => [0x00000400, n])
    ∧ ([0x00000011, 0x00002011, 0x00004011, 0x00006011, 0x00008011, 0x0000a011].map fun w =>
      (run { State.reset with caps := 0b1001 } [w]).resp)
      = ([4, 1, 4, 1, 1, 4].map fun n => [0x00000400, n]) := by decide +kernel

/-- V15. -/
theorem test_bsize : run cipher [0x00000010] = { cipher with resp := [0x00000400, 0x00000040] } := by
  decide +kernel

/-- V16(b): the counter wraps inside the invocation; V7(b) and V13: the high counter word of both 64-bit layouts. -/
theorem test_gen_wraps :
    let r := (run { State.reset with caps := 0b0011 }
      (0x00045012 :: (x1.toList ++ [0xfffffffe, 0x00000000]))).resp
    r.length = 65 ∧ r[0]? = some 0x00010000
    ∧ (r.drop 1).take 2 = packBytes (hexBytes 8 0x143d2a137837a2a3)
    ∧ (r.drop 17).take 2 = packBytes (hexBytes 8 0x6d29da5bd16a4729)
    ∧ (r.drop 33).take 2 = packBytes (hexBytes 8 0xaf051e40bba03549)
    ∧ (r.drop 49).take 2 = packBytes (hexBytes 8 0x224f51f3401bd9e1)
    ∧ ((after (.gen .chacha .legacy 2 0 1 legacy.words 0x100000000) State.reset).resp.drop 1).take 2
      = packBytes (hexBytes 8 0x2fcab2c09a960545)
    ∧ ((after (.gen .salsa .legacy 2 0 1 xs80 0x100000000) State.reset).resp.drop 1).take 2
      = packBytes (hexBytes 8 0xf58c0a5ba638a4ee) := by decide +kernel

/-- V16(d): a block count the platform does not accept, and a reserved policy. -/
theorem test_gen_illegal :
    (run { State.reset with caps := 0b0011 } (0x00047012 :: (x1.toList ++ [0, 0]))).resp = [0x00000003]
    ∧ (run { State.reset with caps := 0b0011 } (0x00109012 :: (x1.toList ++ [0, 0]))).resp = [0x00000003]
    ∧ (run State.reset (0x00013412 :: (x1.toList ++ [0, 0]))).resp = [0x00000003]
    ∧ (run State.reset (0x00013012 :: (x1.toList ++ [0, 1]))).resp = [0x00000003] := by decide +kernel

/-- V16(g): an unaligned address, zero data. -/
theorem test_genx :
    let t := run State.reset (0x00013013 :: (x1.toList ++ [1, 0, 0x2001, 0]))
    t.resp = [0x00000000] ∧ t.mem.wf = true ∧ data t 0x2000 2 = [0, 0x22]
    ∧ data t 0x2001 64 = hexBytes 64 0x224f51f3401bd9e12fde276fb8631ded8c131f823d2c06e27e4fcaec9ef3cf788a3b0aa372600a92b57974cded2b9334794cba40c63e34cdea212c4cf07d41b7 := by
  decide +kernel

/-- V16(g): the last region inside the space, and the first that is not. -/
theorem test_genx_range :
    (run State.reset (0x00013013 :: (x1.toList ++ [1, 0, 0xffffffc0, 0xffffffff]))).resp = [0x00000000]
    ∧ (run State.reset (0x00013013 :: (x1.toList ++ [1, 0, 0xffffffc1, 0xffffffff]))).resp = [0x00000006] := by
  decide +kernel

/-! ### The Stream Engine -/

/-- V9: the subkey in the key words, the last eight nonce bytes in the nonce words. -/
theorem test_init_xchacha :
    let t := run State.reset [0x18201420, 0x83828180, 0x87868584, 0x8b8a8988, 0x8f8e8d8c, 0x93929190,
      0x97969594, 0x9b9a9998, 0x9f9e9d9c, 0x43424140, 0x47464544, 0x4b4a4948, 0x4f4e4d4c, 0x53525150,
      0x57565554]
    t.words = #v[0x61707865, 0x3320646e, 0x79622d32, 0x6b206574, 0xc0c08a4a, 0xba226229, 0xaa9f95fe,
      0x5ba406be, 0xe4cea389, 0xe3f6fe44, 0xa55976d7, 0x32ee493f, 0, 0, 0x53525150, 0x57565554]
    ∧ t.statusWord = 0x00000a01 ∧ t.resp = [0x00000000] := by decide +kernel

/-- V18: the status after two variants, and two wrong lengths. -/
theorem test_init_status :
    (after (.init .chacha .rng 1 3 (zeros 32) (zeros 12)) { State.reset with caps := 0b1010 }).statusWord
      = 0x00000721
    ∧ (after (.init .salsa .extended 2 5 (zeros 32) (zeros 24)) { State.reset with caps := 0b1010 }).statusWord
      = 0x00000ac1
    ∧ (run State.reset (0x0c201320 :: List.replicate 11 0)).statusWord = 0x00100000
    ∧ (run State.reset [0x00001020]).resp = [0x00000001] := by decide +kernel

/-- V19 step 1. -/
theorem test_apply_first :
    let t := after (.apply 0x100 10) cipher
    t.ctr = 1 ∧ t.off = 10 ∧ t.pos = 10 ∧ t.statusWord = 0x0000a805 ∧ t.resp = [0x00000000]
    ∧ data t 0x100 11 = hexBytes 10 0xaf051e40bba035498132 ++ [0] := by decide +kernel

/-- V19 step 2 (the rest of block 0, then part of block 1) and V21(c) (the sticky fault). -/
theorem test_apply_crosses_and_faults :
    (after (.apply 0x10a 100) midBlock).statusWord = 0x0002e805
    ∧ data (after (.apply 0x10a 100) midBlock) (0x100 + 64) 4 = hexBytes 4 0x224f51f3
    ∧ (after (.apply 0x10a 55) nearEnd).statusWord = 0x0020a80f
    ∧ (after (.apply 0x10a 55) nearEnd).mem = []
    ∧ (after (.apply 0x10a 55) nearEnd).resp = [0x00000002] := by decide +kernel

/-- V21(a): the last buffered bytes, and one more. -/
theorem test_tryApply_end :
    let t := after (.tryApply 0x3000 54) nearEnd
    t.off = 0 ∧ t.ctr = 0xffffffff ∧ data t 0x3000 8 = hexBytes 8 0x0769dd68f5ae394a
    ∧ (after (.tryApply 0x3000 55) nearEnd).resp = [0x00000002]
    ∧ (after (.tryApply 0x3000 55) nearEnd).fault = false := by decide +kernel

/-- V23: the range is checked before exhaustion. -/
theorem test_tryApply_priority :
    (after (.tryApply 5 (0 - 4)) cipher).resp = [0x00000006]
    ∧ (after (.tryApply 5 (0 - 5)) cipher).resp = [0x00000002] := by decide +kernel

/-- V20: positions, the last one in range, the first that is not, and a position of 65 bits. -/
theorem test_seek :
    (after (.seek 0x64) cipher).statusWord = 0x00024805 ∧ (after (.seek 0x64) cipher).ctr = 2
    ∧ (after (.seek 0x80) cipher).statusWord = 0x00000801 ∧ (after (.seek 0x80) cipher).ctr = 2
    ∧ (after (.seek 0x3fffffffbf) cipher).statusWord = 0x0003f80d
    ∧ (after (.seek 0x3fffffffc0) cipher).statusWord = 0x00000809
    ∧ (after (.seek 0x3fffffffc1) cipher).resp = [0x00000002]
    ∧ (after (.seek 0x10000000000000000) cipher).resp = [0x00000003] := by decide +kernel

/-- V22, V7(b): the counter words of the 64-bit engines, by slot. -/
theorem test_seek_64 :
    (after (.seek 0x4000000000) salsa).words[8] = 0 ∧ (after (.seek 0x4000000000) salsa).words[9] = 1
    ∧ (after (.seek 0xffffffffffffffff) salsa).words[9] = 0x04000000
    ∧ (after (.seek 0xffffffffffffffff) salsa).off = 63
    ∧ (after (.seek 0x4000000000) legacy).words[12] = 0 ∧ (after (.seek 0x4000000000) legacy).words[13] = 1 := by
  decide +kernel

/-- V19 step 3, from the state of step 2; V23. -/
theorem test_getPos :
    (after .getPos (cipher.moveTo 1 46)).resp = [0x00001000, 0x6e, 0, 0, 0]
    ∧ (after .getPos State.reset).resp = [0x00000004] ∧ (after .getPos rng).resp = [0x00000005] := by
  decide +kernel

/-- V21(c) and V23. -/
theorem test_rdStat :
    (after .rdStat faulted).resp = [0x00000400, 0x0020a80f]
    ∧ (after .rdStat { State.reset with err := .notInitialised }).resp = [0x00000400, 0x00400000]
    ∧ (after .rdStat State.reset).resp = [0x00000400, 0] := by decide +kernel

/-- V21(c), V25: FAULT and ERR survive, and a faulted instance still refuses. -/
theorem test_zeroize :
    (after .zeroize faulted).statusWord = 0x00200002 ∧ (after .zeroize faulted).resp = [0x00000000]
    ∧ (after .zeroize faulted).words = Vector.replicate 16 0
    ∧ (after (.init .chacha .standard 2 0 keySeq nonce4a) faulted).resp = [0x00000007] := by decide +kernel

/-! ### The RNG Adapter -/

/-- V24(a): the old data does not matter. -/
theorem test_rngFill :
    let t := after (.rngFill 0x500 8) { rng with mem := [(0x500, 0xee), (0x508, 0xee)] }
    data t 0x500 9 = hexBytes 9 0x76b8e0ada0f13d90ee ∧ t.ctr = 1 ∧ t.off = 8
    ∧ t.statusWord = 0x00008b05 := by decide +kernel

/-- V24(e): the counter wraps without an error; V24(h). -/
theorem test_rngFill_wraps :
    let s := (rng.setStream 0x04030201 0x08070605 0x0c0b0a09).moveTo 0xffffffff 60
    let t := after (.rngFill 0x600 8) s
    s.ctr = 0 ∧ data t 0x600 8 = hexBytes 8 0xe364eac80a363d28 ∧ t.ctr = 1 ∧ t.off = 4
    ∧ t.resp = [0x00000000] ∧ (after (.rngFill (0 - 1) 2) rng).resp = [0x00000006] := by decide +kernel

/-- V24(b), (e). -/
theorem test_rngGetWp :
    (after .rngGetWp (rng.moveTo 1 6)).resp = [0x00001000, 17, 0, 0, 0]
    ∧ (after .rngGetWp (rng.moveTo 0xffffffff 60)).resp = [0x00001000, 0xffffffff, 0xf, 0, 0]
    ∧ (after .rngGetWp cipher).resp = [0x00000005] := by decide +kernel

/-- V24(c), (e). -/
theorem test_rngSetWp :
    let t := after (.rngSetWp 0x21) rng
    t.ctr = 3 ∧ t.off = 4 ∧ (t.buf.toList.drop 4).take 8 = hexBytes 8 0x63266ce1ae7ed108
    ∧ (after (.rngSetWp 0x1000000005) rng).ctr = 1 ∧ (after (.rngSetWp 0x1000000005) rng).off = 20
    ∧ (after (.rngSetWp 0xfffffffff) rng).ctr = 0 ∧ (after (.rngSetWp 0xfffffffff) rng).off = 60 := by
  decide +kernel

/-- V24(d): the answer, and a 97-bit identifier. -/
theorem test_rngGetStr :
    (after .rngGetStr rngMid).resp = [0x00001000, 0x04030201, 0x08070605, 0x0c0b0a09, 0] := by
  decide +kernel

/-- V24(d): position kept, block 2 of stream 1 in the buffer. -/
theorem test_rngSetStr :
    let t := after (.rngSetStr 1) (rng.moveTo 2 12)
    t.off = 12 ∧ t.ctr = 3 ∧ t.words[13] = 1 ∧ t.words[14] = 0
    ∧ (t.buf.toList.drop 12).take 4 = hexBytes 4 0xadf54158
    ∧ (after (.rngSetStr 0x1000000000000000000000000) rng).resp = [0x00000003] := by decide +kernel

/-- V24(d): the record at `OFF = 16`, `CTR = 3`. -/
theorem test_rngSave :
    (after .rngSave ((rng.setStream 0x04030201 0x08070605 0x0c0b0a09).moveTo 2 16)).resp
      = [0x00001c00, 0x04030201, 0x08070605, 0x0c0b0a09, 0x24, 0, 0, 0] := by decide +kernel

/-- V24(f). -/
theorem test_rngLoad :
    let t := after (.rngLoad 0 0 0 2) rng
    t.ctr = 1 ∧ t.off = 8 ∧ (t.buf.toList.drop 8).take 4 = hexBytes 4 0x405d6ae5 := by decide +kernel

/-! ### Reset -/

/-- V25: a faulted instance is reset, and the data space stays. -/
theorem test_reset :
    (run { faulted with rst := true, mem := [(7, 9)] } [0x25]).statusWord = 0
    ∧ (run { faulted with rst := true, mem := [(7, 9)] } [0x25]).mem = [(7, 9)]
    ∧ (run { faulted with rst := true } [0x25]).cmd = [0x25] := by decide +kernel

/-! ### Witnesses: for every obligation with premises, states and operands that meet all of them together

The theorems are named after the obligations; a statement with several clauses has a witness for each, at
values where its clauses meet. `exec_after` says of every command that it answers a next state. -/

theorem test_cipher_ready : CipherReady cipher := ⟨by decide +kernel, by decide +kernel, by decide +kernel⟩
theorem test_midBlock_ready : CipherReady midBlock := ⟨by decide +kernel, by decide +kernel, by decide +kernel⟩
theorem test_nearEnd_ready : CipherReady nearEnd := ⟨by decide +kernel, by decide +kernel, by decide +kernel⟩
theorem test_legacy_ready : CipherReady legacy := ⟨by decide +kernel, by decide +kernel, by decide +kernel⟩
theorem test_salsa_ready : CipherReady salsa := ⟨by decide +kernel, by decide +kernel, by decide +kernel⟩
theorem test_rng_ready : RngReady rng := ⟨by decide +kernel, by decide +kernel, by decide +kernel⟩
theorem test_rngMid_ready : RngReady rngMid := ⟨by decide +kernel, by decide +kernel, by decide +kernel⟩

theorem test_cipher_legal : ConfigLegal cipher := by unfold ConfigLegal; decide +kernel
theorem test_rng_legal : ConfigLegal rng := by unfold ConfigLegal; decide +kernel
theorem test_rngMid_legal : ConfigLegal rngMid := by unfold ConfigLegal; decide +kernel

theorem test_midBlock_valid : BufferValid midBlock := fun _ _ => ⟨by decide +kernel, by decide +kernel⟩
theorem test_nearEnd_valid : BufferValid nearEnd := fun _ _ => ⟨by decide +kernel, by decide +kernel⟩
theorem test_rng_valid : BufferValid rng := fun _ h => absurd (by decide +kernel) h
theorem test_rngMid_valid : BufferValid rngMid := fun _ _ => ⟨by decide +kernel, by decide +kernel⟩

theorem test_meets_DecodeOfEncode :
    (Instr.init .chacha .standard 3 7 (zeros 255) (zeros 255)).encodable = true ∧ Instr.bsize.encodable = true := by
  decide +kernel

theorem test_meets_EncodeOfDecode : decode [0x00000010, 0x00000025] = .instr .bsize [0x00000025] := by
  decide +kernel

/-- The ends of the five reserved ranges, and their neighbours, which are not reserved. -/
theorem test_meets_ReservedOpcodeIsIllegal :
    let s : State := { State.reset with cmd := [0xff, 0x25] }
    s.rst = false ∧ s.cmd = 0xff :: [0x25] ∧ reservedOpcode 0xff = true
    ∧ ([0x00, 0x06, 0x0f, 0x14, 0x1f, 0x27, 0x2f, 0x37] : List Word).all reservedOpcode = true
    ∧ ([0x01, 0x05, 0x10, 0x13, 0x20, 0x26, 0x30, 0x36] : List Word).all (fun w => !reservedOpcode w) = true := by
  decide +kernel

/-- A legal packet and an illegal one; then each condition of R109 at its boundary. -/
theorem test_meets_IllegalFieldsAreIllegal :
    (let s : State := { State.reset with cmd := [0x23, 0, 0, 0, 0] };
      s.rst = false ∧ s.cmd = 0x23 :: [0, 0, 0, 0] ∧ reservedOpcode 0x23 = false
        ∧ packetLength 0x23 ≤ [0, 0, 0, 0].length + 1 ∧ illegalFields 0x23 [0, 0, 0, 0] s.caps = false)
    ∧ (let s : State := { State.reset with cmd := [0x23, 0, 0, 1, 0] };
      s.rst = false ∧ s.cmd = 0x23 :: [0, 0, 1, 0] ∧ reservedOpcode 0x23 = false
        ∧ packetLength 0x23 ≤ [0, 0, 1, 0].length + 1 ∧ illegalFields 0x23 [0, 0, 1, 0] s.caps = true)
    ∧ illegalFields 0x32100001 ramp.toList 0 = false ∧ illegalFields 0x32000001 ramp.toList 0 = true
    ∧ illegalFields 0x00000002 ramp.toList 0 = false ∧ illegalFields 0x00010002 ramp.toList 0 = true
    ∧ illegalFields 0x00ff0003 ramp.toList 0 = false ∧ illegalFields 0x01000003 ramp.toList 0 = true
    ∧ illegalFields 0x00001005 (List.replicate 12 0) 0 = false
    ∧ illegalFields 0x00001805 (List.replicate 12 0) 0 = true
    ∧ illegalFields 0x0000a011 [] 0 = false ∧ illegalFields 0x0000c011 [] 0 = true
    ∧ illegalFields 0x00087012 (ramp.toList ++ [0, 0]) 0b0010 = false
    ∧ illegalFields 0x00047012 (ramp.toList ++ [0, 0]) 0b0010 = true
    ∧ illegalFields 0x00013013 (ramp.toList ++ [0, 0, 0, 0]) 0 = false
    ∧ illegalFields 0x00013013 (ramp.toList ++ [0, 1, 0, 0]) 0 = true
    ∧ illegalFields 0x01021020 [0x0000beef, 0xaa] 0 = false
    ∧ illegalFields 0x01021020 [0x0001beef, 0xaa] 0 = true
    ∧ illegalFields 0x08201320 (List.replicate 10 0) 0 = false
    ∧ illegalFields 0x08201120 (List.replicate 10 0) 0 = true
    ∧ illegalFields 0x00000034 [0, 0, 1, 0] 0 = false ∧ illegalFields 0x00000034 [0, 0, 0, 1] 0 = true
    ∧ illegalFields 0x00000025 [] 0 = false ∧ illegalFields 0x00000125 [] 0 = true := by decide +kernel

/-- The shortest and the longest packet. -/
theorem test_meets_PacketsAreTakenWhole :
    (let s : State := { State.reset with cmd := [0x10, 0x25] };
      s.rst = false ∧ s.cmd = 0x10 :: [0x25] ∧ packetLength 0x10 ≤ [(0x25 : Word)].length + 1)
    ∧ (let s : State := { State.reset with cmd := 0xffff0020 :: List.replicate 128 0 };
      s.rst = false ∧ s.cmd = 0xffff0020 :: List.replicate 128 0
        ∧ packetLength 0xffff0020 ≤ (List.replicate 128 (0 : Word)).length + 1) := by decide +kernel

theorem test_meets_StepRunsDecodedCommand :
    (let s : State := { State.reset with cmd := [0x10, 0x25] };
      s.rst = false ∧ decode s.cmd = .instr .bsize [0x25])
    ∧ exec .bsize cipher = .next (after .bsize cipher) := ⟨by decide +kernel, exec_after _ _⟩

theorem test_meets_StepWaitsForWholePacket :
    (State.reset.rst = false ∧ State.reset.cmd = [])
    ∧ (let s : State := { State.reset with cmd := [0x23, 0, 0, 0] };
      s.rst = false ∧ s.cmd = 0x23 :: [0, 0, 0] ∧ [0, 0, 0].length + 1 < packetLength 0x23) := by
  decide +kernel

theorem test_meets_ResetStep : ({ faulted with rst := true } : State).rst = true := rfl

theorem test_meets_FaultedInstanceRefuses :
    faulted.fault = true ∧ operandsLegal .bsize faulted.caps = true ∧ Instr.bsize ≠ .rdStat
    ∧ Instr.bsize ≠ .zeroize := by decide +kernel

theorem test_meets_NotInitialisedWithoutEngine :
    ((kind .getPos = .cipher ∨ kind .getPos = .rng) ∧ operandsLegal .getPos State.reset.caps = true
      ∧ State.reset.fault = false ∧ State.reset.inited = false)
    ∧ ((kind .rngSave = .cipher ∨ kind .rngSave = .rng) ∧ operandsLegal .rngSave State.reset.caps = true)
    ∧ exec .getPos State.reset = .next (after .getPos State.reset)
    ∧ responseStatus (after .getPos State.reset) = 0x04 :=
  ⟨by decide +kernel, by decide +kernel, exec_after _ _, by decide +kernel⟩

theorem test_meets_WrongModeSeparatesCipherAndRng :
    (operandsLegal .getPos rng.caps = true ∧ rng.fault = false ∧ rng.inited = true ∧ wrongMode .getPos rng = true)
    ∧ (operandsLegal .rngSave cipher.caps = true ∧ cipher.fault = false ∧ cipher.inited = true
      ∧ wrongMode .rngSave cipher = true)
    ∧ exec .getPos rng = .next (after .getPos rng) ∧ responseStatus (after .getPos rng) = 0x05 :=
  ⟨by decide +kernel, by decide +kernel, exec_after _ _, by decide +kernel⟩

/-- A wrong key, and a wrong nonce of each policy. -/
theorem test_meets_WrongLengthIsRefusedByInit :
    cipher.fault = false
    ∧ (operandsLegal (.init .chacha .standard 2 0 (zeros 31) (zeros 12)) cipher.caps = true
      ∧ (zeros 31).length ≠ 32)
    ∧ (operandsLegal (.init .chacha .standard 2 0 (zeros 32) (zeros 13)) cipher.caps = true
      ∧ (zeros 13).length ≠ 12)
    ∧ (operandsLegal (.init .chacha .legacy 2 0 (zeros 32) (zeros 12)) cipher.caps = true
      ∧ (zeros 12).length ≠ 8)
    ∧ (operandsLegal (.init .salsa .extended 2 0 (zeros 32) (zeros 8)) cipher.caps = true
      ∧ (zeros 8).length ≠ 24)
    ∧ (operandsLegal (.init .chacha .rng 2 0 (zeros 32) []) cipher.caps = true ∧ (zeros 0).length ≠ 12)
    ∧ exec (.init .chacha .rng 2 0 (zeros 32) []) cipher
      = .next (after (.init .chacha .rng 2 0 (zeros 32) []) cipher)
    ∧ responseStatus (after (.init .chacha .rng 2 0 (zeros 32) []) cipher) = 0x01 := by
  refine ⟨?_, ?_, ?_, ?_, ?_, ?_, exec_after _ _, ?_⟩ <;> decide +kernel

/-- One byte too many for each of the four region commands; one byte less passes. -/
theorem test_meets_RegionPastTheTopIsRefused :
    (operandsLegal (.apply (0 - 1) 2) cipher.caps = true ∧ cipher.fault = false
      ∧ (kind (.apply (0 - 1) 2) = .cipher → CipherReady cipher)
      ∧ (kind (.apply (0 - 1) 2) = .rng → RngReady cipher)
      ∧ 2 ^ 64 < (region (.apply (0 - 1) 2)).1 + (region (.apply (0 - 1) 2)).2)
    ∧ (operandsLegal (.rngFill (0 - 1) 2) rng.caps = true ∧ rng.fault = false
      ∧ (kind (.rngFill (0 - 1) 2) = .cipher → CipherReady rng)
      ∧ (kind (.rngFill (0 - 1) 2) = .rng → RngReady rng)
      ∧ 2 ^ 64 < (region (.rngFill (0 - 1) 2)).1 + (region (.rngFill (0 - 1) 2)).2)
    ∧ (operandsLegal (.genx .chacha .standard 2 1 1 ramp 0 (0 - 63)) State.reset.caps = true
      ∧ State.reset.fault = false
      ∧ 2 ^ 64 < (region (.genx .chacha .standard 2 1 1 ramp 0 (0 - 63))).1
        + (region (.genx .chacha .standard 2 1 1 ramp 0 (0 - 63))).2)
    ∧ 2 ^ 64 < (region (.tryApply 2 (0 - 1))).1 + (region (.tryApply 2 (0 - 1))).2
    ∧ ¬ 2 ^ 64 < (region (.tryApply 1 (0 - 1))).1 + (region (.tryApply 1 (0 - 1))).2
    ∧ exec (.apply (0 - 1) 2) cipher = .next (after (.apply (0 - 1) 2) cipher)
    ∧ responseStatus (after (.apply (0 - 1) 2) cipher) = 0x06 := by
  refine ⟨⟨by decide +kernel, by decide +kernel, fun _ => test_cipher_ready, fun h => (by cases h),
    by decide +kernel⟩, ⟨by decide +kernel, by decide +kernel, fun h => (by cases h), fun _ => test_rng_ready,
    by decide +kernel⟩, by decide +kernel, by decide +kernel, by decide +kernel, exec_after _ _, by decide +kernel⟩

/-- One byte too many; SEEK's two refusals, and the last position it takes; an adapter. -/
theorem test_meets_ExhaustionIsRecoverable :
    (CipherReady nearEnd ∧ (0x100 : DWord).toNat + (55 : DWord).toNat ≤ 2 ^ 64
      ∧ wouldExhaust nearEnd (55 : DWord).toNat = true ∧ wouldExhaust nearEnd 54 = false)
    ∧ (CipherReady cipher ∧ (0x4000000000 : QWord).toNat < 2 ^ 64
      ∧ seekPast cipher (0x4000000000 : QWord).toNat = true)
    ∧ ((0x3fffffffc1 : QWord).toNat < 2 ^ 64 ∧ seekPast cipher (0x3fffffffc1 : QWord).toNat = true
      ∧ seekPast cipher 0x3fffffffc0 = false)
    ∧ (rng.pol = .rng ∧ exec (.rngFill 0 1) rng = .next (after (.rngFill 0 1) rng)) :=
  ⟨⟨test_nearEnd_ready, by decide +kernel, by decide +kernel, by decide +kernel⟩,
    ⟨test_cipher_ready, by decide +kernel, by decide +kernel⟩, by decide +kernel, by decide +kernel, exec_after _ _⟩

theorem test_meets_OnlyApplyFaultsAndOnlyResetClears :
    (CipherReady nearEnd ∧ (0x100 : DWord).toNat + (55 : DWord).toNat ≤ 2 ^ 64
      ∧ wouldExhaust nearEnd (55 : DWord).toNat = true)
    ∧ (exec (.apply 0x100 55) nearEnd = .next (after (.apply 0x100 55) nearEnd) ∧ nearEnd.fault = false
      ∧ (after (.apply 0x100 55) nearEnd).fault = true)
    ∧ (step { faulted with rst := true } = .next { faulted with rst := true }.resetEngine
      ∧ faulted.fault = true ∧ faulted.resetEngine.fault = false)
    ∧ (faulted.fault = true ∧ Instr.rdStat ≠ .zeroize ∧ exec .rdStat faulted = .next (after .rdStat faulted)) :=
  ⟨⟨test_nearEnd_ready, by decide +kernel, by decide +kernel⟩, ⟨exec_after _ _, by decide +kernel, by decide +kernel⟩,
    ⟨rfl, rfl, rfl⟩, rfl, by decide, exec_after _ _⟩

/-- Packets that name no command, for each of the decoder's reasons. -/
theorem test_meets_ErrorsHavePriority :
    ({ faulted with cmd := [0x37] } : State).rst = false ∧ decode [0x00000037] = .illegal .reservedOpcode []
    ∧ decode [0x00000125] = .illegal .mustBeZero [] ∧ decode [0x01000020, 0x00000100] = .illegal .padding [] := by
  decide +kernel

theorem test_meets_RefusedCommandsWriteNothing :
    exec .getPos State.reset = .next (after .getPos State.reset)
    ∧ responseStatus (after .getPos State.reset) ≠ 0x00 := ⟨exec_after _ _, by decide +kernel⟩

/-- INIT, ZEROIZE, a command on a faulted instance, one that is refused, one that faults; a reset. -/
theorem test_meets_LatchesFollowTheRules :
    (exec (.init .salsa .legacy 2 0 key80 (zeros 8)) cipher
        = .next (after (.init .salsa .legacy 2 0 key80 (zeros 8)) cipher)
      ∧ responseStatus (after (.init .salsa .legacy 2 0 key80 (zeros 8)) cipher) = 0x00)
    ∧ exec .zeroize cipher = .next (after .zeroize cipher)
    ∧ (exec .bsize faulted = .next (after .bsize faulted) ∧ faulted.fault = true)
    ∧ (exec .rngSave cipher = .next (after .rngSave cipher) ∧ cipher.fault = false
      ∧ responseStatus (after .rngSave cipher) ≠ 0x00)
    ∧ (exec (.apply 0 55) nearEnd = .next (after (.apply 0 55) nearEnd)
      ∧ (after (.apply 0 55) nearEnd).fault = true)
    ∧ step { faulted with rst := true } = .next { faulted with rst := true }.resetEngine :=
  ⟨⟨exec_after _ _, by decide +kernel⟩, exec_after _ _, ⟨exec_after _ _, by decide +kernel⟩,
    ⟨exec_after _ _, by decide +kernel, by decide +kernel⟩, ⟨exec_after _ _, by decide +kernel⟩, rfl⟩

/-- The addresses on both sides of a region; a command that is refused. -/
theorem test_meets_DataOutsideTheRegionIsUntouched :
    exec (.apply 0x100 10) cipher = .next (after (.apply 0x100 10) cipher)
    ∧ ¬ InRegion (region (.apply 0x100 10)).1 (region (.apply 0x100 10)).2 0xff
    ∧ ¬ InRegion (region (.apply 0x100 10)).1 (region (.apply 0x100 10)).2 0x10a
    ∧ responseStatus (after (.apply 0x100 10) rng) ≠ 0x00 :=
  ⟨exec_after _ _, by unfold InRegion; decide +kernel, by unfold InRegion; decide +kernel, by decide +kernel⟩

/-- Words that change in each of the two ways; ZEROIZE; INIT; states that differ in a key word. -/
theorem test_meets_StateWordsAreReachedOnlyAsAllowed :
    (exec (.apply 0 1) cipher = .next (after (.apply 0 1) cipher) ∧ kind (.apply 0 1) ≠ .construct
      ∧ Instr.apply 0 1 ≠ .zeroize ∧ (after (.apply 0 1) cipher).words[12] ≠ cipher.words[12])
    ∧ (exec (.rngSetStr 1) rng = .next (after (.rngSetStr 1) rng)
      ∧ (after (.rngSetStr 1) rng).words[13] ≠ rng.words[13])
    ∧ exec .zeroize cipher = .next (after .zeroize cipher)
    ∧ (kind (.init .salsa .legacy 2 0 key80 (zeros 8)) = .construct
      ∧ responseStatus (after (.init .salsa .legacy 2 0 key80 (zeros 8)) cipher) = 0x00)
    ∧ (ConfigLegal cipher
      ∧ (∀ k : Fin 16, isKeyWord cipher.fam k = false → (cipher.words.set 4 7)[k] = cipher.words[k])
      ∧ cipher.words.set 4 7 ≠ cipher.words
      ∧ exec .getPos { cipher with words := cipher.words.set 4 7 }
        = .next (after .getPos { cipher with words := cipher.words.set 4 7 })) :=
  ⟨⟨exec_after _ _, by decide +kernel, by decide +kernel, by decide +kernel⟩, ⟨exec_after _ _, by decide +kernel⟩,
    exec_after _ _, by decide +kernel, test_cipher_legal, by decide +kernel, by decide +kernel, exec_after _ _⟩

/-- INIT that succeeds and one that is refused, ZEROIZE, another command; the two backends in RDSTAT. -/
theorem test_meets_ConfigurationIsFixedByInit_and_BackendShowsOnlyInStatus :
    exec (.init .salsa .legacy 2 0 key80 (zeros 8)) cipher
      = .next (after (.init .salsa .legacy 2 0 key80 (zeros 8)) cipher)
    ∧ (after (.init .salsa .legacy 2 0 key80 (zeros 8)) cipher).fam = .salsa
    ∧ responseStatus (after (.init .salsa .legacy 2 0 key80 (zeros 9)) cipher) ≠ 0x00
    ∧ exec .zeroize salsa = .next (after .zeroize salsa) ∧ salsa.fam ≠ .chacha
    ∧ exec .rdStat cipher = .next (after .rdStat cipher)
    ∧ exec .rdStat { cipher with backend := .neon } = .next (after .rdStat { cipher with backend := .neon })
    ∧ (after .rdStat cipher).resp ≠ (after .rdStat { cipher with backend := .neon }).resp :=
  ⟨exec_after _ _, by decide +kernel, by decide +kernel, exec_after _ _, by decide +kernel, exec_after _ _,
    exec_after _ _, by decide +kernel⟩

/-- No engine and other contents; an empty buffer with other contents, which the command then fills. -/
theorem test_meets_UnwrittenStateIsNeverRead :
    (State.reset.inited = false
      ∧ exec (.init .salsa .legacy 2 0 key80 (zeros 8)) State.reset
        = .next (after (.init .salsa .legacy 2 0 key80 (zeros 8)) State.reset)
      ∧ exec (.init .salsa .legacy 2 0 key80 (zeros 8)) { State.reset with words := ramp, buf := Vector.replicate 64 7 }
        = .next (after (.init .salsa .legacy 2 0 key80 (zeros 8))
          { State.reset with words := ramp, buf := Vector.replicate 64 7 }))
    ∧ (cipher.off = 0 ∧ exec (.apply 0 1) cipher = .next (after (.apply 0 1) cipher)
      ∧ exec (.apply 0 1) { cipher with buf := Vector.replicate 64 7 }
        = .next (after (.apply 0 1) { cipher with buf := Vector.replicate 64 7 })
      ∧ (after (.apply 0 1) cipher).off ≠ 0) :=
  ⟨⟨rfl, exec_after _ _, exec_after _ _⟩, rfl, exec_after _ _, exec_after _ _, by decide +kernel⟩

/-- The last byte of a region that is XORed, the first of one that is written. -/
theorem test_meets_KeystreamIgnoresTheData :
    (exec (.apply 0x100 10) cipher = .next (after (.apply 0x100 10) cipher)
      ∧ exec (.apply 0x100 10) { cipher with mem := [(0x109, 1)] }
        = .next (after (.apply 0x100 10) { cipher with mem := [(0x109, 1)] })
      ∧ InRegion (region (.apply 0x100 10)).1 (region (.apply 0x100 10)).2 0x109)
    ∧ (exec (.rngFill 0x100 10) rng = .next (after (.rngFill 0x100 10) rng)
      ∧ InRegion (region (.rngFill 0x100 10)).1 (region (.rngFill 0x100 10)).2 0x100
      ∧ responseStatus (after (.rngFill 0x100 10) rng) = 0x00) :=
  ⟨⟨exec_after _ _, exec_after _ _, by unfold InRegion; decide +kernel⟩, exec_after _ _,
    by unfold InRegion; decide +kernel, by decide +kernel⟩

/-- QrChachaQuarterRound, QrSalsaQuarterRound, RoundsAreInvertible: distinct indices in any order, an even
first count. DroundIsEightQuarterRounds, RoundsAddTheOriginalState, BsizeAnswers64: no fault. -/
theorem test_meets_permutation_premises :
    State.reset.fault = false ∧ distinct4 0 1 2 3 = true ∧ distinct4 15 0 5 10 = true ∧ 0 % 2 = 0 ∧ 20 % 2 = 0 := by
  decide +kernel

theorem test_meets_HderiveTakesEightWords :
    State.reset.fault = false ∧ roundsOf 0 = some .r8 ∧ roundsOf 1 = some .r12 ∧ roundsOf 2 = some .r20 := by
  decide +kernel

theorem test_meets_SelectionAndMaxpar :
    State.reset.fault = false ∧ (0 : BitVec 3).toNat < 6 ∧ (5 : BitVec 3).toNat < 6 := by decide +kernel

/-- A block count of one and of the selected backend, in each layout, with the largest counter base. -/
theorem test_meets_GenAnswersTheBlocks :
    ({ cipher with caps := 0b0100 } : State).fault = false ∧ roundsOf 2 = some .r20
    ∧ operandsLegal (.gen .chacha .standard 2 4 16 ramp 0xffffffff) 0b0100 = true
    ∧ operandsLegal (.gen .chacha .legacy 2 4 1 ramp 0xffffffffffffffff) 0b0100 = true
    ∧ operandsLegal (.gen .salsa .legacy 2 0 16 ramp 0xffffffffffffffff) 0b0100 = true := by decide +kernel

/-- The last region inside the data space. -/
theorem test_meets_GenxXorsTheBlocks :
    ({ cipher with caps := 0b0010 } : State).fault = false ∧ roundsOf 1 = some .r12
    ∧ operandsLegal (.genx .chacha .legacy 1 3 8 ramp 0 (0 - 512)) 0b0010 = true
    ∧ (0 - 512 : DWord).toNat + 64 * (8 : BitVec 8).toNat ≤ 2 ^ 64 := by decide +kernel

/-- Each of the six variants. -/
theorem test_meets_InitBuildsTheEngine_and_ExtendedNonceUsesTheSubkey :
    cipher.fault = false ∧ roundsOf 0 = some .r8 ∧ (roundsOf 1).isSome = true ∧ (5 : BitVec 3).toNat < 6
    ∧ key80.length = 32
    ∧ (legalVariant .chacha .standard = true ∧ (zeros 12).length = nonceBytes .standard)
    ∧ (legalVariant .chacha .legacy = true ∧ (zeros 8).length = nonceBytes .legacy)
    ∧ (legalVariant .chacha .extended = true ∧ (zeros 24).length = nonceBytes .extended)
    ∧ (legalVariant .chacha .rng = true ∧ (zeros 12).length = nonceBytes .rng)
    ∧ legalVariant .salsa .legacy = true ∧ legalVariant .salsa .extended = true := by decide +kernel

/-- From the middle of a block across blocks, and to the last byte the counter allows at the top of the data
space. -/
theorem test_meets_ApplyXorsTheKeystream_and_ApplyMovesOffsetAndCounter :
    (CipherReady midBlock ∧ BufferValid midBlock ∧ (0x100 : DWord).toNat + (200 : DWord).toNat ≤ 2 ^ 64
      ∧ wouldExhaust midBlock (200 : DWord).toNat = false)
    ∧ (CipherReady nearEnd ∧ BufferValid nearEnd ∧ (0 - 54 : DWord).toNat + (54 : DWord).toNat ≤ 2 ^ 64
      ∧ wouldExhaust nearEnd (54 : DWord).toNat = false) :=
  ⟨⟨test_midBlock_ready, test_midBlock_valid, by decide +kernel, by decide +kernel⟩, test_nearEnd_ready,
    test_nearEnd_valid, by decide +kernel, by decide +kernel⟩

/-- Both clauses, the first with an exhausted engine. -/
theorem test_meets_EmptyRegionChangesNothing :
    CipherReady nearEnd ∧ nearEnd.isExhausted = true ∧ RngReady rng :=
  ⟨test_nearEnd_ready, by decide +kernel, test_rng_ready⟩

theorem test_meets_ApplyInChunksIsApplyAtOnce :
    CipherReady midBlock ∧ BufferValid midBlock
    ∧ (0x100 : DWord).toNat + (54 : DWord).toNat + (46 : DWord).toNat ≤ 2 ^ 64
    ∧ (54 : DWord).toNat + (46 : DWord).toNat < 2 ^ 64
    ∧ wouldExhaust midBlock ((54 : DWord).toNat + (46 : DWord).toNat) = false :=
  ⟨test_midBlock_ready, test_midBlock_valid, by decide +kernel, by decide +kernel, by decide +kernel⟩

theorem test_meets_ApplyTwiceRestoresTheData :
    CipherReady midBlock ∧ BufferValid midBlock ∧ (0x100 : DWord).toNat + (200 : DWord).toNat ≤ 2 ^ 64
    ∧ wouldExhaust midBlock (200 : DWord).toNat = false ∧ midBlock.pos < 2 ^ 64 :=
  ⟨test_midBlock_ready, test_midBlock_valid, by decide +kernel, by decide +kernel, by decide +kernel⟩

/-- The values where the branches of the SEEK statement meet; GETPOS after a SEEK to the last position; and the
two 64-bit layouts, at a position whose counter has a high word. -/
theorem test_meets_SeekGoesToThePosition_and_GetposAnswersThePosition :
    CipherReady cipher ∧ 2 ^ 64 ≤ (0x10000000000000000 : QWord).toNat
    ∧ ¬ 2 ^ 64 ≤ (0xffffffffffffffff : QWord).toNat
    ∧ (0x3fffffffc0 : QWord).toNat % 64 = 0 ∧ seekPast cipher (0x3fffffffc0 : QWord).toNat = false
    ∧ (0x3fffffffc1 : QWord).toNat % 64 ≠ 0 ∧ seekPast cipher (0x3fffffffc1 : QWord).toNat = true
    ∧ (0x3fffffffbf : QWord).toNat % 64 ≠ 0 ∧ seekPast cipher (0x3fffffffbf : QWord).toNat = false
    ∧ (CipherReady legacy ∧ legacy.pol = .legacy ∧ seekPast legacy (0xffffffffffffffff : QWord).toNat = false)
    ∧ (CipherReady salsa ∧ salsa.fam = .salsa ∧ seekPast salsa (0xffffffffffffffff : QWord).toNat = false) :=
  ⟨test_cipher_ready, by decide +kernel, by decide +kernel, by decide +kernel, by decide +kernel, by decide +kernel,
    by decide +kernel, by decide +kernel, by decide +kernel, ⟨test_legacy_ready, rfl, by decide +kernel⟩,
    test_salsa_ready, rfl, by decide +kernel⟩

/-- An adapter at the start and one in the middle of a block; RnggetwpAnswersTheWordPosition,
RngsetwpGoesToTheWord, RnggetstrAnswersTheStream, RngsaveAnswersTheRecord, RngloadRestoresTheRecord need no more. -/
theorem test_meets_RngfillWritesTheKeystream :
    (RngReady rng ∧ ConfigLegal rng ∧ BufferValid rng ∧ (0 - 200 : DWord).toNat + (200 : DWord).toNat ≤ 2 ^ 64)
    ∧ (RngReady rngMid ∧ ConfigLegal rngMid ∧ BufferValid rngMid
      ∧ (0x600 : DWord).toNat + (200 : DWord).toNat ≤ 2 ^ 64) :=
  ⟨⟨test_rng_ready, test_rng_legal, test_rng_valid, by decide +kernel⟩, test_rngMid_ready, test_rngMid_legal,
    test_rngMid_valid, by decide +kernel⟩

/-- Both branches, where they meet. -/
theorem test_meets_RngsetstrKeepsThePosition :
    RngReady rngMid ∧ ConfigLegal rngMid ∧ ¬ 2 ^ 96 ≤ (BitVec.ofNat 128 (2 ^ 96 - 1)).toNat
    ∧ 2 ^ 96 ≤ (BitVec.ofNat 128 (2 ^ 96)).toNat :=
  ⟨test_rngMid_ready, test_rngMid_legal, by decide +kernel, by decide +kernel⟩

/-- Two adapters with one seed and different streams and positions. -/
theorem test_meets_LoadedRecordResumesTheStream :
    RngReady rngMid ∧ ConfigLegal rngMid ∧ BufferValid rngMid ∧ RngReady rng ∧ ConfigLegal rng
    ∧ rngMid.off.toNat % 4 = 0 ∧ rng.rnd = rngMid.rnd
    ∧ (∀ k : Fin 16, k.val < 12 → rng.words[k] = rngMid.words[k]) ∧ rng.words ≠ rngMid.words
    ∧ (0x600 : DWord).toNat + (200 : DWord).toNat ≤ 2 ^ 64 :=
  ⟨test_rngMid_ready, test_rngMid_legal, test_rngMid_valid, test_rng_ready, test_rng_legal, by decide +kernel,
    by decide +kernel, by decide +kernel, by decide +kernel, by decide +kernel⟩

/-- StepKeepsMemoryCanonical, with bytes listed. -/
theorem test_meets_StepKeepsMemoryCanonical :
    let s : State := { cipher with mem := [(3, 1), (7, 9)], cmd := [0x21, 0, 0, 10, 0] }
    s.mem.wf = true ∧ ∃ t, step s = .next t ∧ t.mem ≠ s.mem := by
  refine ⟨by decide +kernel, after (.apply 0 10) { cipher with mem := [(3, 1), (7, 9)] }, ?_, by decide +kernel⟩
  exact exec_after (.apply 0 10) { cipher with mem := [(3, 1), (7, 9)] }

/-- StepKeepsBufferValid, with a part of a block in the buffer before and after. -/
theorem test_meets_StepKeepsBufferValid :
    BufferValid { midBlock with cmd := [0x10] }
    ∧ step { midBlock with cmd := [0x10] } = .next (after .bsize midBlock) :=
  ⟨test_midBlock_valid, exec_after .bsize midBlock⟩

/-- StepKeepsVariantAndConstants, with an engine of each family. -/
theorem test_meets_StepKeepsVariantAndConstants :
    (ConfigLegal cipher ∧ ConstantsInPlace cipher ∧ step { cipher with cmd := [0x10] } = .next (after .bsize cipher))
    ∧ (ConfigLegal salsa ∧ ConstantsInPlace salsa) := by
  refine ⟨⟨test_cipher_legal, fun _ => ⟨?_, ?_, ?_, ?_⟩, exec_after .bsize cipher⟩, ⟨?_, ?_⟩,
    fun _ => ⟨?_, ?_, ?_, ?_⟩⟩ <;> decide +kernel

/-- StepKeepsErrorLatch, on a faulted instance. -/
theorem test_meets_StepKeepsErrorLatch :
    ErrorLatchLegal faulted ∧ faulted.fault = true
    ∧ step { faulted with cmd := [0x10] } = .next (after .bsize faulted) :=
  ⟨⟨by decide +kernel, by decide +kernel⟩, rfl, exec_after .bsize faulted⟩

end Sys2Proof.Tests
end

section
/-! PROOFS of the obligations about the state of an engine (10_state.md R24, R32 to R35). First what the response
tells of the outcome of a command, what a change of one field does to its checks and its body, and what each
command can do to the configuration, the latches and the state words; then the obligations. -/

namespace Sys2Proof.Machine

open Safety

/-! ### The outcome of a command -/

/-- The response tells a refused command, whose state is `takeError`'s, from one that ran its body. -/
theorem exec_outcome {i : Instr} {s t : State} (h : exec i s = .next t) :
    (∃ e, errorOf i s = some e ∧ responseStatus t = statusCode e ∧ responseStatus t ≠ 0x00
      ∧ t = s.takeError (stickyOf i e) e)
    ∨ (errorOf i s = none ∧ responseStatus t = 0x00 ∧ t = bodyOf i s) := by
  rcases exec_cases h with ⟨e, hc, rfl⟩ | ⟨hc, rfl⟩
  · have hok : e ≠ .ok := fun he => checkOf_ne_ok i s (he ▸ hc)
    have hs := responseStatus_takeError i (s := s) (e := e)
    refine .inl ⟨e, checkOf_eq_errorOf i s ▸ hc, hs, ?_, rfl⟩
    rw [hs]
    exact fun h0 => hok (statusCode_eq_zero.1 h0)
  · exact .inr ⟨checkOf_eq_errorOf i s ▸ hc, responseStatus_bodyOf i s, rfl⟩

/-- RDSTAT and ZEROIZE are never refused (43_stream_engine.md R224, R225). -/
theorem errorOf_of_always {i : Instr} (hk : kind i = .always) (s : State) : errorOf i s = none := by
  rw [← checkOf_eq_errorOf]
  cases i
  case rdStat | zeroize => rfl
  all_goals cases hk

/-- While `FAULT = 1` no other command runs (60_exceptions.md R307). -/
theorem always_of_runs_faulted {i : Instr} {s : State} (h : errorOf i s = none)
    (hf : s.fault = true) : kind i = .always := by
  by_contra hk
  unfold errorOf at h
  rw [hf] at h
  split at h
  · cases h
  · simp [hk] at h

/-- The sticky error is APPLY's CounterExhausted (60_exceptions.md R306). -/
theorem stickyOf_eq_true {i : Instr} {e : Status} (h : stickyOf i e = true) :
    (∃ addr len, i = .apply addr len) ∧ e = .counterExhausted := by
  cases i
  case apply addr len => exact ⟨⟨addr, len, rfl⟩, of_decide_eq_true h⟩
  all_goals cases h

/-- RDSTAT's response is the header of one word and the STATUS word. -/
theorem exec_rdStat (s : State) :
    exec .rdStat s = .next { s with resp := [0x00000400, s.statusWord] } := by
  rw [exec_of_no_error (errorOf_of_always rfl s), bodyOf, State.respond, responseHeader_word,
    packBytes_bytesLE]

/-! ### Latches and configuration -/

/-- The round counts that an `RND` field names. -/
theorem roundsOf_eq_some {rnd : BitVec 2} {r : Rounds} (h : roundsOf rnd = some r) :
    (rnd = 0 ∧ r = .r8) ∨ (rnd = 1 ∧ r = .r12) ∨ (rnd = 2 ∧ r = .r20) := by
  revert h
  cases r <;> revert rnd <;> decide

/-- INIT is refused, or it constructs an engine of a legal variant and round count. -/
theorem exec_init_outcome {fam : Family} {pol : Policy} {rnd : BitVec 2} {bsel : BitVec 3}
    {key nonce : List Byte} {s t : State} (h : exec (.init fam pol rnd bsel key nonce) s = .next t) :
    (responseStatus t ≠ 0x00 ∧ ∃ e, t = s.raise e)
    ∨ (responseStatus t = 0x00 ∧ legalVariant fam pol = true ∧ ∃ r, roundsOf rnd = some r
      ∧ t = (s.construct fam pol r (select bsel s.caps) key nonce).respond []) := by
  rcases exec_outcome h with ⟨e, -, -, hs, ht⟩ | ⟨hn, hs, ht⟩
  · exact .inl ⟨hs, e, ht⟩
  · obtain ⟨-, -, -, -, hl⟩ := ready_of_no_error hn
    simp only [operandsLegal, Instr.legal, Bool.and_eq_true] at hl
    obtain ⟨⟨hv, hr⟩, -⟩ := hl
    obtain ⟨r, hr⟩ := Option.isSome_iff_exists.1 hr
    refine .inr ⟨hs, hv, r, hr, ?_⟩
    rw [ht, bodyOf, fieldRounds_of_roundsOf hr]

/-- No command but INIT and ZEROIZE writes the configuration, `BACKEND` or `INITED`. -/
theorem exec_keeps_config {i : Instr} {s t : State} (h : exec i s = .next t)
    (hi : ∀ f p r b k n, i ≠ .init f p r b k n) (hz : i ≠ .zeroize) :
    t.fam = s.fam ∧ t.pol = s.pol ∧ t.rnd = s.rnd ∧ t.backend = s.backend ∧ t.inited = s.inited := by
  rcases exec_outcome h with ⟨e, -, -, -, rfl⟩ | ⟨-, -, rfl⟩
  · exact ⟨rfl, rfl, rfl, rfl, rfl⟩
  · rcases bodyOf_config i s with ⟨f, p, r, b, k, n, rfl⟩ | rfl | ⟨hf, hp, hr, hb, hin, -⟩
    · exact absurd rfl (hi f p r b k n)
    · exact absurd rfl hz
    · exact ⟨hf, hp, hr, hb, hin⟩

/-- What a command that runs leaves in `INITED`. -/
theorem bodyOf_inited (i : Instr) (s : State) :
    (bodyOf i s).inited
      = if kind i = .construct then true else if i = .zeroize then false else s.inited := by
  split_ifs with hk hz
  · obtain ⟨f, p, r, b, k, n, rfl⟩ := kind_construct hk
    rfl
  · rw [hz]
    rfl
  · rcases bodyOf_config i s with ⟨f, p, r, b, k, n, rfl⟩ | rfl | ⟨-, -, -, -, hin, -⟩
    · exact absurd rfl hk
    · exact absurd rfl hz
    · exact hin

/-- What a command that runs leaves in `ERR`. -/
theorem bodyOf_err (i : Instr) (s : State) :
    (bodyOf i s).err = if kind i = .construct then .ok else s.err := by
  split_ifs with hk
  · obtain ⟨f, p, r, b, k, n, rfl⟩ := kind_construct hk
    rfl
  · rcases bodyOf_config i s with ⟨f, p, r, b, k, n, rfl⟩ | rfl | ⟨-, -, -, -, -, he⟩
    · exact absurd rfl hk
    · rfl
    · exact he

/-! ### The backend -/

/-- No check looks at `BACKEND`. -/
theorem errorOf_backend (i : Instr) (s : State) (b : Backend) :
    errorOf i { s with backend := b } = errorOf i s := rfl

/-- The state after the body of a region command, every written field by its value. -/
theorem State.applyCore_eq (s : State) (op : DataOp) (a n : Nat) :
    s.applyCore op a n = { s with
      words := withCounter s.fam s.width (s.ctr + need s.avail n) s.words
      buf := if (n - min n s.avail) % 64 = 0 then s.buf else blockAt s.fam s.width
        (roundCount s.rnd) s.words (s.ctr + (n - min n s.avail) / 64)
      off := BitVec.ofNat 6 (s.off.toNat + n)
      mem := streamBytes op s.mem a (coreBytes s n) } := by
  rw [State.applyCore_frame, State.applyCore_words, applyCore_buf_eq, State.applyCore_off,
    applyCore_mem_eq]

/-- A body run with another backend ends in the same state but for the backend, RDSTAT's apart. -/
theorem bodyOf_backend {i : Instr} (hi : i ≠ .rdStat) (s : State) (b : Backend) :
    ∃ b', bodyOf i { s with backend := b } = { bodyOf i s with backend := b' } := by
  cases i
  case rdStat => exact absurd rfl hi
  case apply a n => simp only [bodyOf, State.applyCore_eq]; exact ⟨b, rfl⟩
  case tryApply a n => simp only [bodyOf, State.applyCore_eq]; exact ⟨b, rfl⟩
  case rngFill a n => simp only [bodyOf, State.applyCore_eq]; exact ⟨b, rfl⟩
  case seek v => simp only [bodyOf, State.moveTo_eq]; exact ⟨b, rfl⟩
  case rngSetWp v => simp only [bodyOf, State.setWordPos_eq, State.moveTo_eq]; exact ⟨b, rfl⟩
  case rngLoad i0 i1 i2 v => simp only [bodyOf, State.setWordPos_eq, State.moveTo_eq]; exact ⟨b, rfl⟩
  case rngSetStr v => simp only [bodyOf, State.switchStream_eq]; exact ⟨b, rfl⟩
  case init f p r bsel k n => exact ⟨select bsel s.caps, rfl⟩
  case zeroize => exact ⟨.soft, rfl⟩
  all_goals exact ⟨b, rfl⟩

/-- So does the whole command. -/
theorem exec_backend {i : Instr} (hi : i ≠ .rdStat) {s t u : State} {b : Backend}
    (ht : exec i s = .next t) (hu : exec i { s with backend := b } = .next u) :
    ∃ b', u = { t with backend := b' } := by
  cases he : errorOf i s with
  | some e =>
    rw [exec_of_error he] at ht
    rw [exec_of_error ((errorOf_backend i s b).trans he)] at hu
    cases ht; cases hu
    exact ⟨b, rfl⟩
  | none =>
    rw [exec_of_no_error he] at ht
    rw [exec_of_no_error ((errorOf_backend i s b).trans he)] at hu
    cases ht; cases hu
    exact bodyOf_backend hi s b

/-- Without bits 6:4 the STATUS word is that of the Soft backend, whose code is 0. -/
theorem statusWord_masked (s : State) :
    s.statusWord &&& 0xffffff8f = { s with backend := .soft }.statusWord := by
  have hmask : (0xffffff8f : Word)
      = BitVec.allOnes 25 ++ 0#3 ++ 1#1 ++ 1#1 ++ 1#1 ++ 1#1 := by decide
  have hbit (b : Bool) : BitVec.ofBool b &&& 1#1 = BitVec.ofBool b := by cases b <;> rfl
  rw [hmask, State.statusWord]
  iterate 5 rw [BitVec.and_append]
  rw [BitVec.and_allOnes, BitVec.and_zero]
  simp only [hbit]
  rfl

/-! ### The state words -/

/-- A word that a write of the counter changes is a counter word. -/
theorem isCounterWord_of_withCounter_ne {s : State} {c : Nat} {x : Words} {k : Fin 16}
    (h : (withCounter s.fam s.width c x)[k] ≠ x[k]) : isCounterWord s.fam s.pol k = true := by
  by_contra hk
  exact h (withCounter_other_of s c x k (Bool.eq_false_iff.2 hk))

/-- A word that a move to a position changes is a counter word. -/
theorem isCounterWord_of_moveTo_ne {s : State} {b r : Nat} {k : Fin 16}
    (h : (s.moveTo b r).words[k] ≠ s.words[k]) : isCounterWord s.fam s.pol k = true := by
  by_contra hk
  exact h (moveTo_other s b r k (Bool.eq_false_iff.2 hk))

/-- So is one that a move to a word position changes. -/
theorem isCounterWord_of_setWordPos_ne {s : State} {v : QWord} {k : Fin 16}
    (h : (s.setWordPos v).words[k] ≠ s.words[k]) : isCounterWord s.fam s.pol k = true := by
  rw [State.setWordPos_eq] at h
  exact isCounterWord_of_moveTo_ne h

/-- A word that a new stream identifier changes is one of `S[13..15]`. -/
theorem le_of_setStream_ne {s : State} {i0 i1 i2 : Word} {k : Fin 16}
    (h : (s.setStream i0 i1 i2).words[k] ≠ s.words[k]) : 13 ≤ k.val := by
  by_contra hk
  exact h (setStream_other s i0 i1 i2 k (Nat.lt_of_not_le hk))

/-- A word RNGLOAD's body changes is a counter word or one of `S[13..15]`. -/
theorem isCounterWord_or_le_of_load_ne {s : State} {i0 i1 i2 : Word} {wp : QWord} {k : Fin 16}
    (h : ((s.setStream i0 i1 i2).setWordPos wp).words[k] ≠ s.words[k]) :
    isCounterWord s.fam s.pol k = true ∨ 13 ≤ k.val := by
  by_cases hs : (s.setStream i0 i1 i2).words[k] = s.words[k]
  · exact .inl (isCounterWord_of_setWordPos_ne (s := s.setStream i0 i1 i2) fun e => h (e.trans hs))
  · exact .inr (le_of_setStream_ne hs)

/-- The counter words are no key words (10_state.md R22, R23, R25). -/
theorem not_isKeyWord_of_isCounterWord {fam : Family} {pol : Policy} {k : Fin 16}
    (h : isCounterWord fam pol k = true) : isKeyWord fam k = false := by
  revert h k
  cases fam <;> cases pol <;> decide

/-- The counter depends on the counter words only. -/
theorem counterOf_congr {fam : Family} {pol : Policy} {x y : Words}
    (h : ∀ k : Fin 16, isCounterWord fam pol k = true → x[k] = y[k]) :
    counterOf fam (ctrWidth fam pol) x = counterOf fam (ctrWidth fam pol) y := by
  cases fam
  case chacha =>
    have h12 : x[12] = y[12] := h 12 (by cases pol <;> rfl)
    cases pol
    case legacy =>
      have h13 : x[13] = y[13] := h 13 rfl
      simp only [ctrWidth, counterOf, h12, h13]
    all_goals simp only [ctrWidth, counterOf, h12]
  case salsa =>
    have h8 : x[8] = y[8] := h 8 rfl
    have h9 : x[9] = y[9] := h 9 rfl
    simp only [ctrWidth, counterOf, h8, h9]

section
variable {s : State} {x : Words}

/-- Other key words leave the counter. -/
theorem State.ctr_of_key_words
    (h : ∀ k : Fin 16, isKeyWord s.fam k = false → x[k] = s.words[k]) :
    { s with words := x }.ctr = s.ctr :=
  counterOf_congr fun k hk => h k (not_isKeyWord_of_isCounterWord hk)

/-- Other key words leave the stream identifier of an adapter. -/
theorem State.streamId_of_key_words (hf : s.fam = .chacha)
    (h : ∀ k : Fin 16, isKeyWord s.fam k = false → x[k] = s.words[k]) :
    { s with words := x }.streamId = s.streamId := by
  rw [hf] at h
  have h13 : x[13] = s.words[13] := h 13 rfl
  have h14 : x[14] = s.words[14] := h 14 rfl
  have h15 : x[15] = s.words[15] := h 15 rfl
  simp only [State.streamId, h13, h14, h15]

variable (hctr : { s with words := x }.ctr = s.ctr)
include hctr

/-- The checks read the state words through the counter only. -/
theorem errorOf_words (i : Instr) : errorOf i { s with words := x } = errorOf i s := by
  have hx : exhausts i { s with words := x } = exhausts i s := by
    cases i
    case apply a n => simp only [exhausts, wouldExhaust, hctr]; rfl
    case tryApply a n => simp only [exhausts, wouldExhaust, hctr]; rfl
    all_goals rfl
  unfold errorOf
  rw [hx]
  rfl

/-- The block of the position depends on the state words through the counter only. -/
theorem State.blockIndex_words : { s with words := x }.blockIndex = s.blockIndex := by
  unfold State.blockIndex
  rw [hctr]
  rfl

/-- So does the position. -/
theorem State.pos_words : { s with words := x }.pos = s.pos := by
  rw [State.pos, State.blockIndex_words hctr, State.pos]

/-- So does the word position. -/
theorem State.wordPos_words : { s with words := x }.wordPos = s.wordPos := by
  rw [State.wordPos, State.blockIndex_words hctr, State.wordPos]

/-- So does the STATUS word, in its EXH bit. -/
theorem State.statusWord_words : { s with words := x }.statusWord = s.statusWord := by
  have hexh : { s with words := x }.exhFlag = s.exhFlag := by
    unfold State.exhFlag State.isExhausted
    rw [hctr]
    rfl
  unfold State.statusWord
  rw [hexh]
  rfl

/-- A response reads the state words through the counter and, in the RNG commands, the stream identifier. -/
theorem bodyOf_resp_words {i : Instr}
    (hstr : kind i = .rng → { s with words := x }.streamId = s.streamId) :
    (bodyOf i { s with words := x }).resp = (bodyOf i s).resp := by
  cases i
  case getPos => simp only [bodyOf, State.respond_resp, State.pos_words hctr]
  case rdStat => simp only [bodyOf, State.respond_resp, State.statusWord_words hctr]
  case rngGetWp => simp only [bodyOf, State.respond_resp, State.wordPos_words hctr]
  case rngGetStr => simp only [bodyOf, State.respond_resp, hstr rfl]
  case rngSave => simp only [bodyOf, State.respond_resp, hstr rfl, State.wordPos_words hctr]
  all_goals rfl

end

/-! ### The obligations -/

/-- Settles O46: RDSTAT is never refused, and each field is cut out of the STATUS word where it was put in. -/
theorem rdstatAnswersTheStatusWord : Obligations.RdstatAnswersTheStatusWord := by
  intro s
  refine ⟨s.statusWord, exec_rdStat s, ?_⟩
  rw [State.statusWord]
  refine ⟨?inited, ?fault, ?part, ?exh, ?_, ?_, ?_, ?_, ?_, ?_, ?_, ?top⟩
  case inited | fault | part | exh =>
    repeat rw [BitVec.getLsbD_append]
    simp [State.partialFlag, State.isPartial, State.exhFlag, State.isExhausted, ctrMax, Bool.and_assoc]
  all_goals repeat rw [BitVec.extractLsb'_append_eq_of_le (by decide)]
  case top => exact BitVec.extractLsb'_eq_self
  all_goals
    rw [BitVec.extractLsb'_append_eq_of_add_le (by decide)]
    exact BitVec.extractLsb'_eq_self

/-- Settles O20: a refusal writes the latches through `takeError` only, and a body through INIT's construction
and ZEROIZE only. -/
theorem latchesFollowTheRules : Obligations.LatchesFollowTheRules := by
  refine ⟨fun i s t h => ?_, fun s t hr h => ?_⟩
  · rcases exec_outcome h with ⟨e, he, hs, h0, rfl⟩ | ⟨hn, hs, rfl⟩
    · have hz : i ≠ .zeroize := by
        rintro rfl
        rw [errorOf_of_always rfl s] at he
        cases he
      refine ⟨?_, fun hf => ?_, fun hf => ?_, fun hf hft => ?_⟩
      · rw [if_neg fun hc => h0 hc.2, if_neg hz, State.takeError_inited]
      · simp [hf]
      · rw [if_pos h0, hs, State.takeError_err, hf]; rfl
      · rw [State.takeError_fault, hf, Bool.false_or] at hft
        obtain ⟨⟨addr, len, hi⟩, hex⟩ := stickyOf_eq_true hft
        exact ⟨addr, len, hi, by rw [hs, hex]; rfl⟩
    · refine ⟨?_, fun hf => ⟨(bodyOf_fault i s).trans hf, ?_⟩, fun hf => ?_, fun hf hft => ?_⟩
      · simp only [hs, and_true]
        exact bodyOf_inited i s
      · rw [bodyOf_err, if_neg]
        simp [always_of_runs_faulted hn hf]
      · rw [if_neg (not_not_intro hs), bodyOf_err]
        split_ifs <;> rfl
      · rw [bodyOf_fault, hf] at hft
        cases hft
  · rw [step, if_pos hr] at h
    cases h
    exact ⟨rfl, rfl, rfl⟩

/-- Settles O23: INIT constructs or is refused, and of the other commands only ZEROIZE writes the
configuration. -/
theorem configurationIsFixedByInit : Obligations.ConfigurationIsFixedByInit := by
  intro i s t h
  split
  next fam pol rnd bsel key nonce =>
    rcases exec_init_outcome h with ⟨hs, e, rfl⟩ | ⟨hs, hv, r, hr, rfl⟩
    · rw [if_neg hs]
      exact ⟨rfl, rfl, rfl⟩
    · rw [if_pos hs]
      rcases roundsOf_eq_some hr with ⟨rfl, rfl⟩ | ⟨rfl, rfl⟩ | ⟨rfl, rfl⟩ <;>
        exact ⟨rfl, rfl, rfl, hv, rfl⟩
  next =>
    cases h
    exact ⟨rfl, rfl, rfl⟩
  next hi hz =>
    obtain ⟨hf, hp, hr, -, -⟩ := exec_keeps_config h hi hz
    exact ⟨hf, hp, hr⟩

/-- Settles O24: a command but RDSTAT runs alike under every backend, and RDSTAT shows it in bits 6:4. -/
theorem backendShowsOnlyInStatus : Obligations.BackendShowsOnlyInStatus := by
  refine ⟨fun i s t h => ?_, fun i s t u b ht hu => ?_⟩
  · split
    next fam pol rnd bsel key nonce =>
      rcases exec_init_outcome h with ⟨hs, e, rfl⟩ | ⟨hs, -, r, -, rfl⟩
      · rw [if_neg hs]; rfl
      · rw [if_pos hs]; rfl
    next =>
      cases h
      rfl
    next hi hz =>
      obtain ⟨-, -, -, hb, -⟩ := exec_keeps_config h hi hz
      exact hb
  · by_cases hi : i = .rdStat
    · subst hi
      rw [exec_rdStat] at ht hu
      cases ht; cases hu
      refine ⟨rfl, fun hne => absurd rfl hne, fun _ => ⟨_, _, rfl, rfl, ?_⟩⟩
      rw [statusWord_masked, statusWord_masked]
    · obtain ⟨b', rfl⟩ := exec_backend hi ht hu
      exact ⟨rfl, fun _ => rfl, fun h => absurd h hi⟩

/-- Settles O22: the bodies write the counter words and the stream words only, the checks and the responses read
the counter and the stream words only, and those are no key words of a legal engine. -/
theorem stateWordsAreReachedOnlyAsAllowed : Obligations.StateWordsAreReachedOnlyAsAllowed := by
  refine ⟨fun i s t k h hk hz hne => ?_, fun s t h k => ?_, fun i s t u x hk ht hs hu => ?_,
    fun i s t u x hl ht hx hu => ?_⟩
  · rcases exec_outcome h with ⟨e, -, -, -, rfl⟩ | ⟨hn, -, rfl⟩
    · exact absurd rfl hne
    · obtain ⟨-, hready, -⟩ := ready_of_no_error hn
      rw [bodyOf_words] at hne
      cases i
      case init => exact absurd rfl hk
      case zeroize => exact absurd rfl hz
      case apply | tryApply | rngFill => exact .inl ⟨isCounterWord_of_withCounter_ne hne, trivial⟩
      case seek => exact .inl ⟨isCounterWord_of_moveTo_ne hne, trivial⟩
      case rngSetWp => exact .inl ⟨isCounterWord_of_setWordPos_ne hne, trivial⟩
      case rngSetStr => exact .inr ⟨le_of_setStream_ne hne, (hready rfl).2.2, trivial⟩
      case rngLoad =>
        rcases isCounterWord_or_le_of_load_ne hne with hc | h13
        · exact .inl ⟨hc, trivial⟩
        · exact .inr ⟨h13, (hready rfl).2.2, trivial⟩
      all_goals exact absurd rfl hne
  · cases h
    exact Vector.getElem_replicate _
  · obtain ⟨fam, pol, rnd, bsel, key, nonce, rfl⟩ := kind_construct hk
    rcases exec_outcome ht with ⟨-, -, -, h0, -⟩ | ⟨hn, -, rfl⟩
    · exact absurd hs h0
    · have hn' : errorOf (.init fam pol rnd bsel key nonce) { s with words := x } = none := hn
      rw [exec_of_no_error hn'] at hu
      cases hu
      rfl
  · have hctr := State.ctr_of_key_words hx
    cases he : errorOf i s with
    | some e =>
      rw [exec_of_error he] at ht
      rw [exec_of_error ((errorOf_words hctr i).trans he)] at hu
      cases ht; cases hu
      rfl
    | none =>
      rw [exec_of_no_error he] at ht
      rw [exec_of_no_error ((errorOf_words hctr i).trans he)] at hu
      cases ht; cases hu
      obtain ⟨-, hready, -⟩ := ready_of_no_error he
      exact bodyOf_resp_words hctr fun hk =>
        State.streamId_of_key_words (rng_width (hready hk) hl).1 hx

end Sys2Proof.Machine
end

section
/-! PROOFS of the obligations about illegal packets (30_encoding.md R107 to R111). First the fields of a header
as numbers, against the masks of the opcode map; then the row of a defined opcode and the operands each row
accepts; then the conditions of R109, read off the packet's bits, against the decoder; then the obligations. -/

namespace Sys2Proof.Machine

open Safety

/-! ### Header fields as numbers -/

/-- A field of the decoder is the field a claim reads. -/
theorem toNat_bits (w : Word) (lo n : Nat) : (bits w lo n).toNat = field w lo n := by
  rw [bits, BitVec.extractLsb'_toNat, Nat.shiftRight_eq_div_pow, field]

/-- So is the opcode. -/
theorem field_opcode {w : Word} {o : Byte} (h : bits w 0 8 = o) : field w 0 8 = o.toNat := by
  rw [← toNat_bits, h]

theorem field_eq_zero_iff {w : Word} {lo n : Nat} :
    field w lo n = 0 ↔ ∀ i < n, w.getLsbD (lo + i) = false := by
  have hbits : field w lo n = 0 ↔ bits w lo n = 0 := by
    rw [← toNat_bits, ← BitVec.toNat_inj, BitVec.ofNat_eq_ofNat, BitVec.toNat_ofNat, Nat.zero_mod]
  rw [hbits, bits, BitVec.eq_of_getLsbD_eq_iff]
  simp +contextual

/-! ### Masks (30_encoding.md R107) -/

/-- The mask of the field `W0[lo+n-1 : lo]`. -/
def fieldMask (lo n : Nat) : Word := BitVec.ofNat 32 (2 ^ n - 1) <<< lo

theorem getLsbD_fieldMask (lo n i : Nat) :
    (fieldMask lo n).getLsbD i = (decide (i < 32) && decide (lo ≤ i) && decide (i < lo + n)) := by
  simp only [fieldMask, BitVec.getLsbD_shiftLeft, BitVec.getLsbD_ofNat, Nat.testBit_two_pow_sub_one]
  grind

theorem and_fieldMask_eq_zero_iff {w : Word} {lo n : Nat} :
    w &&& fieldMask lo n = 0 ↔ field w lo n = 0 := by
  rw [field_eq_zero_iff, BitVec.eq_of_getLsbD_eq_iff]
  simp only [BitVec.getLsbD_and, getLsbD_fieldMask, BitVec.ofNat_eq_ofNat, BitVec.getLsbD_zero]
  constructor
  · intro h i hi
    by_cases hlt : lo + i < 32
    · simpa [hlt, hi] using h (lo + i) hlt
    · exact BitVec.getLsbD_of_ge w (lo + i) (Nat.le_of_not_lt hlt)
  · intro h i hi
    by_cases hin : lo ≤ i ∧ i < lo + n
    · have hbit := h (i - lo) (by omega)
      rw [Nat.add_sub_cancel' hin.1] at hbit
      rw [hbit, Bool.false_and]
    · grind

theorem and_opcodeMask (w : Word) : w &&& fieldMask 0 8 = (bits w 0 8).setWidth 32 := by
  refine BitVec.eq_of_getLsbD_eq fun i hi => ?_
  rw [BitVec.getLsbD_and, getLsbD_fieldMask, bits, BitVec.getLsbD_setWidth, BitVec.getLsbD_extractLsb']
  simp [hi, Bool.and_comm]

/-- The mask of several fields, each given by its lowest bit and its length. -/
def fieldsMask (fs : List (Nat × Nat)) : Word := fs.foldr (fun f m => fieldMask f.1 f.2 ||| m) 0

theorem and_fieldsMask_eq_zero_iff {w : Word} {fs : List (Nat × Nat)} :
    w &&& fieldsMask fs = 0 ↔ ∀ f ∈ fs, field w f.1 f.2 = 0 := by
  induction fs with
  | nil => simp [fieldsMask]
  | cons f fs ih =>
    have hcons : fieldsMask (f :: fs) = fieldMask f.1 f.2 ||| fieldsMask fs := rfl
    rw [hcons, BitVec.and_or_distrib_left]
    simp only [BitVec.ofNat_eq_ofNat, BitVec.or_eq_zero_iff] at ih ⊢
    rw [ih, List.forall_mem_cons]
    exact and_congr_left' and_fieldMask_eq_zero_iff

/-! ### The row of a defined opcode (30_encoding.md R106 to R108) -/

/-- The row of the opcode map that stands for a command. -/
def rowOfOp (op : Op) : Row := (opcodeTable.find? fun r => r.op == op).getD ⟨0, op, .Z, 0⟩

theorem eq_rowOfOp : ∀ r ∈ opcodeTable, r = rowOfOp r.op := by decide

theorem rowOfOp_op (op : Op) : (rowOfOp op).op = op := by cases op <;> rfl

/-- The opcodes without a row are the ones R108 lists. -/
theorem find?_opcode_isNone : ∀ o : Byte,
    (opcodeTable.find? fun r => r.opc == o).isNone = reservedOpcode (o.setWidth 32) := by decide

theorem rowOf_isNone (w : Word) : (rowOf w).isNone = reservedOpcode w := by
  have hopc : field ((bits w 0 8).setWidth 32) 0 8 = field w 0 8 := by simp [field, bits]
  rw [rowOf, find?_opcode_isNone, reservedOpcode, reservedOpcode, hopc]

theorem rowOf_of_reserved {w0 : Word} (h : reservedOpcode w0 = true) : rowOf w0 = none :=
  Option.isNone_iff_eq_none.1 ((rowOf_isNone w0).trans h)

/-- A defined opcode is the opcode of a command, and names its row. -/
theorem exists_op_of_defined {w0 : Word} (h : reservedOpcode w0 = false) :
    ∃ op, rowOf w0 = some (rowOfOp op) ∧ bits w0 0 8 = (rowOfOp op).opc := by
  rw [← rowOf_isNone, Option.isNone_eq_false_iff, Option.isSome_iff_exists] at h
  obtain ⟨r, hr⟩ := h
  have hrow := eq_rowOfOp r (List.mem_of_find?_eq_some hr)
  have hopc := List.find?_some (p := fun r : Row => r.opc == bits w0 0 8) hr
  exact ⟨r.op, hrow ▸ hr, by rw [← hrow, eq_of_beq hopc]⟩

/-- The header fields that must be zero, by lowest bit and length (30_encoding.md R94 to R104). -/
def mustBeZero : Op → List (Nat × Nat)
  | .qr => [(9, 7)]
  | .dround => [(9, 7), (16, 8), (24, 8)]
  | .rounds => [(9, 7), (24, 8)]
  | .permnf => [(9, 7), (24, 8)]
  | .hderive => [(9, 2), (13, 19)]
  | .maxpar => [(8, 5), (16, 16)]
  | .gen => [(24, 8)]
  | .genx => [(24, 8)]
  | .init => []
  | _ => [(8, 24)]

theorem mask_rowOfOp (op : Op) :
    (rowOfOp op).mask = fieldMask 0 8 ||| fieldsMask (mustBeZero op) := by
  cases op <;> decide

theorem opcodeMask_and_fieldsMask (op : Op) : fieldMask 0 8 &&& fieldsMask (mustBeZero op) = 0 := by
  cases op <;> decide

/-- The mask of a row that the opcode names checks the must-be-zero fields. -/
theorem rowMatches_rowOfOp {op : Op} {w0 : Word} (hopc : bits w0 0 8 = (rowOfOp op).opc) :
    rowMatches (rowOfOp op) w0 = true ↔ ∀ f ∈ mustBeZero op, field w0 f.1 f.2 = 0 := by
  rw [rowMatches, beq_iff_eq, mask_rowOfOp, BitVec.and_or_distrib_left, ← hopc, ← and_opcodeMask,
    ← and_fieldsMask_eq_zero_iff]
  constructor
  · intro h
    have hmask := congrArg (· &&& fieldsMask (mustBeZero op)) h
    simp only [BitVec.and_or_distrib_right, BitVec.and_assoc, opcodeMask_and_fieldsMask,
      BitVec.and_self] at hmask
    simpa using hmask
  · intro h
    rw [h]
    exact BitVec.or_zero

/-! ### Packet lengths (30_encoding.md R111) -/

theorem packetLength_of_reserved {w0 : Word} (h : reservedOpcode w0 = true) : packetLength w0 = 1 := by
  unfold packetLength
  split <;> simp_all [reservedOpcode]

theorem packetWords_eq_packetLength (w0 : Word) : packetWords w0 = packetLength w0 := by
  cases h : reservedOpcode w0 with
  | true => rw [packetWords, rowOf_of_reserved h, packetLength_of_reserved h]
  | false =>
    obtain ⟨op, hrow, hopc⟩ := exists_op_of_defined h
    rw [Laws.PacketLength.packetWords_of_row hrow, packetLength, field_opcode hopc]
    cases op
    case init => simp [formatWords, rowOfOp, opcodeTable, wordsFor, toNat_bits]
    all_goals rfl

/-! ### Operands, read from their words (30_encoding.md R91, R92) -/

theorem indexOf_bits_eq_iff {w : Word} {lo lo' : Nat} :
    indexOf (bits w lo 4) = indexOf (bits w lo' 4) ↔ field w lo 4 = field w lo' 4 := by
  rw [indexOf, indexOf, Fin.ext_iff, BitVec.val_toFin, BitVec.val_toFin, toNat_bits, toNat_bits]

theorem dwordAt_lt_iff (ws : List Word) (k : Nat) :
    (dwordAt ws k).toNat < 2 ^ 32 ↔ ws.getD (k + 1) 0 = 0 := by
  have hlow := (ws.getD k 0).isLt
  rw [dwordAt, BitVec.toNat_append, ← Nat.shiftLeft_add_eq_or_of_lt hlow, Nat.shiftLeft_eq,
    ← BitVec.toNat_inj]
  simp only [BitVec.ofNat_eq_ofNat, BitVec.toNat_ofNat, Nat.zero_mod] at *
  omega

theorem toNat_qwordAt (ws : List Word) (k : Nat) :
    (qwordAt ws k).toNat = (ws.getD k 0).toNat + 2 ^ 32 * (ws.getD (k + 1) 0).toNat
      + 2 ^ 64 * (ws.getD (k + 2) 0).toNat + 2 ^ 96 * (ws.getD (k + 3) 0).toNat := by
  simp only [qwordAt, BitVec.toNat_append]
  iterate 3 rw [← Nat.shiftLeft_add_eq_or_of_lt (BitVec.isLt _)]
  simp only [Nat.shiftLeft_eq]
  omega

theorem qwordAt_lt_iff (ws : List Word) (k : Nat) :
    ((qwordAt ws k).toNat < 2 ^ 64 ↔ ws.getD (k + 2) 0 = 0 ∧ ws.getD (k + 3) 0 = 0)
      ∧ ((qwordAt ws k).toNat < 2 ^ 96 ↔ ws.getD (k + 3) 0 = 0) := by
  have h0 := (ws.getD k 0).isLt
  have h1 := (ws.getD (k + 1) 0).isLt
  have h2 := (ws.getD (k + 2) 0).isLt
  rw [toNat_qwordAt, ← BitVec.toNat_inj, ← BitVec.toNat_inj]
  simp only [BitVec.ofNat_eq_ofNat, BitVec.toNat_ofNat, Nat.zero_mod] at *
  omega

/-- The bytes of a word from byte `m` on are zero when the number they make is. -/
theorem bytes_from_eq_zero_iff {w m : Nat} (hw : w < 2 ^ 32) (hm : m < 4) :
    (∀ j < 4 - m, w / 2 ^ (8 * (m + j)) % 2 ^ 8 = 0) ↔ w / 2 ^ (8 * m) = 0 := by
  constructor
  · intro h
    have hbyte (j : Nat) (hj : m + j < 4) := h j (by omega)
    interval_cases m
    · have := hbyte 0; have := hbyte 1; have := hbyte 2; have := hbyte 3; omega
    · have := hbyte 0; have := hbyte 1; have := hbyte 2; omega
    · have := hbyte 0; have := hbyte 1; omega
    · have := hbyte 0; omega
  · intro h j _
    rw [Nat.mul_add, Nat.pow_add, ← Nat.div_div_eq_div_mul, h, Nat.zero_div, Nat.zero_mod]

/-- A byte after the end of a string is a byte of the string's last word. -/
theorem stringByte_eq_zero_iff {ws : List Word} {k len j : Nat} (hj : len % 4 + j < 4) :
    stringByte ws k (len + j) = 0
      ↔ (ws.getD (k + len / 4) 0).toNat / 2 ^ (8 * (len % 4 + j)) % 2 ^ 8 = 0 := by
  have hdiv : (len + j) / 4 = len / 4 := by omega
  have hmod : (len + j) % 4 = len % 4 + j := by omega
  rw [stringByte, hdiv, hmod, packetByte, ← BitVec.toNat_inj, BitVec.extractLsb'_toNat,
    Nat.shiftRight_eq_div_pow]
  rfl

/-- The decoder's padding check, byte by byte, is the one on the rest of the last word. -/
theorem paddingZero_eq (ws : List Word) (k len : Nat) :
    paddingZero ws k len = !paddingSet ws k len := by
  rw [paddingZero, paddingSet, wordsFor]
  by_cases h : len % 4 = 0
  · have hcount : 4 * ((len + 3) / 4) - len = 0 := by omega
    simp [hcount, h]
  · have hcount : 4 * ((len + 3) / 4) - len = 4 - len % 4 := by omega
    have hrest := bytes_from_eq_zero_iff (ws.getD (k + len / 4) 0).isLt
      (Nat.mod_lt len (by decide : 0 < 4))
    rw [hcount, Bool.eq_iff_iff, List.all_eq_true]
    simp only [List.mem_range, beq_iff_eq]
    rw [forall₂_congr fun j hj => stringByte_eq_zero_iff (by omega), hrest]
    simp [h]

/-- Nothing after the words of a string is read. -/
theorem paddingSet_take {n k len : Nat} (ws : List Word) (h : k + (len + 3) / 4 ≤ n) :
    paddingSet (ws.take n) k len = paddingSet ws k len := by
  rw [paddingSet, paddingSet]
  by_cases hlen : len % 4 = 0
  · simp [hlen]
  · have hlast : k + len / 4 < n := by omega
    simp [List.getElem?_take_of_lt hlast]

/-! ### Legal field values (30_encoding.md R93, R98, R103) -/

theorem roundsOf_isSome : ∀ rnd : BitVec 2, (roundsOf rnd).isSome = !(rnd.toNat == 3) := by decide

theorem famOf_eq_chacha_iff : ∀ b : BitVec 1, famOf b = .chacha ↔ b.toNat = 0 := by decide
theorem famOf_eq_salsa_iff : ∀ b : BitVec 1, famOf b = .salsa ↔ b.toNat = 1 := by decide
theorem polOf_eq_standard_iff : ∀ b : BitVec 2, polOf b = .standard ↔ b.toNat = 0 := by decide
theorem polOf_eq_legacy_iff : ∀ b : BitVec 2, polOf b = .legacy ↔ b.toNat = 1 := by decide

theorem legalVariant_iff : ∀ (f : BitVec 1) (p : BitVec 2), legalVariant (famOf f) (polOf p) = true
    ↔ ¬ (f.toNat = 1 ∧ (p.toNat = 0 ∨ p.toNat = 3)) := by decide

/-- GEN and GENX: a base layout with a counter base of its width, and the other fields. -/
theorem legalGen_iff {fam : Family} {pol : Policy} {rnd : BitVec 2} {bsel : BitVec 3}
    {nblk : BitVec 8} {cb : DWord} {caps : BitVec 4} :
    legalGen fam pol rnd bsel nblk cb caps = true ↔
      (fam = .chacha ∧ pol = .standard ∧ cb.toNat < 2 ^ 32 ∨ fam = .chacha ∧ pol = .legacy
        ∨ fam = .salsa ∧ pol = .legacy)
      ∧ rnd.toNat ≠ 3 ∧ bsel.toNat < 6 ∧ (nblk.toNat = 1 ∨ nblk.toNat = parOf (select bsel caps)) := by
  have hcb := cb.isLt
  simp only [legalGen, legalBsel, roundsOf_isSome, Bool.and_eq_true, Bool.or_eq_true, Bool.not_eq_true',
    beq_iff_eq, beq_eq_false_iff_ne, decide_eq_true_eq]
  cases fam <;> cases pol <;> simp [legalLayout, ctrWidth, widthBits, hcb] <;> tauto

/-! ### The operands each row accepts (30_encoding.md R109) -/

/-- The operands name a command, and it is a legal one on the platform. -/
def operandsAccepted (op : Op) (w0 : Word) (ws : List Word) (caps : BitVec 4) : Bool :=
  (decodeOperands op w0 ws).any (operandsLegal · caps)

section
variable (w0 : Word) (ws : List Word) (caps : BitVec 4)

theorem operandsAccepted_qr :
    operandsAccepted .qr w0 ws caps = true ↔
      field w0 16 4 ≠ field w0 20 4 ∧ field w0 16 4 ≠ field w0 24 4 ∧ field w0 16 4 ≠ field w0 28 4
      ∧ field w0 20 4 ≠ field w0 24 4 ∧ field w0 20 4 ≠ field w0 28 4
      ∧ field w0 24 4 ≠ field w0 28 4 := by
  simp [operandsAccepted, decodeOperands, operandsLegal, Instr.legal, distinct4, indexOf_bits_eq_iff,
    and_assoc]

theorem operandsAccepted_hderive :
    operandsAccepted .hderive w0 ws caps = true ↔ field w0 11 2 ≠ 3 := by
  simp [operandsAccepted, decodeOperands, operandsLegal, Instr.legal, roundsOf_isSome, toNat_bits]

theorem operandsAccepted_maxpar :
    operandsAccepted .maxpar w0 ws caps = true ↔ field w0 13 3 < 6 := by
  simp [operandsAccepted, decodeOperands, operandsLegal, Instr.legal, legalBsel, toNat_bits]

theorem operandsAccepted_gen :
    operandsAccepted .gen w0 ws caps = true ↔
      (field w0 8 1 = 0 ∧ field w0 9 2 = 0 ∧ ws.getD 17 0 = 0 ∨ field w0 8 1 = 0 ∧ field w0 9 2 = 1
        ∨ field w0 8 1 = 1 ∧ field w0 9 2 = 1)
      ∧ field w0 11 2 ≠ 3 ∧ field w0 13 3 < 6
      ∧ (field w0 16 8 = 1 ∨ field w0 16 8 = parOf (select (bits w0 13 3) caps)) := by
  rw [operandsAccepted, decodeOperands, Option.any_some, ← legalGen_eq, legalGen_iff, dwordAt_lt_iff,
    famOf_eq_chacha_iff, famOf_eq_salsa_iff, polOf_eq_standard_iff, polOf_eq_legacy_iff]
  simp only [toNat_bits]

/-- GENX accepts what GEN accepts. -/
theorem operandsAccepted_genx :
    operandsAccepted .genx w0 ws caps = operandsAccepted .gen w0 ws caps := rfl

theorem operandsAccepted_init :
    operandsAccepted .init w0 ws caps = true ↔
      field w0 11 2 ≠ 3 ∧ field w0 13 3 < 6
      ∧ ¬ (field w0 8 1 = 1 ∧ (field w0 9 2 = 0 ∨ field w0 9 2 = 3))
      ∧ paddingSet ws 0 (field w0 16 8) = false
      ∧ paddingSet ws ((field w0 16 8 + 3) / 4) (field w0 24 8) = false := by
  simp only [operandsAccepted, decodeOperands, paddingZero_eq, toNat_bits, wordsFor]
  split_ifs with hpad
  · simp only [Bool.and_eq_true, Bool.not_eq_true'] at hpad
    simp only [Option.any_some, operandsLegal, Instr.legal, Bool.and_eq_true, legalVariant_iff,
      roundsOf_isSome, legalBsel, toNat_bits, Bool.not_eq_true', beq_eq_false_iff_ne,
      decide_eq_true_eq]
    tauto
  · simp only [Bool.and_eq_true, Bool.not_eq_true'] at hpad
    simp only [Option.any_none, Bool.false_eq_true, false_iff]
    tauto

theorem operandsAccepted_seek :
    operandsAccepted .seek w0 ws caps = true ↔ ws.getD 2 0 = 0 ∧ ws.getD 3 0 = 0 :=
  decide_eq_true_iff.trans (qwordAt_lt_iff ws 0).1

theorem operandsAccepted_rngSetStr :
    operandsAccepted .rngSetStr w0 ws caps = true ↔ ws.getD 3 0 = 0 :=
  decide_eq_true_iff.trans (qwordAt_lt_iff ws 0).2

/-! ### The conditions of R109 -/

theorem illegalGenerate_eq_false_iff :
    illegalGenerate w0 ws caps = false ↔
      field w0 24 8 = 0 ∧ operandsAccepted .gen w0 ws caps = true := by
  rw [operandsAccepted_gen]
  simp only [illegalGenerate, Bool.or_eq_false_iff, Bool.and_eq_false_iff, Bool.not_eq_false',
    Bool.or_eq_true, beq_iff_eq, bne_eq_false_iff_eq, beq_eq_false_iff_ne, decide_eq_false_iff_not,
    Prod.mk.injEq, ne_eq]
  grind

variable {w0}

/-- None of the conditions of R109 holds when the must-be-zero fields are zero and the operands are accepted. -/
theorem illegalFields_eq_false_iff {op : Op} (hopc : bits w0 0 8 = (rowOfOp op).opc) :
    illegalFields w0 ws caps = false ↔
      (∀ f ∈ mustBeZero op, field w0 f.1 f.2 = 0) ∧ operandsAccepted op w0 ws caps = true := by
  rw [illegalFields, field_opcode hopc]
  cases op
  case qr => simp [rowOfOp, opcodeTable, mustBeZero, operandsAccepted_qr, and_assoc]
  case hderive => simp [rowOfOp, opcodeTable, mustBeZero, operandsAccepted_hderive, and_assoc]
  case maxpar => simp [rowOfOp, opcodeTable, mustBeZero, operandsAccepted_maxpar, and_assoc]
  case gen | genx =>
    simp [rowOfOp, opcodeTable, mustBeZero, illegalGenerate_eq_false_iff, operandsAccepted_genx]
  case init => simp [rowOfOp, opcodeTable, mustBeZero, operandsAccepted_init, and_assoc]
  case seek => simp [rowOfOp, opcodeTable, mustBeZero, operandsAccepted_seek, and_assoc]
  case rngSetStr => simp [rowOfOp, opcodeTable, mustBeZero, operandsAccepted_rngSetStr]
  all_goals -- R109 restricts no operand of the other commands
    refine Iff.trans ?_ (and_iff_left rfl).symm
    simp [rowOfOp, opcodeTable, mustBeZero, and_assoc]

/-- The conditions read no word after the packet. -/
theorem illegalFields_take (h : reservedOpcode w0 = false) :
    illegalFields w0 (ws.take (packetLength w0 - 1)) caps = illegalFields w0 ws caps := by
  obtain ⟨op, -, hopc⟩ := exists_op_of_defined h
  rw [illegalFields, illegalFields, field_opcode hopc]
  cases op
  case gen | genx => simp [packetLength, field_opcode hopc, rowOfOp, opcodeTable, illegalGenerate]
  case seek | rngSetStr => simp [packetLength, field_opcode hopc, rowOfOp, opcodeTable]
  case init =>
    have hn : packetLength w0 = 1 + (field w0 16 8 + 3) / 4 + (field w0 24 8 + 3) / 4 := by
      rw [packetLength, field_opcode hopc]
      rfl
    have hkey := paddingSet_take (n := packetLength w0 - 1) (k := 0) (len := field w0 16 8) ws (by omega)
    have hnonce := paddingSet_take (n := packetLength w0 - 1) (k := (field w0 16 8 + 3) / 4)
      (len := field w0 24 8) ws (by omega)
    simp [rowOfOp, opcodeTable, hkey, hnonce]
  all_goals rfl

end

/-! ### Whole packets -/

theorem decodePacket_eq_ok_iff {w0 : Word} {op : Op} (hrow : rowOf w0 = some (rowOfOp op))
    {ws : List Word} {i : Instr} :
    decodePacket w0 ws = .ok i ↔
      rowMatches (rowOfOp op) w0 = true ∧ decodeOperands op w0 ws = some i := by
  rw [decodePacket, hrow]
  simp only [rowOfOp_op]
  cases rowMatches (rowOfOp op) w0 <;> cases decodeOperands op w0 ws <;> simp

/-- A packet with a defined opcode is a legal command when none of the conditions of R109 holds. -/
theorem exists_legal_command_iff {w0 : Word} (h : reservedOpcode w0 = false) (ws : List Word)
    (caps : BitVec 4) :
    (∃ i, decodePacket w0 (ws.take (packetLength w0 - 1)) = .ok i ∧ operandsLegal i caps = true)
      ↔ illegalFields w0 ws caps = false := by
  obtain ⟨op, hrow, hopc⟩ := exists_op_of_defined h
  rw [← illegalFields_take ws caps h, illegalFields_eq_false_iff _ _ hopc, ← rowMatches_rowOfOp hopc,
    operandsAccepted, Option.any_eq_true]
  simp only [decodePacket_eq_ok_iff hrow, and_assoc, exists_and_left]

section
variable {w0 : Word} {ws : List Word} (hlen : packetLength w0 ≤ ws.length + 1)
include hlen

theorem decode_of_ok {i : Instr} (h : decodePacket w0 (ws.take (packetLength w0 - 1)) = .ok i) :
    decode (w0 :: ws) = .instr i (ws.drop (packetLength w0 - 1)) := by
  have hwhole : ¬ ws.length < packetLength w0 - 1 := by omega
  simp only [decode, packetWords_eq_packetLength, if_neg hwhole, h]

theorem decode_of_error {why : Illegal}
    (h : decodePacket w0 (ws.take (packetLength w0 - 1)) = .error why) :
    decode (w0 :: ws) = .illegal why (ws.drop (packetLength w0 - 1)) := by
  have hwhole : ¬ ws.length < packetLength w0 - 1 := by omega
  simp only [decode, packetWords_eq_packetLength, if_neg hwhole, h]

/-- A packet that is no legal command is taken off the port and raises IllegalCommand (60_exceptions.md R302),
whether the decoder finds the fault or the command's own check. -/
theorem step_of_no_legal_command {s : State} (hrst : s.rst = false) (hcmd : s.cmd = w0 :: ws)
    (h : ¬ ∃ i, decodePacket w0 (ws.take (packetLength w0 - 1)) = .ok i
      ∧ operandsLegal i s.caps = true) :
    step s = .next { s with
      cmd := ws.drop (packetLength w0 - 1)
      err := if s.fault = true then s.err else .illegalCommand
      resp := [0x00000003] } := by
  have hraise := takeError_ordinary (s.consume (ws.drop (packetLength w0 - 1))) .illegalCommand
  rw [step, if_neg (Bool.eq_false_iff.1 hrst), State.fetch, hcmd]
  cases hd : decodePacket w0 (ws.take (packetLength w0 - 1)) with
  | error why =>
    rw [decode_of_error hlen hd]
    exact congrArg Host.Outcome.next hraise
  | ok i =>
    have hillegal : operandsLegal i s.caps = false :=
      Bool.eq_false_iff.2 fun hl => h ⟨i, hd, hl⟩
    have herr : errorOf i (s.consume (ws.drop (packetLength w0 - 1))) = some .illegalCommand := by
      rw [errorOf, State.consume_caps, hillegal]
      rfl
    rw [decode_of_ok hlen hd]
    refine (exec_of_error herr).trans ?_
    rw [stickyOf_eq_false i _ (by decide)]
    exact congrArg Host.Outcome.next hraise

end

/-! ### The obligations -/

/-- Settles O4: a reserved opcode has no row, so its packet is one word and names no command. -/
theorem reservedOpcodeIsIllegal : Obligations.ReservedOpcodeIsIllegal := by
  intro s w0 ws hrst hcmd hres
  have hone := packetLength_of_reserved hres
  have hnone : ¬ ∃ i, decodePacket w0 (ws.take (packetLength w0 - 1)) = .ok i
      ∧ operandsLegal i s.caps = true := by
    simp [decodePacket, rowOf_of_reserved hres]
  have hstep := step_of_no_legal_command (by omega) hrst hcmd hnone
  rwa [hone] at hstep

/-- Settles O5: the conditions of R109 are the rows' masks, the padding check and the commands' own checks. -/
theorem illegalFieldsAreIllegal : Obligations.IllegalFieldsAreIllegal := by
  intro s w0 ws hrst hcmd hres hlen
  have hiff := exists_legal_command_iff hres ws s.caps
  refine ⟨fun hill => step_of_no_legal_command hlen hrst hcmd ?_, fun hleg => ?_⟩
  · rw [hiff, hill]
    decide
  · obtain ⟨i, hd, hl⟩ := hiff.2 hleg
    exact ⟨i, hcmd ▸ decode_of_ok hlen hd, hl⟩

end Sys2Proof.Machine
end

section
/-! PROOFS of the obligations about the Permutation Core (40_permutation.md R130 to R141). First rotations and
words read after a quarter-round, then the answer of a permutation command, then the obligations. -/

namespace Sys2Proof.Machine

open Safety

/-! ### Rotations (00_scope.md R11) -/

/-- Every rotation constant lies below 32, where `rotl` is the library's rotation. -/
theorem rotl_eq_rotateLeft (a : Word) {n : Nat} (h : n < 32) : rotl a n = a.rotateLeft n := by
  rw [BitVec.rotateLeft_def, Nat.mod_eq_of_lt h, rotl]

/-! ### State words read after a write -/

theorem words_set_same (x : Words) (i : Fin 16) (v : Word) : (x.set i v)[i] = v :=
  Vector.getElem_set_self i.isLt

theorem words_set_other (x : Words) {i k : Fin 16} (v : Word) (h : k ≠ i) : (x.set i v)[k] = x[k] :=
  Vector.getElem_set_ne i.isLt k.isLt fun e => h (Fin.ext e.symm)

/-! ### The ChaCha quarter-round (40_permutation.md R132) -/

/-- R133's condition on the indices as six inequalities. -/
theorem distinct4_iff {a b c d : Fin 16} :
    distinct4 a b c d = true ↔ a ≠ b ∧ a ≠ c ∧ a ≠ d ∧ b ≠ c ∧ b ≠ d ∧ c ≠ d := by
  simp [distinct4, and_assoc]

/-- One of the two passes of R132's twelve operations, whose halves differ in the rotations only. -/
def qrcHalf (r1 r2 : Nat) (x : Words) (a b c d : Fin 16) : Words :=
  let y := x.set a (x[a] + x[b])
  let y := y.set d (rotl (y[d] ^^^ y[a]) r1)
  let y := y.set c (y[c] + y[d])
  y.set b (rotl (y[b] ^^^ y[c]) r2)

/-- The model's quarter-round is the half with rotations 16 and 12, then the half with 8 and 7. -/
theorem qrc_eq_halves (x : Words) (a b c d : Fin 16) :
    qrc x a b c d = qrcHalf 8 7 (qrcHalf 16 12 x a b c d) a b c d := rfl

/-- A half writes the four selected words only. -/
theorem qrcHalf_other (r1 r2 : Nat) (x : Words) {a b c d k : Fin 16} (ha : k ≠ a) (hb : k ≠ b)
    (hc : k ≠ c) (hd : k ≠ d) : (qrcHalf r1 r2 x a b c d)[k] = x[k] := by
  simp only [qrcHalf, words_set_other _ _ ha, words_set_other _ _ hb, words_set_other _ _ hc,
    words_set_other _ _ hd]

/-- On distinct indices no write of a half disturbs a word that a later one reads. -/
theorem qrcHalf_selected {r1 r2 : Nat} (h1 : r1 < 32) (h2 : r2 < 32) (x : Words) {a b c d : Fin 16}
    (h : distinct4 a b c d = true) :
    let y := qrcHalf r1 r2 x a b c d
    let a1 := x[a] + x[b]
    let d1 := (x[d] ^^^ a1).rotateLeft r1
    let c1 := x[c] + d1
    let b1 := (x[b] ^^^ c1).rotateLeft r2
    y[a] = a1 ∧ y[b] = b1 ∧ y[c] = c1 ∧ y[d] = d1 := by
  obtain ⟨hab, hac, had, hbc, hbd, hcd⟩ := distinct4_iff.1 h
  simp only [qrcHalf, rotl_eq_rotateLeft _ h1, rotl_eq_rotateLeft _ h2, words_set_same,
    words_set_other _ _ hab, words_set_other _ _ hac, words_set_other _ _ had,
    words_set_other _ _ hbc, words_set_other _ _ hbd, words_set_other _ _ hcd.symm,
    words_set_other _ _ hab.symm, words_set_other _ _ hac.symm, words_set_other _ _ had.symm,
    words_set_other _ _ hbc.symm, words_set_other _ _ hbd.symm, words_set_other _ _ hcd, and_self]

/-- A quarter-round writes the four selected words only. -/
theorem qrc_other (x : Words) {a b c d k : Fin 16} (ha : k ≠ a) (hb : k ≠ b) (hc : k ≠ c)
    (hd : k ≠ d) : (qrc x a b c d)[k] = x[k] := by
  rw [qrc_eq_halves, qrcHalf_other _ _ _ ha hb hc hd, qrcHalf_other _ _ _ ha hb hc hd]

/-! ### The answer of a permutation command (40_permutation.md R133 to R141) -/

/-- A command that needs no engine and whose body answers sixteen words writes its response and nothing
else. -/
theorem exec_pure_words {i : Instr} {s : State} {y : Words} (hk : kind i = .pure)
    (hl : operandsLegal i s.caps = true) (hf : s.fault = false) (hp : region i = (0, 0))
    (hb : bodyOf i s = s.respond (ser y).toList) :
    exec i s = .next { s with resp := 0x00004000 :: y.toList } := by
  rw [exec_pure hk hl hf hp, hb, respond_ser]

/-- The permutation without feed-forward is an iterate of the double-round (40_permutation.md R138). -/
theorem permNF_eq_iterate (fam : Family) (rc : Nat) (x : Words) :
    permNF fam rc x = (doubleRound fam)^[rc / 2] x :=
  doubleRounds_eq_iterate fam (rc / 2) x

/-! ### The obligations -/

/-- Settles O27: QR answers the quarter-round's words, which are R132's operations on the four selected ones
and the old words elsewhere. -/
theorem qrChachaQuarterRound : Obligations.QrChachaQuarterRound := by
  intro s a b c d x hf hd
  have hfirst := qrcHalf_selected (r1 := 16) (r2 := 12) (by decide) (by decide) x hd
  have hsecond := qrcHalf_selected (r1 := 8) (r2 := 7) (by decide) (by decide)
    (qrcHalf 16 12 x a b c d) hd
  obtain ⟨ha1, hb1, hc1, hd1⟩ := hfirst
  rw [ha1, hb1, hc1, hd1] at hsecond
  obtain ⟨ha2, hb2, hc2, hd2⟩ := hsecond
  exact ⟨qrc x a b c d, exec_pure_words rfl hd hf rfl rfl, ha2, hb2, hc2, hd2, fun _ => qrc_other x⟩

/-- Settles O30: PERMNF answers the double-rounds of the words, and ROUNDS adds the words to that. -/
theorem roundsAddTheOriginalState : Obligations.RoundsAddTheOriginalState := by
  intro s fam rc x hf
  have hfeed : bodyOf (.rounds fam rc x) s
      = s.respond (ser (addWords (permNF fam rc.toNat x) x)).toList := rfl
  exact ⟨permNF fam rc.toNat x, permNF_eq_iterate fam rc.toNat x, exec_pure_words rfl rfl hf rfl rfl,
    exec_pure_words rfl rfl hf rfl hfeed⟩

end Sys2Proof.Machine
end

section
/-! PROOFS of the obligations about the backend contract (42_backends.md R182 to R192): the backend each legal
`BSEL` selects, MAXPAR's answer, and the words GEN answers. -/

namespace Sys2Proof.Machine

open Safety

/-! ### The selection (42_backends.md R184) -/

/-- The automatic selection and the five forced tags; 6 and 7 are reserved (30_encoding.md R109). -/
theorem legalBsel_cases : ∀ {bsel : BitVec 3}, bsel.toNat < 6 →
    bsel = 0 ∨ bsel = 1 ∨ bsel = 2 ∨ bsel = 3 ∨ bsel = 4 ∨ bsel = 5 := by decide

/-- The automatic selection tries the vector backends in the order of R184. -/
theorem select_auto (caps : BitVec 4) :
    select 0 caps = if caps[2] then .avx512 else if caps[1] then .avx2 else if caps[0] then .sse2
      else if caps[3] then .neon else .soft := rfl

/-- A forced backend that `CAPS` does not enable falls back to Soft. -/
theorem select_forced {bsel : BitVec 3} (h : bsel ≠ 0) (caps : BitVec 4) :
    select bsel caps = if available caps (forcedTag bsel) then forcedTag bsel else .soft := if_neg h

/-! ### MAXPAR (42_backends.md R190) -/

/-- The response whose payload is a 32-bit number. -/
theorem respond_natBytes4 (s : State) (n : Nat) :
    s.respond (natBytes 4 n) = { s with resp := [0x00000400, BitVec.ofNat 32 n] } := by
  rw [State.respond, packBytes_natBytes4, natBytes_length]
  rfl

/-- MAXPAR answers the width of the selected backend and writes nothing else. -/
theorem exec_maxpar {s : State} {bsel : BitVec 3} (hf : s.fault = false) (hb : bsel.toNat < 6) :
    exec (.maxpar bsel) s = .next { s with
      resp := [0x00000400, BitVec.ofNat 32 (parOf (select bsel s.caps))] } := by
  have hl : operandsLegal (.maxpar bsel) s.caps = true := decide_eq_true hb
  rw [exec_pure rfl hl hf rfl, ← respond_natBytes4]
  rfl

/-! ### The words of GEN's blocks (42_backends.md R182, R192) -/

/-- The words of `n` blocks: block `j` is the permuted state of counter `(cb + j) mod 2^W`. -/
def genWords (fam : Family) (w : CtrWidth) (rc : Nat) (x : Words) (cb n : Nat) : List Word :=
  (List.range n).flatMap fun j =>
    (perm fam rc (withCounter fam w ((cb + j) % 2 ^ widthBits w) x)).toList

section
variable (fam : Family) (w : CtrWidth) (rc : Nat) (x : Words) (cb n : Nat)

/-- The payload of GEN is the bytes of these words. -/
theorem genBlocks_eq_genWords : genBlocks fam w rc x cb n = (genWords fam w rc x cb n).flatMap bytesLE := by
  simp only [genBlocks, genWords, blockAt, blockOf, ser_toList, List.flatMap_assoc]

theorem genWords_length : 4 * (genWords fam w rc x cb n).length = 64 * n := by
  rw [← length_flatMap_bytesLE, ← genBlocks_eq_genWords, genBlocks_length]

end

/-- GEN answers the words of its blocks and writes nothing else. -/
theorem exec_gen {s : State} {fam : Family} {pol : Policy} {rnd : BitVec 2} {r : Rounds}
    {bsel : BitVec 3} {nblk : BitVec 8} {x : Words} {cb : DWord} (hf : s.fault = false)
    (hl : operandsLegal (.gen fam pol rnd bsel nblk x cb) s.caps = true) (hr : roundsOf rnd = some r) :
    exec (.gen fam pol rnd bsel nblk x cb) s = .next { s with
      resp := BitVec.ofNat 32 (256 * (64 * nblk.toNat))
        :: genWords fam (ctrWidth fam pol) (roundCount r) x cb.toNat nblk.toNat } := by
  have hlen := genWords_length fam (ctrWidth fam pol) (roundCount r) x cb.toNat nblk.toNat
  have hfit : 64 * nblk.toNat < 2 ^ 24 := by have := nblk_le hl; omega
  have hbody : bodyOf (.gen fam pol rnd bsel nblk x cb) s = s.respond
      ((genWords fam (ctrWidth fam pol) (roundCount r) x cb.toNat nblk.toNat).flatMap bytesLE) := by
    rw [← genBlocks_eq_genWords, ← fieldRounds_of_roundsOf hr]
    rfl
  rw [exec_pure rfl hl hf rfl, hbody, respond_words _ _ (hlen ▸ hfit), hlen]

/-! ### The obligations -/

/-- Settles O34: the selection BSEL by BSEL, and MAXPAR's width tag by tag. -/
theorem selectionAndMaxpar : Obligations.SelectionAndMaxpar := by
  intro s bsel hf hb caps b
  have hsel : select bsel caps = b := by
    obtain rfl | rfl | rfl | rfl | rfl | rfl := legalBsel_cases hb
    · exact select_auto caps
    all_goals exact select_forced (by decide) caps
  refine ⟨hsel, ?_⟩
  rw [exec_maxpar hf hb, show select bsel s.caps = b from hsel]
  cases b <;> rfl

/-- Settles O35: GEN answers its blocks' words, and each layout's counter words are the halves of the
counter. -/
theorem genAnswersTheBlocks : Obligations.GenAnswersTheBlocks := by
  intro s fam pol rnd r bsel nblk x cb hf hl hr numbered
  have hnumbered : ∀ j, withCounter fam (ctrWidth fam pol)
      ((cb.toNat + j) % 2 ^ widthBits (ctrWidth fam pol)) x = numbered j :=
    fun _ => withCounter_halves fam pol _ x
  simp only [exec_gen hf hl hr, genWords, hnumbered]

end Sys2Proof.Machine
end

section
/-! PROOFS of the obligations about the RNG adapter (45_rng_adapter.md R276): RNGGETWP's answer as the word
position, which the adapter's layout makes a function of `S[12]` and `OFF`. -/

namespace Sys2Proof.Machine

open Safety

/-! ### RNGGETWP (45_rng_adapter.md R276) -/

/-- RNGGETWP answers the word position and writes nothing else. -/
theorem exec_rngGetWp {s : State} (hc : RngReady s) :
    exec .rngGetWp s = .next { s with
      resp := 0x00001000 :: qwordWords (BitVec.ofNat 128 s.wordPos) } := by
  have hnone : errorOf .rngGetWp s = none := errorOf_rng hc rfl rfl (pastTheTop_of_no_region _ rfl)
  rw [exec_of_no_error hnone, bodyOf, respond_natBytes16]

/-! ### The obligations -/

/-- Settles O49: the answer is the word position, whose counter on a legal adapter is the 32-bit `S[12]`. -/
theorem rnggetwpAnswersTheWordPosition : Obligations.RnggetwpAnswersTheWordPosition := by
  intro s hc hl ctr bi
  rw [exec_rngGetWp hc, rng_wordPos hc hl]

end Sys2Proof.Machine
end

section
/-! PROOFS of the obligations about errors (60_exceptions.md R300 to R310). First the order of R309 as a list,
the first of whose conditions to hold is the error raised; then what a refusal leaves; then the obligations. -/

namespace Sys2Proof.Machine

open Safety

/-! ### The order of the errors (60_exceptions.md R309) -/

/-- The errors in the order of R309. -/
def errorOrder : List Status :=
  [.illegalCommand, .faulted, .notInitialised, .wrongMode, .invalidKeyOrNonceLength, .dataRange,
    .counterExhausted]

/-- The condition under which an error is raised if none before it in the order is (R301 to R308). -/
def errorCondition (i : Instr) (s : State) : Status → Bool
  | .ok => false
  | .illegalCommand => !operandsLegal i s.caps
  | .faulted => s.fault && kind i != .always
  | .notInitialised => (kind i == .cipher || kind i == .rng) && !s.inited
  | .wrongMode => wrongMode i s
  | .invalidKeyOrNonceLength => badLength i
  | .dataRange => pastTheTop i
  | .counterExhausted => exhausts i s

/-- The error a command meets is the first whose condition holds. -/
theorem errorOf_eq_find (i : Instr) (s : State) :
    errorOf i s = errorOrder.find? (errorCondition i s) := by
  have find_cons (e : Status) (es : List Status) :
      (e :: es).find? (errorCondition i s)
        = if errorCondition i s e then some e else es.find? (errorCondition i s) := by
    rw [List.find?_cons]
    cases errorCondition i s e <;> rfl
  simp only [errorOrder, find_cons]
  rfl

/-- An error is raised exactly when its condition holds and none before it in the order does. -/
theorem errorOf_eq_some_iff {i : Instr} {s : State} {e : Status} {before after : List Status}
    (horder : errorOrder = before ++ e :: after) :
    errorOf i s = some e
      ↔ errorCondition i s e = true ∧ ∀ f ∈ before, errorCondition i s f = false := by
  have hnodup : (before ++ e :: after).Nodup := horder ▸ (by decide : errorOrder.Nodup)
  have hnotin := (List.nodup_cons.1 (List.nodup_middle.1 hnodup)).1
  obtain ⟨hbefore, hafter⟩ := not_or.1 (List.mem_append.not.1 hnotin)
  rw [errorOf_eq_find, horder, List.find?_eq_some_iff_append]
  simp only [List.append_cons_inj_of_notMem hbefore hafter, Bool.not_eq_true']
  constructor
  · rintro ⟨hcond, _, _, ⟨rfl, -⟩, hall⟩
    exact ⟨hcond, hall⟩
  · rintro ⟨hcond, hall⟩
    exact ⟨hcond, before, after, ⟨rfl, trivial, rfl⟩, hall⟩

/-- The condition of the error that is raised holds. -/
theorem errorCondition_of_errorOf {i : Instr} {s : State} {e : Status} (h : errorOf i s = some e) :
    errorCondition i s e = true :=
  List.find?_some (errorOf_eq_find i s ▸ h)

/-- So does the condition of the error that a response reports. -/
theorem errorCondition_of_status {i : Instr} {s t : State} {e : Status} (h : exec i s = .next t)
    (hs : responseStatus t = statusCode e) (he : e ≠ .ok) : errorCondition i s e = true :=
  errorCondition_of_errorOf (errorOf_of_status h hs he)

/-! ### Which error a command meets -/

/-- The two commands that are accepted while `FAULT = 1` (60_exceptions.md R307). -/
theorem kind_eq_always_iff {i : Instr} : kind i = .always ↔ i = .rdStat ∨ i = .zeroize := by
  cases i <;> simp [kind]

/-- While `FAULT = 1` every other legal command is refused (60_exceptions.md R307). -/
theorem errorOf_faulted {i : Instr} {s : State} (hl : operandsLegal i s.caps = true)
    (hf : s.fault = true) (hk : kind i ≠ .always) : errorOf i s = some .faulted := by
  rw [errorOf_eq_some_iff (before := [.illegalCommand]) rfl]
  simp [errorCondition, hl, hf, hk]

/-- INIT is the one command with a key and a nonce. -/
theorem kind_of_badLength {i : Instr} (h : badLength i = true) : kind i = .construct := by
  cases i
  case init => rfl
  all_goals cases h

/-- INIT names no region. -/
theorem badLength_of_pastTheTop {i : Instr} (h : pastTheTop i = true) : badLength i = false := by
  cases i
  case init => rw [pastTheTop_of_no_region _ rfl] at h; cases h
  all_goals rfl

/-- The first byte of a region lies in the data space (30_encoding.md R92). -/
theorem region_start_lt (i : Instr) : (region i).1 < 2 ^ 64 := by
  cases i
  case genx | apply | tryApply | rngFill => exact BitVec.isLt _
  all_goals exact Nat.two_pow_pos 64

/-- A cipher or an RNG command is what is in the wrong mode. -/
theorem kind_of_wrongMode {i : Instr} {s : State} (h : wrongMode i s = true) :
    kind i = .cipher ∨ kind i = .rng := by
  simp only [wrongMode, Bool.or_eq_true, Bool.and_eq_true, beq_iff_eq] at h
  exact h.imp And.left And.left

/-- The commands that move the counter and check it are cipher commands (60_exceptions.md R306, R308). -/
theorem kind_of_exhausts {i : Instr} {s : State} (h : exhausts i s = true) : kind i = .cipher := by
  cases i
  case apply | tryApply | seek => rfl
  all_goals cases h

section
variable {i : Instr} {s : State} (hl : operandsLegal i s.caps = true) (hf : s.fault = false)
include hl hf

/-- An engine or RNG command without an engine (60_exceptions.md R303). -/
theorem errorOf_notInitialised (hk : kind i = .cipher ∨ kind i = .rng) (hi : s.inited = false) :
    errorOf i s = some .notInitialised := by
  rw [errorOf_eq_some_iff (before := [.illegalCommand, .faulted]) rfl]
  simp [errorCondition, hl, hf, hk, hi]

/-- A command of the other mode (60_exceptions.md R304). -/
theorem errorOf_wrongMode (hi : s.inited = true) (hw : wrongMode i s = true) :
    errorOf i s = some .wrongMode := by
  rw [errorOf_eq_some_iff (before := [.illegalCommand, .faulted, .notInitialised]) rfl]
  simp [errorCondition, hl, hf, hi, hw]

/-- INIT with a wrong length (60_exceptions.md R301). -/
theorem errorOf_badLength (hb : badLength i = true) : errorOf i s = some .invalidKeyOrNonceLength := by
  have hk : kind i = .construct := kind_of_badLength hb
  rw [errorOf_eq_some_iff (before := [.illegalCommand, .faulted, .notInitialised, .wrongMode]) rfl]
  simp [errorCondition, wrongMode, hl, hf, hk, hb]

/-- A ready command whose region passes the top of the data space (60_exceptions.md R305). -/
theorem errorOf_pastTheTop (hc : kind i = .cipher → CipherReady s) (hr : kind i = .rng → RngReady s)
    (hp : pastTheTop i = true) : errorOf i s = some .dataRange := by
  have hb := badLength_of_pastTheTop hp
  rw [errorOf_eq_some_iff
    (before := [.illegalCommand, .faulted, .notInitialised, .wrongMode, .invalidKeyOrNonceLength]) rfl]
  cases hk : kind i with
  | cipher =>
    obtain ⟨-, hi, hpol⟩ := hc hk
    simp [errorCondition, wrongMode, hl, hf, hb, hp, hk, hi, hpol]
  | rng =>
    obtain ⟨-, hi, hpol⟩ := hr hk
    simp [errorCondition, wrongMode, hl, hf, hb, hp, hk, hi, hpol]
  | pure | construct | always => simp [errorCondition, wrongMode, hl, hf, hb, hp, hk]

end

/-! ### What a command leaves -/

/-- A refusal without the sticky fault writes `ERR` and the response. -/
theorem exec_recoverable {i : Instr} {s : State} {e : Status} (he : errorOf i s = some e)
    (hs : stickyOf i e = false) (hf : s.fault = false) :
    exec i s = .next { s with err := e, resp := [(statusCode e).setWidth 32] } := by
  rw [exec_of_error he, hs, takeError_ordinary, hf]
  rfl

/-- No command clears `FAULT` (60_exceptions.md R306). -/
theorem exec_keeps_fault {i : Instr} {s t : State} (h : exec i s = .next t) (hf : s.fault = true) :
    t.fault = true := by
  rcases exec_outcome h with ⟨e, -, -, -, rfl⟩ | ⟨-, -, rfl⟩
  · rw [State.takeError_fault, hf, Bool.true_or]
  · rw [bodyOf_fault, hf]

/-- A packet that names no command is refused (60_exceptions.md R302). -/
theorem step_illegal {s : State} {why : Illegal} {rest : List Word} (hr : s.rst = false)
    (hd : decode s.cmd = .illegal why rest) :
    step s = .next ((s.consume rest).raise .illegalCommand) := by
  rw [step, if_neg (Bool.eq_false_iff.1 hr), State.fetch, hd]

/-! ### The obligations -/

/-- Settles O18: the response carries the code of the first error, and OK has code 0. -/
theorem errorsHavePriority : Obligations.ErrorsHavePriority := by
  refine ⟨fun i s => ?_, fun s why rest hr hd => ?_⟩
  · cases he : errorOf i s with
    | some e => exact ⟨_, exec_of_error he, responseStatus_takeError i⟩
    | none => exact ⟨_, exec_of_no_error he, responseStatus_bodyOf i s⟩
  · exact ⟨_, step_illegal hr hd, takeError_status _ false .illegalCommand⟩

/-- Settles O19: a status other than OK is a refusal, which is `takeError` and nothing else. -/
theorem refusedCommandsWriteNothing : Obligations.RefusedCommandsWriteNothing := by
  intro i s t h hs
  rcases exec_outcome h with ⟨e, -, -, -, rfl⟩ | ⟨-, h0, -⟩
  · exact ⟨rfl, rfl⟩
  · exact absurd h0 hs

/-- Settles O11: Faulted comes right after IllegalCommand in the order, and `ERR` stays while `FAULT = 1`. -/
theorem faultedInstanceRefuses : Obligations.FaultedInstanceRefuses := by
  intro i s hf hl hrd hz
  have hk : kind i ≠ .always := fun hk => (kind_eq_always_iff.1 hk).elim hrd hz
  rw [exec_of_error (errorOf_faulted hl hf hk), stickyOf_eq_false i _ (by decide),
    takeError_ordinary, if_pos hf]
  rfl

/-- Settles O12: an engine or RNG command without an engine meets NotInitialised, whose condition is just that. -/
theorem notInitialisedWithoutEngine : Obligations.NotInitialisedWithoutEngine := by
  refine ⟨fun i s hk hl hf hi => ?_, fun i s t h hs => ?_⟩
  · exact exec_ordinary (errorOf_notInitialised hl hf hk hi) (by decide) hf
  · simpa [errorCondition] using errorCondition_of_status (e := .notInitialised) h hs (by decide)

/-- Settles O13: WrongMode's condition, and that NotInitialised, which comes before it, was not met. -/
theorem wrongModeSeparatesCipherAndRng : Obligations.WrongModeSeparatesCipherAndRng := by
  refine ⟨fun i s hl hf hi hw => ?_, fun i s t h hs => ?_⟩
  · exact exec_ordinary (errorOf_wrongMode hl hf hi hw) (by decide) hf
  · have he : errorOf i s = some .wrongMode := errorOf_of_status h hs (by decide)
    rw [errorOf_eq_some_iff (before := [.illegalCommand, .faulted, .notInitialised]) rfl] at he
    obtain ⟨hw, hbefore⟩ := he
    have hi : errorCondition i s .notInitialised = false := hbefore _ (by decide)
    exact ⟨hw, by simpa [errorCondition, kind_of_wrongMode hw] using hi⟩

/-- Settles O14: INIT alone has the lengths that InvalidKeyOrNonceLength is about. -/
theorem wrongLengthIsRefusedByInit : Obligations.WrongLengthIsRefusedByInit := by
  refine ⟨fun s fam pol rnd bsel key nonce hf hl hlen => ?_, fun i s t h hs => ?_⟩
  · have hb : badLength (.init fam pol rnd bsel key nonce) = true := by
      have hlen' : key.length ≠ 32 ∨ nonce.length ≠ nonceBytes pol := hlen
      simpa [badLength] using hlen'
    exact exec_ordinary (errorOf_badLength hl hf hb) (by decide) hf
  · exact kind_of_badLength
      (errorCondition_of_status (e := .invalidKeyOrNonceLength) h hs (by decide))

/-- Settles O15: a ready command meets none of the errors before DataRange, and an empty region ends in the
data space. -/
theorem regionPastTheTopIsRefused : Obligations.RegionPastTheTopIsRefused := by
  refine ⟨fun i s hl hf hc hr htop => ?_, fun i s t h hs => ?_⟩
  · exact exec_ordinary (errorOf_pastTheTop hl hf hc hr (decide_eq_true htop)) (by decide) hf
  · have hp : pastTheTop i = true := errorCondition_of_status (e := .dataRange) h hs (by decide)
    have htop : 2 ^ 64 < (region i).1 + (region i).2 := of_decide_eq_true hp
    have hstart := region_start_lt i
    exact ⟨htop, by omega⟩

/-- Settles O16: CounterExhausted is the one error left to a ready TRYAPPLY or SEEK, and in RNG mode a cipher
command, which alone can exhaust, meets WrongMode before it. -/
theorem exhaustionIsRecoverable : Obligations.ExhaustionIsRecoverable := by
  refine ⟨fun s addr len hc hr hx => ?_, fun s v hc hv hx => ?_, fun i s t hpol h hs => ?_⟩
  · have he : errorOf (.tryApply addr len) s = some .counterExhausted := by
      rw [errorOf_tryApply hc hr, if_pos hx]
    exact exec_recoverable he rfl hc.1
  · have he : errorOf (.seek v) s = some .counterExhausted := by
      rw [errorOf_seek hc, if_neg (by omega), if_pos hx]
    exact exec_recoverable he rfl hc.1
  · have he : errorOf i s = some .counterExhausted := errorOf_of_status h hs (by decide)
    rw [errorOf_eq_some_iff (before := [.illegalCommand, .faulted, .notInitialised, .wrongMode,
      .invalidKeyOrNonceLength, .dataRange]) rfl] at he
    obtain ⟨hx, hbefore⟩ := he
    have hw : wrongMode i s = false := hbefore .wrongMode (by decide)
    simp [wrongMode, kind_of_exhausts hx, hpol] at hw

/-- Settles O17: APPLY's CounterExhausted is the one error that sticks, no command clears `FAULT`, and while it is
set only RDSTAT and ZEROIZE run. -/
theorem onlyApplyFaultsAndOnlyResetClears : Obligations.OnlyApplyFaultsAndOnlyResetClears := by
  refine ⟨fun s addr len hc hr hx => ?_, fun i s t h hf hft => ?_, fun s t h hf hft => ?_,
    fun i s t hf hz h => ?_⟩
  · have he : errorOf (.apply addr len) s = some .counterExhausted := by
      rw [errorOf_apply hc hr, if_pos hx]
    rw [exec_of_error he]
    exact congrArg Host.Outcome.next (takeError_sticky hc.1 .counterExhausted)
  · rcases exec_outcome h with ⟨e, he, -, -, rfl⟩ | ⟨-, -, rfl⟩
    · rw [State.takeError_fault, hf, Bool.false_or] at hft
      obtain ⟨⟨addr, len, rfl⟩, rfl⟩ := stickyOf_eq_true hft
      exact ⟨addr, len, rfl, errorCondition_of_errorOf he⟩
    · rw [bodyOf_fault, hf] at hft
      cases hft
  · have hset : t.fault = true → s.rst = true := fun h1 => by rw [h1] at hft; cases hft
    rcases step_cases h with ⟨hr, -⟩ | ⟨i, rest, hexec⟩ | ⟨rest, rfl⟩ | rfl
    · exact hr
    · exact hset (exec_keeps_fault hexec hf)
    · exact hset (by simp [State.raise, hf])
    · exact hset hf
  · rcases exec_outcome h with ⟨e, -, -, -, rfl⟩ | ⟨hn, -, rfl⟩
    · exact ⟨rfl, rfl⟩
    · obtain rfl | rfl := kind_eq_always_iff.1 (always_of_runs_faulted hn hf)
      · exact ⟨rfl, rfl⟩
      · exact absurd rfl hz

end Sys2Proof.Machine
end

section
/-! PROOFS of the obligation about the end of a packet (30_encoding.md R111; 70_reset_and_hazards.md R353). First
what a command does to the port, then the obligation. -/

namespace Sys2Proof.Machine

open Safety

/-- A command, refused or not, answers a state with the words left on the port (20_memory.md R71). -/
theorem exec_answers_keeping_cmd (i : Instr) (s : State) : ∃ t, exec i s = .next t ∧ t.cmd = s.cmd := by
  cases he : errorOf i s with
  | some e => exact ⟨_, exec_of_error he, State.takeError_cmd s _ e⟩
  | none =>
    obtain ⟨hcmd, -⟩ := bodyOf_ports i s
    exact ⟨_, exec_of_no_error he, hcmd⟩

/-- A packet that names a command is taken off the port and its command runs (00_scope.md R14). -/
theorem step_instr {s : State} {i : Instr} {rest : List Word} (hr : s.rst = false)
    (hd : decode s.cmd = .instr i rest) : step s = exec i (s.consume rest) := by
  rw [step, if_neg (Bool.eq_false_iff.1 hr), State.fetch, hd]

/-- Settles O6: the decoder splits the port after the packet whether or not the packet names a command, and the
command, or the refusal, leaves what follows. -/
theorem packetsAreTakenWhole : Obligations.PacketsAreTakenWhole := by
  intro s w0 ws hrst hcmd hlen
  cases hd : decodePacket w0 (ws.take (packetLength w0 - 1)) with
  | ok i =>
    rw [step_instr hrst (hcmd ▸ decode_of_ok hlen hd)]
    exact exec_answers_keeping_cmd i _
  | error why => exact ⟨_, step_illegal hrst (hcmd ▸ decode_of_error hlen hd), rfl⟩

end Sys2Proof.Machine
end

section
/-! PROOFS of the obligations about decoding and encoding (30_encoding.md R90 to R111). First the fields of a
header and the operand words, cut out of a packet and put back; then a whole packet, in both directions. -/

namespace Sys2Proof.Machine

open Safety

/-! ### Fields of a header (30_encoding.md R93) -/

theorem bits_whole (w : Word) : bits w 0 32 = w := BitVec.extractLsb'_eq_self

theorem bits_eq_zero_iff {w : Word} {lo n : Nat} : bits w lo n = 0 ↔ field w lo n = 0 := by
  rw [← toNat_bits, ← BitVec.toNat_inj, BitVec.ofNat_eq_ofNat, BitVec.toNat_ofNat, Nat.zero_mod]

/-- A field made of two neighbouring fields. -/
theorem append_eq_bits_iff {w : Word} {lo m n : Nat} {x : BitVec m} {y : BitVec n} :
    x ++ y = bits w lo (m + n) ↔ bits w (lo + n) m = x ∧ bits w lo n = y := by
  have hjoin : bits w (lo + n) m ++ bits w lo n = bits w lo (m + n) :=
    BitVec.extractLsb'_append_extractLsb'_eq_extractLsb' rfl
  constructor
  · intro h
    have hhi := congrArg (BitVec.extractLsb' n m) (h.trans hjoin.symm)
    have hlo := congrArg (BitVec.extractLsb' 0 n) (h.trans hjoin.symm)
    simp only [BitVec.extractLsb'_append_eq_left, BitVec.extractLsb'_append_eq_right] at hhi hlo
    exact ⟨hhi.symm, hlo.symm⟩
  · rintro ⟨rfl, rfl⟩
    exact hjoin

/-! The headers of the formats, field by field (30_encoding.md R94 to R104). -/

section
variable {w : Word} {opc : Byte} {fam : BitVec 1}

theorem header_Z_eq_iff {z : BitVec 24} :
    (z ++ opc : Word) = w ↔ bits w 8 24 = z ∧ bits w 0 8 = opc := by
  conv_lhs => rhs; rw [← bits_whole w]
  exact append_eq_bits_iff (m := 24) (n := 8)

theorem header_B_eq_iff {z1 : BitVec 16} {bsel : BitVec 3} {z0 : BitVec 5} :
    (z1 ++ bsel ++ z0 ++ opc : Word) = w ↔
      bits w 16 16 = z1 ∧ bits w 13 3 = bsel ∧ bits w 8 5 = z0 ∧ bits w 0 8 = opc := by
  rw [header_Z_eq_iff, eq_comm, append_eq_bits_iff (m := 19) (n := 5), eq_comm,
    append_eq_bits_iff (m := 16) (n := 3), and_assoc, and_assoc]

theorem header_dround_eq_iff {z : BitVec 23} :
    (z ++ fam ++ opc : Word) = w ↔ bits w 9 23 = z ∧ bits w 8 1 = fam ∧ bits w 0 8 = opc := by
  rw [header_Z_eq_iff, eq_comm, append_eq_bits_iff (m := 23) (n := 1), and_assoc]

theorem header_R_eq_iff {z1 rc : BitVec 8} {z0 : BitVec 7} :
    (z1 ++ rc ++ z0 ++ fam ++ opc : Word) = w ↔ bits w 24 8 = z1 ∧ bits w 16 8 = rc
      ∧ bits w 9 7 = z0 ∧ bits w 8 1 = fam ∧ bits w 0 8 = opc := by
  rw [header_dround_eq_iff, eq_comm, append_eq_bits_iff (m := 16) (n := 7), eq_comm,
    append_eq_bits_iff (m := 8) (n := 8), and_assoc, and_assoc]

theorem header_Q_eq_iff {a b c d : BitVec 4} {z : BitVec 7} :
    (d ++ c ++ b ++ a ++ z ++ fam ++ opc : Word) = w ↔ bits w 28 4 = d ∧ bits w 24 4 = c
      ∧ bits w 20 4 = b ∧ bits w 16 4 = a ∧ bits w 9 7 = z ∧ bits w 8 1 = fam ∧ bits w 0 8 = opc := by
  rw [header_dround_eq_iff, eq_comm, append_eq_bits_iff (m := 16) (n := 7), eq_comm,
    append_eq_bits_iff (m := 12) (n := 4), eq_comm, append_eq_bits_iff (m := 8) (n := 4), eq_comm,
    append_eq_bits_iff (m := 4) (n := 4)]
  simp only [and_assoc]

theorem header_K_eq_iff {z1 : BitVec 19} {rnd z0 : BitVec 2} :
    (z1 ++ rnd ++ z0 ++ fam ++ opc : Word) = w ↔ bits w 13 19 = z1 ∧ bits w 11 2 = rnd
      ∧ bits w 9 2 = z0 ∧ bits w 8 1 = fam ∧ bits w 0 8 = opc := by
  rw [header_dround_eq_iff, eq_comm, append_eq_bits_iff (m := 21) (n := 2), eq_comm,
    append_eq_bits_iff (m := 19) (n := 2), and_assoc, and_assoc]

theorem header_G_eq_iff {f1 f0 : BitVec 8} {bsel : BitVec 3} {rnd pol : BitVec 2} :
    (f1 ++ f0 ++ bsel ++ rnd ++ pol ++ fam ++ opc : Word) = w ↔ bits w 24 8 = f1 ∧ bits w 16 8 = f0
      ∧ bits w 13 3 = bsel ∧ bits w 11 2 = rnd ∧ bits w 9 2 = pol ∧ bits w 8 1 = fam
      ∧ bits w 0 8 = opc := by
  rw [header_K_eq_iff, eq_comm, append_eq_bits_iff (m := 16) (n := 3), eq_comm,
    append_eq_bits_iff (m := 8) (n := 8)]
  simp only [and_assoc]

end

@[simp] theorem famOf_famCode (fam : Family) : famOf (famCode fam) = fam := by cases fam <;> rfl
@[simp] theorem polOf_polCode (pol : Policy) : polOf (polCode pol) = pol := by cases pol <;> rfl
@[simp] theorem indexOf_indexBits (a : Fin 16) : indexOf (indexBits a) = a := rfl
@[simp] theorem famCode_famOf : ∀ b : BitVec 1, famCode (famOf b) = b := by decide
@[simp] theorem polCode_polOf : ∀ b : BitVec 2, polCode (polOf b) = b := by decide
@[simp] theorem indexBits_indexOf (b : BitVec 4) : indexBits (indexOf b) = b := rfl

/-! ### Operand words (30_encoding.md R92) -/

@[simp] theorem wordsAt_toList_append (x : Words) (ws : List Word) : wordsAt (x.toList ++ ws) 0 = x := by
  ext i hi
  have hlen : i < x.toList.length := by simpa using hi
  simp [wordsAt, List.getElem?_append_left hlen, hi]

@[simp] theorem wordsAt_toList (x : Words) : wordsAt x.toList 0 = x := by
  simpa using wordsAt_toList_append x []

theorem toList_wordsAt (ws : List Word) (k : Nat) :
    (wordsAt ws k).toList = (List.range 16).map fun i => ws.getD (k + i) 0 := by
  refine List.ext_getElem (by simp) fun i h1 h2 => ?_
  simp [wordsAt]

/-- The words of a packet, read one by one. -/
theorem map_getD_range {ws : List Word} {n : Nat} (h : ws.length = n) :
    (List.range n).map (fun i => ws.getD i 0) = ws := by
  refine List.ext_getElem (by simp [h]) fun i h1 h2 => ?_
  simp [h2]

theorem toList_wordsAt_whole {ws : List Word} (h : ws.length = 16) : (wordsAt ws 0).toList = ws := by
  rw [toList_wordsAt]
  simpa only [Nat.zero_add] using map_getD_range h

/-- A 64-bit operand is its two words. -/
theorem dwordWords_append (hi lo : Word) : dwordWords (hi ++ lo) = [lo, hi] := by
  rw [dwordWords, BitVec.extractLsb'_append_eq_right, BitVec.extractLsb'_append_eq_left]

theorem dwordWords_join (v : DWord) : (v.extractLsb' 32 32 ++ v.extractLsb' 0 32 : DWord) = v :=
  (BitVec.extractLsb'_append_extractLsb'_eq_extractLsb' rfl).trans BitVec.extractLsb'_eq_self

/-- A 128-bit operand is its four words. -/
theorem qwordWords_append (w3 w2 w1 w0 : Word) :
    qwordWords (w3 ++ w2 ++ w1 ++ w0) = [w0, w1, w2, w3] := by
  simp (disch := decide) only [qwordWords, BitVec.extractLsb'_append_eq_of_le,
    BitVec.extractLsb'_append_eq_of_add_le, Nat.reduceSub, BitVec.extractLsb'_eq_self]

/-! ### Byte strings (30_encoding.md R91) -/

theorem getD_packBytes {bs : List Byte} {j : Nat} (h : j < wordsFor bs.length) :
    (packBytes bs).getD j 0 = packetWord (bs.getD (4 * j) 0) (bs.getD (4 * j + 1) 0)
      (bs.getD (4 * j + 2) 0) (bs.getD (4 * j + 3) 0) := by
  rw [List.getD_eq_getElem _ _ (by simpa using h)]
  simp [packBytes]

/-- Byte `i` of a packed string, wherever its words stand; after its end there are zeros. -/
theorem stringByte_packBytes (pre post : List Word) {bs : List Byte} {i : Nat}
    (h : i < 4 * wordsFor bs.length) :
    stringByte (pre ++ (packBytes bs ++ post)) pre.length i = bs.getD i 0 := by
  have hword : i / 4 < wordsFor bs.length := by omega
  have hi : 4 * (i / 4) + i % 4 = i := by omega
  rw [stringByte, List.getD_append_right _ _ _ _ (by omega), Nat.add_sub_cancel_left,
    List.getD_append _ _ _ _ (by simpa using hword), getD_packBytes hword]
  conv_rhs => rw [← hi]
  obtain ⟨h0, h1, h2, h3⟩ := packetByte_packetWord (bs.getD (4 * (i / 4)) 0)
    (bs.getD (4 * (i / 4) + 1) 0) (bs.getD (4 * (i / 4) + 2) 0) (bs.getD (4 * (i / 4) + 3) 0)
  have hlt : i % 4 < 4 := Nat.mod_lt _ (by decide)
  interval_cases i % 4
  · exact h0
  · exact h1
  · exact h2
  · exact h3

theorem length_le_wordsFor (n : Nat) : n ≤ 4 * wordsFor n := by unfold wordsFor; omega

theorem stringAt_packBytes (pre post : List Word) (bs : List Byte) :
    stringAt (pre ++ (packBytes bs ++ post)) pre.length bs.length = bs := by
  refine List.ext_getElem (by simp [stringAt]) fun i h1 h2 => ?_
  have hle := length_le_wordsFor bs.length
  have hbyte := stringByte_packBytes pre post (show i < 4 * wordsFor bs.length by omega)
  rw [List.getD_eq_getElem _ _ h2] at hbyte
  simp only [stringAt, List.getElem_map, List.getElem_range, hbyte]

theorem paddingZero_packBytes (pre post : List Word) (bs : List Byte) :
    paddingZero (pre ++ (packBytes bs ++ post)) pre.length bs.length = true := by
  rw [paddingZero, List.all_eq_true]
  intro j hj
  rw [List.mem_range] at hj
  rw [stringByte_packBytes pre post (by omega), List.getD_eq_default _ _ (by omega)]
  rfl

theorem toList_ofFn_stringByte (ws : List Word) (k n : Nat) :
    (Vector.ofFn fun i : Fin n => stringByte ws k i.val).toList = stringAt ws k n := by
  refine List.ext_getElem (by simp [stringAt]) fun i h1 h2 => ?_
  simp [stringAt]

theorem packetWord_packetByte (w : Word) :
    packetWord (packetByte w 0) (packetByte w 1) (packetByte w 2) (packetByte w 3) = w :=
  packWord_bytes w

/-- A byte of a string whose padding is zero is the byte of its word. -/
theorem getD_stringAt {ws : List Word} {k len i : Nat} (hp : paddingZero ws k len = true)
    (h : i < 4 * wordsFor len) : (stringAt ws k len).getD i 0 = stringByte ws k i := by
  by_cases hi : i < len
  · rw [List.getD_eq_getElem _ _ (by simpa [stringAt] using hi)]
    simp [stringAt]
  · rw [List.getD_eq_default _ _ (by simpa [stringAt] using hi)]
    rw [paddingZero, List.all_eq_true] at hp
    have hzero := hp (i - len) (List.mem_range.2 (by omega))
    rw [Nat.add_sub_cancel' (by omega), beq_iff_eq] at hzero
    exact hzero.symm

/-- The words of a string whose padding is zero. -/
theorem packBytes_stringAt {ws : List Word} {k len : Nat} (hp : paddingZero ws k len = true)
    (hlen : k + wordsFor len ≤ ws.length) :
    packBytes (stringAt ws k len) = (ws.drop k).take (wordsFor len) := by
  have hsize : (stringAt ws k len).length = len := by simp [stringAt]
  refine List.ext_getElem (by simp [hsize]; omega) fun j h1 h2 => ?_
  rw [packBytes_length, hsize] at h1
  have hword := getD_packBytes (bs := stringAt ws k len) (j := j) (by rwa [hsize])
  have hbyte (m : Nat) (hm : m < 4) :
      (stringAt ws k len).getD (4 * j + m) 0 = packetByte (ws.getD (k + j) 0) m := by
    have hdiv : (4 * j + m) / 4 = j := by omega
    have hmod : (4 * j + m) % 4 = m := by omega
    rw [getD_stringAt hp (by omega), stringByte, hdiv, hmod]
  have hbyte0 := hbyte 0 (by decide)
  rw [Nat.add_zero] at hbyte0
  rw [← List.getD_eq_getElem _ 0, hword, hbyte0, hbyte 1 (by decide), hbyte 2 (by decide),
    hbyte 3 (by decide), packetWord_packetByte, List.getElem_take, List.getElem_drop,
    List.getD_eq_getElem _ _ (by omega)]

/-! ### Whole packets -/

theorem rowOf_of_opcode {w0 : Word} {op : Op} (h : bits w0 0 8 = (rowOfOp op).opc) :
    rowOf w0 = some (rowOfOp op) := by
  rw [rowOf, h]
  cases op <;> rfl

/-- The encoder writes as many words as its header asks for (30_encoding.md R111). -/
theorem encode_length (i : Instr) : Laws.PacketLength.Statement i := by
  cases i
  case qr => exact Laws.PacketLength.qr _ _ _ _ _ _
  case dround => exact Laws.PacketLength.dround _ _
  case rounds => exact Laws.PacketLength.rounds _ _ _
  case permnf => exact Laws.PacketLength.permnf _ _ _
  case hderive => exact Laws.PacketLength.hderive _ _ _ _
  case maxpar => exact Laws.PacketLength.maxpar _
  case gen => exact Laws.PacketLength.gen _ _ _ _ _ _ _
  case genx => exact Laws.PacketLength.genx _ _ _ _ _ _ _ _
  case init => exact Laws.PacketLength.init _ _ _ _ _ _
  all_goals exact fun _ => rfl

/-- A packet whose header names a row, with the must-be-zero fields zero and the row's operands, decodes. -/
theorem decode_encode_of_fields {i : Instr} {op : Op} {w0 : Word} {ops : List Word}
    (he : encode i = w0 :: ops) (hi : i.encodable = true) (hopc : bits w0 0 8 = (rowOfOp op).opc)
    (hz : ∀ f ∈ mustBeZero op, field w0 f.1 f.2 = 0) (hops : decodeOperands op w0 ops = some i)
    (rest : List Word) : decode (encode i ++ rest) = .instr i rest := by
  have hlen := encode_length i hi
  rw [he, List.headD_cons, packetWords_eq_packetLength, List.length_cons] at hlen
  have hok : decodePacket w0 ((ops ++ rest).take (packetLength w0 - 1)) = .ok i := by
    rw [← hlen, Nat.add_sub_cancel, List.take_left, decodePacket_eq_ok_iff (rowOf_of_opcode hopc)]
    exact ⟨(rowMatches_rowOfOp hopc).2 hz, hops⟩
  rw [he, List.cons_append, decode_of_ok (by simp; omega) hok, ← hlen, Nat.add_sub_cancel,
    List.drop_left]

theorem dwordAt_dwordWords (v : DWord) (pre post : List Word) :
    dwordAt (pre ++ (dwordWords v ++ post)) pre.length = v := by
  simp [dwordAt, dwordWords, dwordWords_join]

/-- Address and length of a region command (format D). -/
theorem dwordAt_region (addr len : DWord) :
    dwordAt (dwordWords addr ++ dwordWords len) 0 = addr
      ∧ dwordAt (dwordWords addr ++ dwordWords len) 2 = len :=
  ⟨dwordAt_dwordWords addr [] (dwordWords len), dwordAt_dwordWords len (dwordWords addr) []⟩

theorem qwordAt_qwordWords (v : QWord) (pre : List Word) :
    qwordAt (pre ++ qwordWords v) pre.length = v := by
  simp [qwordAt, qwordWords, qwordWords_join]

/-- Settles O1: each header field is cut out where the encoder put it in, and so is each operand of the words
after it. -/
theorem decodeOfEncode : Obligations.DecodeOfEncode := by
  intro i rest hi
  cases i
  case qr fam a b c d x =>
    obtain ⟨hd, hc, hb, ha, hz, hf, ho⟩ := header_Q_eq_iff.1 rfl
    refine decode_encode_of_fields (op := .qr) rfl hi ho ?_ ?_ rest
    · simp [mustBeZero, ← bits_eq_zero_iff, hz]
    · simp [decodeOperands, ha, hb, hc, hd, hf]
  case dround fam x =>
    obtain ⟨hz, hf, ho⟩ := header_dround_eq_iff.1 rfl
    refine decode_encode_of_fields (op := .dround) rfl hi ho ?_ ?_ rest
    · cases fam <;> decide
    · simp [decodeOperands, hf]
  case rounds fam rc x =>
    obtain ⟨hz1, hrc, hz0, hf, ho⟩ := header_R_eq_iff.1 rfl
    refine decode_encode_of_fields (op := .rounds) rfl hi ho ?_ ?_ rest
    · simp [mustBeZero, ← bits_eq_zero_iff, hz0, hz1]
    · simp [decodeOperands, hf, hrc]
  case permnf fam rc x =>
    obtain ⟨hz1, hrc, hz0, hf, ho⟩ := header_R_eq_iff.1 rfl
    refine decode_encode_of_fields (op := .permnf) rfl hi ho ?_ ?_ rest
    · simp [mustBeZero, ← bits_eq_zero_iff, hz0, hz1]
    · simp [decodeOperands, hf, hrc]
  case hderive fam rnd key inp =>
    obtain ⟨hz1, hr, hz0, hf, ho⟩ := header_K_eq_iff.1 rfl
    refine decode_encode_of_fields (op := .hderive) rfl hi ho ?_ ?_ rest
    · simp [mustBeZero, ← bits_eq_zero_iff, hz0, hz1]
    · have hkey := stringAt_packBytes [] (packBytes inp.toList) key.toList
      have hinp := stringAt_packBytes (packBytes key.toList) [] inp.toList
      rw [List.append_nil, packBytes_length] at hinp
      simp only [Vector.length_toList] at hkey hinp
      simp only [decodeOperands, hf, hr, famOf_famCode, Option.some_inj, Instr.hderive.injEq, true_and,
        ← Vector.toList_inj, toList_ofFn_stringByte]
      exact ⟨hkey, hinp⟩
  case maxpar bsel =>
    obtain ⟨hz1, hb, hz0, ho⟩ := header_B_eq_iff.1 rfl
    refine decode_encode_of_fields (op := .maxpar) rfl hi ho ?_ ?_ rest
    · simp [mustBeZero, ← bits_eq_zero_iff, hz0, hz1]
    · simp [decodeOperands, hb]
  case gen fam pol rnd bsel nblk x cb =>
    obtain ⟨hz, hn, hb, hr, hp, hf, ho⟩ := header_G_eq_iff.1 rfl
    have hcb := dwordAt_dwordWords cb x.toList []
    refine decode_encode_of_fields (op := .gen) rfl hi ho ?_ ?_ rest
    · simp [mustBeZero, ← bits_eq_zero_iff, hz]
    · simpa [decodeOperands, hn, hb, hr, hp, hf] using hcb
  case genx fam pol rnd bsel nblk x cb addr =>
    obtain ⟨hz, hn, hb, hr, hp, hf, ho⟩ := header_G_eq_iff.1 rfl
    have hcb := dwordAt_dwordWords cb x.toList (dwordWords addr)
    have haddr := dwordAt_dwordWords addr (x.toList ++ dwordWords cb) []
    refine decode_encode_of_fields (op := .genx) rfl hi ho ?_ ?_ rest
    · simp [mustBeZero, ← bits_eq_zero_iff, hz]
    · simp only [List.append_assoc, List.append_nil, List.length_append, Vector.length_toList] at hcb haddr
      simp only [decodeOperands, hn, hb, hr, hp, hf, famOf_famCode, polOf_polCode, List.append_assoc,
        wordsAt_toList_append, hcb]
      exact congrArg (fun a => some (Instr.genx fam pol rnd bsel nblk x cb a)) haddr
  case init fam pol rnd bsel key nonce =>
    obtain ⟨hn, hk, hb, hr, hp, hf, ho⟩ := header_G_eq_iff.1 rfl
    refine decode_encode_of_fields (op := .init) rfl hi ho (by simp [mustBeZero]) ?_ rest
    simp only [Instr.encodable, Bool.and_eq_true, decide_eq_true_eq] at hi
    have hkey := stringAt_packBytes [] (packBytes nonce) key
    have hnonce := stringAt_packBytes (packBytes key) [] nonce
    have hkeyPad := paddingZero_packBytes [] (packBytes nonce) key
    have hnoncePad := paddingZero_packBytes (packBytes key) [] nonce
    simp only [List.nil_append, List.append_nil, List.length_nil, packBytes_length]
      at hkey hnonce hkeyPad hnoncePad
    simp only [decodeOperands, hn, hb, hr, hp, hf, hk, famOf_famCode, polOf_polCode, BitVec.toNat_ofNat,
      Nat.mod_eq_of_lt hi.1, Nat.mod_eq_of_lt hi.2, hkey, hnonce, hkeyPad, hnoncePad, Bool.and_self, if_true]
  case apply addr len =>
    refine decode_encode_of_fields (op := .apply) rfl hi rfl (by decide) ?_ rest
    exact congrArg₂ (fun a n => some (Instr.apply a n)) (dwordAt_region addr len).1 (dwordAt_region addr len).2
  case tryApply addr len =>
    refine decode_encode_of_fields (op := .tryApply) rfl hi rfl (by decide) ?_ rest
    exact congrArg₂ (fun a n => some (Instr.tryApply a n)) (dwordAt_region addr len).1 (dwordAt_region addr len).2
  case rngFill addr len =>
    refine decode_encode_of_fields (op := .rngFill) rfl hi rfl (by decide) ?_ rest
    exact congrArg₂ (fun a n => some (Instr.rngFill a n)) (dwordAt_region addr len).1 (dwordAt_region addr len).2
  case seek v =>
    refine decode_encode_of_fields (op := .seek) rfl hi rfl (by decide) ?_ rest
    exact congrArg (fun v => some (Instr.seek v)) (qwordAt_qwordWords v [])
  case rngSetWp v =>
    refine decode_encode_of_fields (op := .rngSetWp) rfl hi rfl (by decide) ?_ rest
    exact congrArg (fun v => some (Instr.rngSetWp v)) (qwordAt_qwordWords v [])
  case rngSetStr v =>
    refine decode_encode_of_fields (op := .rngSetStr) rfl hi rfl (by decide) ?_ rest
    exact congrArg (fun v => some (Instr.rngSetStr v)) (qwordAt_qwordWords v [])
  case rngLoad id0 id1 id2 wp =>
    refine decode_encode_of_fields (op := .rngLoad) rfl hi rfl (by decide) ?_ rest
    exact congrArg (fun v => some (Instr.rngLoad id0 id1 id2 v)) (qwordAt_qwordWords wp [id0, id1, id2])
  all_goals rfl

/-- Two strings of a packet, one after the other. -/
theorem packBytes_stringAt_append {ws : List Word} {m n : Nat} (hm : paddingZero ws 0 m = true)
    (hn : paddingZero ws (wordsFor m) n = true) (hlen : ws.length = wordsFor m + wordsFor n) :
    packBytes (stringAt ws 0 m) ++ packBytes (stringAt ws (wordsFor m) n) = ws := by
  rw [packBytes_stringAt hm (by omega), packBytes_stringAt hn (by omega), List.drop_zero,
    ← List.take_add, List.take_of_length_le (by omega)]

/-- The packet of the instruction that a row's operands decode to is that packet. -/
theorem encode_of_decodeOperands {op : Op} {w0 : Word} {ops : List Word} {i : Instr}
    (hopc : bits w0 0 8 = (rowOfOp op).opc) (hz : ∀ f ∈ mustBeZero op, field w0 f.1 f.2 = 0)
    (hlen : ops.length + 1 = packetWords w0) (hops : decodeOperands op w0 ops = some i) :
    encode i = w0 :: ops ∧ i.encodable = true := by
  rw [Laws.PacketLength.packetWords_of_row (rowOf_of_opcode hopc)] at hlen
  have hzero (f : Nat × Nat) (hf : f ∈ mustBeZero op) : bits w0 f.1 f.2 = 0 :=
    bits_eq_zero_iff.2 (hz f hf)
  have hplain (h : (8, 24) ∈ mustBeZero op) : (0#24 ++ (rowOfOp op).opc : Word) = w0 :=
    header_Z_eq_iff.2 ⟨hzero _ h, hopc⟩
  have hfam : bits w0 8 1 = famCode (famOf (bits w0 8 1)) := (famCode_famOf _).symm
  have hpol : bits w0 9 2 = polCode (polOf (bits w0 9 2)) := (polCode_polOf _).symm
  cases op
  case init =>
    simp only [decodeOperands] at hops
    split_ifs at hops with hpad
    cases hops
    rw [Bool.and_eq_true] at hpad
    refine ⟨congrArg₂ List.cons (header_G_eq_iff.2 ⟨?_, ?_, rfl, rfl, hpol, hfam, hopc⟩)
      (packBytes_stringAt_append hpad.1 hpad.2 ?_), ?_⟩
    · simp [stringAt]
    · simp [stringAt]
    · have hn : ops.length + 1 = _ := hlen
      simp [formatWords, rowOfOp, opcodeTable] at hn
      omega
    · have h1 := (bits w0 16 8).isLt
      have h2 := (bits w0 24 8).isLt
      simpa [Instr.encodable, stringAt] using ⟨h1, h2⟩
  case hderive =>
    have hn : ops.length = 12 := Nat.succ.inj hlen
    cases hops
    refine ⟨congrArg₂ List.cons (header_K_eq_iff.2 ⟨hzero (13, 19) (by decide), rfl,
      hzero (9, 2) (by decide), hfam, hopc⟩) ?_, rfl⟩
    rw [toList_ofFn_stringByte, toList_ofFn_stringByte]
    exact packBytes_stringAt_append (m := 32) (n := 16) rfl rfl hn
  case qr =>
    cases hops
    exact ⟨congrArg₂ List.cons (header_Q_eq_iff.2 ⟨rfl, rfl, rfl, rfl, hzero (9, 7) (by decide), hfam,
      hopc⟩) (toList_wordsAt_whole (Nat.succ.inj hlen)), rfl⟩
  case dround =>
    cases hops
    have hz23 : bits w0 9 23 = 0#8 ++ 0#8 ++ 0#7 :=
      (append_eq_bits_iff (m := 16) (n := 7)).2 ⟨((append_eq_bits_iff (m := 8) (n := 8)).2
        ⟨hzero (24, 8) (by decide), hzero (16, 8) (by decide)⟩).symm, hzero (9, 7) (by decide)⟩ |>.symm
    exact ⟨congrArg₂ List.cons (header_dround_eq_iff.2 ⟨hz23, hfam, hopc⟩)
      (toList_wordsAt_whole (Nat.succ.inj hlen)), rfl⟩
  case rounds | permnf =>
    cases hops
    exact ⟨congrArg₂ List.cons (header_R_eq_iff.2 ⟨hzero (24, 8) (by decide), rfl,
      hzero (9, 7) (by decide), hfam, hopc⟩) (toList_wordsAt_whole (Nat.succ.inj hlen)), rfl⟩
  case maxpar =>
    have hn : ops.length = 0 := Nat.succ.inj hlen
    cases hops
    exact ⟨congrArg₂ List.cons (header_B_eq_iff.2 ⟨hzero (16, 16) (by decide), rfl,
      hzero (8, 5) (by decide), hopc⟩) (List.length_eq_zero_iff.1 hn).symm, rfl⟩
  case gen =>
    have hn : ops.length = 18 := Nat.succ.inj hlen
    cases hops
    refine ⟨congrArg₂ List.cons (header_G_eq_iff.2 ⟨hzero (24, 8) (by decide), rfl, rfl, rfl, hpol, hfam,
      hopc⟩) ?_, rfl⟩
    rw [toList_wordsAt, dwordAt, dwordWords_append]
    simpa [List.range_succ] using map_getD_range hn
  case genx =>
    have hn : ops.length = 20 := Nat.succ.inj hlen
    cases hops
    refine ⟨congrArg₂ List.cons (header_G_eq_iff.2 ⟨hzero (24, 8) (by decide), rfl, rfl, rfl, hpol, hfam,
      hopc⟩) ?_, rfl⟩
    rw [toList_wordsAt, dwordAt, dwordAt, dwordWords_append, dwordWords_append]
    simpa [List.range_succ] using map_getD_range hn
  case apply | tryApply | rngFill =>
    have hn : ops.length = 4 := Nat.succ.inj hlen
    cases hops
    refine ⟨congrArg₂ List.cons (hplain (by decide)) ?_, rfl⟩
    rw [dwordAt, dwordAt, dwordWords_append, dwordWords_append]
    exact map_getD_range hn
  case seek | rngSetWp | rngSetStr =>
    have hn : ops.length = 4 := Nat.succ.inj hlen
    cases hops
    refine ⟨congrArg₂ List.cons (hplain (by decide)) ?_, rfl⟩
    rw [qwordAt, qwordWords_append]
    exact map_getD_range hn
  case rngLoad =>
    have hn : ops.length = 7 := Nat.succ.inj hlen
    cases hops
    refine ⟨congrArg₂ List.cons (hplain (by decide)) ?_, rfl⟩
    rw [qwordAt, qwordWords_append]
    exact map_getD_range hn
  all_goals -- format Z
    have hn : ops.length = 0 := Nat.succ.inj hlen
    cases hops
    exact ⟨congrArg₂ List.cons (hplain (by decide)) (List.length_eq_zero_iff.1 hn).symm, rfl⟩

theorem packetWords_pos (w0 : Word) : 0 < packetWords w0 := by
  cases h : rowOf w0 with
  | none => rw [packetWords, h]; exact Nat.one_pos
  | some r =>
    rw [Laws.PacketLength.packetWords_of_row h]
    cases r.fmt
    case I => rw [formatWords]; omega
    all_goals exact Nat.succ_pos _

/-- What the decoder takes off the head of a stream that decodes. -/
theorem decode_eq_instr {ws : List Word} {i : Instr} {rest : List Word} (h : decode ws = .instr i rest) :
    ∃ w0 ops, ws = w0 :: (ops ++ rest) ∧ ops.length + 1 = packetWords w0 ∧ decodePacket w0 ops = .ok i := by
  cases ws with
  | nil => cases h
  | cons w0 ws =>
    have hpos := packetWords_pos w0
    simp only [decode] at h
    split_ifs at h with hshort
    split at h
    · rename_i hok
      cases h
      exact ⟨w0, ws.take (packetWords w0 - 1), by rw [List.take_append_drop], by simp; omega, hok⟩
    · cases h

/-- Settles O2: a stream that decodes is a row's packet and the words left over, and the fields of a header and
the operand words put together are the packet again. -/
theorem encodeOfDecode : Obligations.EncodeOfDecode := by
  intro ws i rest h
  obtain ⟨w0, ops, rfl, hlen, hok⟩ := decode_eq_instr h
  cases hres : reservedOpcode w0 with
  | true => rw [decodePacket, rowOf_of_reserved hres] at hok; cases hok
  | false =>
    obtain ⟨op, hrow, hopc⟩ := exists_op_of_defined hres
    obtain ⟨hm, hops⟩ := (decodePacket_eq_ok_iff hrow).1 hok
    obtain ⟨he, hi⟩ := encode_of_decodeOperands hopc ((rowMatches_rowOfOp hopc).1 hm) hlen hops
    exact ⟨by rw [he, List.cons_append], hi⟩

/-- The packet of an instruction, alone on the port. -/
theorem decode_encode_alone {i : Instr} {ws : List Word} (hi : i.encodable = true) (hw : encode i = ws) :
    decode ws = .instr i [] := by
  have h := decodeOfEncode i [] hi
  rwa [List.append_nil, hw] at h

/-- Settles O3: the packets printed are those of the commands, so each decodes to its command. -/
theorem knownPacketsDecode : Obligations.KnownPacketsDecode :=
  ⟨decode_encode_alone (by decide) (by decide), decode_encode_alone rfl (by decide),
    decode_encode_alone rfl (by decide), decode_encode_alone rfl (by decide),
    decode_encode_alone rfl (by decide), decode_encode_alone rfl (by decide)⟩

end Sys2Proof.Machine
end

section
/-! PROOFS of the obligations about a step (00_scope.md R14) and of the invariants that every step keeps
(10_state.md R29, R34; 43_stream_engine.md R228). First how an invariant of every command is one of every step;
then what each body does to the buffer and to the constants; then the obligations. -/

namespace Sys2Proof.Machine

open Safety

/-! ### A step -/

/-- Less than a packet on the port (30_encoding.md R111). -/
theorem decode_incomplete {w0 : Word} {ws : List Word} (h : ws.length + 1 < packetLength w0) :
    decode (w0 :: ws) = .incomplete := by
  have hshort : ws.length < packetLength w0 - 1 := by omega
  simp only [decode, packetWords_eq_packetLength, if_pos hshort]

theorem step_incomplete {s : State} (hr : s.rst = false) (hd : decode s.cmd = .incomplete) :
    step s = .next s := by
  rw [step, if_neg (Bool.eq_false_iff.1 hr), State.fetch, hd]

theorem step_reset {s : State} (hr : s.rst = true) : step s = .next s.resetEngine := by
  rw [step, if_pos hr]

/-- After reset the STATUS word is 0 (10_state.md R40). -/
theorem statusWord_resetEngine (s : State) : s.resetEngine.statusWord = 0 := by
  have hexh : s.resetEngine.exhFlag = false := rfl
  have hpart : s.resetEngine.partialFlag = false := rfl
  simp only [State.statusWord, hexh, hpart, State.resetEngine_err, State.resetEngine_off,
    State.resetEngine_rnd, State.resetEngine_pol, State.resetEngine_fam, State.resetEngine_backend,
    State.resetEngine_fault, State.resetEngine_inited]
  decide

/-- A property that reset establishes, and that neither the words left on the port, nor a packet that names no
command, nor any command breaks, is kept by every step. -/
theorem step_keeps {P : State → Prop} {s t : State} (hreset : P s.resetEngine)
    (hport : ∀ rest, P s → P { s with cmd := rest })
    (hraise : ∀ r : State, P r → P (r.raise .illegalCommand))
    (hexec : ∀ i r t, exec i r = .next t → P r → P t) (hs : P s) (h : step s = .next t) : P t := by
  rcases step_cases h with ⟨-, rfl⟩ | ⟨i, rest, hi⟩ | ⟨rest, rfl⟩ | rfl
  · exact hreset
  · exact hexec _ _ _ hi (hport rest hs)
  · exact hraise _ (hport rest hs)
  · exact hs

/-! ### The data space -/

/-- A command keeps the canonical form: its region lies inside the data space. -/
theorem exec_keeps_mem_wf (i : Instr) (s t : State) (h : exec i s = .next t) (hm : s.mem.wf = true) :
    t.mem.wf = true := by
  rcases exec_outcome h with ⟨e, -, -, -, rfl⟩ | ⟨hn, -, rfl⟩
  · exact hm
  · have hregion := region_of_no_error hn
    rw [bodyOf_mem]
    cases i
    case genx => exact wf_streamBytes _ _ hm (by rw [genBlocks_length]; exact hregion)
    case apply | tryApply | rngFill =>
      exact wf_streamBytes _ _ hm (by rw [coreBytes_length]; exact hregion)
    all_goals exact hm

/-! ### A move and a new stream, field by field -/

section
variable (s : State) (b r : Nat) (v : QWord)

theorem State.moveTo_words : (s.moveTo b r).words
    = withCounter s.fam s.width (if r = 0 then b else b % 2 ^ widthBits s.width + 1) s.words := by
  rw [State.moveTo_eq]

theorem State.moveTo_buf : (s.moveTo b r).buf
    = if r = 0 then s.buf else blockAt s.fam s.width (roundCount s.rnd) s.words b := by
  rw [State.moveTo_eq]

theorem State.moveTo_off : (s.moveTo b r).off = BitVec.ofNat 6 r := by rw [State.moveTo_eq]

@[simp] theorem State.width_moveTo : (s.moveTo b r).width = s.width := by
  rw [State.width, State.moveTo_fam, State.moveTo_pol, State.width]

theorem State.switchStream_words : (s.switchStream v).words
    = ((s.words.set 13 (v.extractLsb' 0 32)).set 14 (v.extractLsb' 32 32)).set 15
      (v.extractLsb' 64 32) := by
  rw [State.switchStream_eq]

@[simp] theorem State.width_switchStream : (s.switchStream v).width = s.width := by
  rw [State.width, State.switchStream_fam, State.switchStream_pol, State.width]

/-- The buffered block is the one before the counter, under the new identifier. -/
theorem State.switchStream_buf (h : s.off ≠ 0) : (s.switchStream v).buf
    = blockAt s.fam s.width (roundCount s.rnd) (s.switchStream v).words
      (((s.switchStream v).ctr + 2 ^ widthBits s.width - 1) % 2 ^ widthBits s.width) := by
  have hctr : (s.switchStream v).ctr = counterOf s.fam s.width (s.switchStream v).words := by
    rw [State.ctr, State.width_switchStream, State.switchStream_fam]
  rw [hctr, State.switchStream_words, State.switchStream_eq]
  exact if_neg h

end

/-! ### The buffer (10_state.md R29) -/

/-- The index before a counter that has wrapped. -/
theorem mod_pred (c : Nat) {m : Nat} (hm : 0 < m) : (c % m + m - 1) % m = (c + m - 1) % m := by
  rw [Nat.add_sub_assoc hm, Nat.add_sub_assoc hm, Nat.mod_add_mod]

/-- A move to a byte of a block leaves that block in the buffer. -/
theorem bufferValid_moveTo {s : State} {b r : Nat}
    (hb : s.pol ≠ .rng → r ≠ 0 → b + 1 < 2 ^ widthBits s.width) : BufferValid (s.moveTo b r) := by
  intro _ hoff
  have hr : r ≠ 0 := by
    rintro rfl
    exact hoff (State.moveTo_off s b 0)
  have hctr := State.moveTo_ctr s b r
  rw [if_neg hr] at hctr
  refine ⟨?_, fun hp => ?_⟩
  · rw [hctr, State.width_moveTo, mod_pred _ (two_pow_width_pos _), Nat.add_right_comm,
      Nat.add_sub_cancel, Nat.add_mod_right, blockAt_mod, State.moveTo_buf, if_neg hr, State.moveTo_words,
      State.moveTo_fam, State.moveTo_rnd, blockAt_withCounter]
  · rw [State.moveTo_pol] at hp
    rw [hctr, Nat.mod_eq_of_lt (hb hp hr)]
    exact Nat.le_add_left 1 b

/-- A position in SEEK's range (43_stream_engine.md R220). -/
theorem lt_of_not_seekPast {s : State} {n : Nat} (h : seekPast s n = false) :
    n / 64 < 2 ^ widthBits s.width ∧ (n % 64 ≠ 0 → n / 64 + 1 < 2 ^ widthBits s.width) := by
  have hrange : ¬ _ := mt seekPast_eq_true.2 (Bool.eq_false_iff.1 h)
  have hpos := two_pow_width_pos s.width
  omega

/-- A region command that starts with an empty buffer and ends inside a block has taken a new block. -/
theorem need_pos {s : State} {op : DataOp} {a n : Nat} (hoff : s.off = 0)
    (hend : (s.applyCore op a n).off ≠ 0) : 1 ≤ need s.avail n := by
  have hn : n ≠ 0 := by
    rintro rfl
    exact hend (by rw [applyCore_zero, hoff])
  rw [State.avail_of_eq hoff, need]
  split <;> omega

/-- A region command leaves the block before the counter in the buffer. -/
theorem bufferValid_applyCore {s : State} {op : DataOp} {a n : Nat} (hv : BufferValid s)
    (hi : s.inited = true) (hx : s.pol ≠ .rng → wouldExhaust s n = false) :
    BufferValid (s.applyCore op a n) := by
  intro _ hoff
  have hbuf := State.applyCore_buf s op a n (fun h => (hv hi h).1) hoff
  refine ⟨?_, fun hp => ?_⟩
  · rw [hbuf, State.applyCore_ctr, State.width_applyCore, mod_pred _ (two_pow_width_pos _),
      State.applyCore_words, State.applyCore_fam, State.applyCore_rnd, blockAt_withCounter]
  · rw [State.applyCore_pol] at hp
    rw [State.applyCore_ctr, Nat.mod_eq_of_lt (lt_of_not_wouldExhaust (hx hp))]
    by_cases h0 : s.off = 0
    · exact Nat.le_add_left_of_le (need_pos h0 hoff)
    · exact Nat.le_add_right_of_le ((hv hi h0).2 hp)

/-- A new stream identifier comes with the buffered block made anew. -/
theorem bufferValid_switchStream {s : State} (hp : s.pol = .rng) (v : QWord) :
    BufferValid (s.switchStream v) := by
  intro _ hoff
  rw [State.switchStream_off] at hoff
  refine ⟨?_, fun h => absurd ((State.switchStream_pol s v).trans hp) h⟩
  rw [State.switchStream_fam, State.switchStream_rnd, State.width_switchStream]
  exact State.switchStream_buf s v hoff

theorem exec_keeps_bufferValid (i : Instr) (s t : State) (h : exec i s = .next t) (hv : BufferValid s) :
    BufferValid t := by
  rcases exec_outcome h with ⟨e, -, -, -, rfl⟩ | ⟨hn, -, rfl⟩
  · exact hv
  obtain ⟨hcipher, hrng, hx, -, -⟩ := ready_of_no_error hn
  cases i
  case init => exact fun _ hoff => absurd rfl hoff
  case zeroize => exact fun hi => absurd hi Bool.false_ne_true
  case apply a n => exact bufferValid_applyCore hv (hcipher rfl).2.1 fun _ => hx
  case tryApply a n => exact bufferValid_applyCore hv (hcipher rfl).2.1 fun _ => hx
  case rngFill a n => exact bufferValid_applyCore hv (hrng rfl).2.1 fun hp => absurd (hrng rfl).2.2 hp
  case seek v => exact bufferValid_moveTo fun _ => (lt_of_not_seekPast hx).2
  case rngSetWp v => exact bufferValid_moveTo fun hp => absurd (hrng rfl).2.2 hp
  case rngLoad i0 i1 i2 v =>
    exact bufferValid_moveTo (s := s.setStream i0 i1 i2) fun hp => absurd (hrng rfl).2.2 hp
  case rngSetStr v => exact bufferValid_switchStream (hrng rfl).2.2 v
  all_goals exact hv

/-! ### The error latch (10_state.md R34) -/

/-- A refusal keeps the latch if its error is not Faulted while the latch is open, and sticks as CounterExhausted
only. -/
theorem errorLatchLegal_takeError {s : State} {b : Bool} {e : Status} (h : ErrorLatchLegal s)
    (he : s.fault = false → e ≠ .faulted) (hb : b = true → e = .counterExhausted) :
    ErrorLatchLegal (s.takeError b e) := by
  obtain ⟨hne, hfault⟩ := h
  cases hf : s.fault with
  | true =>
    have herr : (s.takeError b e).err = s.err := by rw [State.takeError_err, hf, if_pos rfl]
    exact ⟨herr ▸ hne, fun _ => herr ▸ hfault hf⟩
  | false =>
    have herr : (s.takeError b e).err = e := by rw [State.takeError_err, hf]; rfl
    rw [ErrorLatchLegal, herr, State.takeError_fault, hf, Bool.false_or]
    exact ⟨he hf, hb⟩

theorem exec_keeps_errorLatchLegal (i : Instr) (s t : State) (h : exec i s = .next t)
    (hs : ErrorLatchLegal s) : ErrorLatchLegal t := by
  rcases exec_outcome h with ⟨e, he, -, -, rfl⟩ | ⟨hn, -, rfl⟩
  · refine errorLatchLegal_takeError hs (fun hf => ?_) fun hb => (stickyOf_eq_true hb).2
    rintro rfl
    simpa [errorCondition, hf] using errorCondition_of_errorOf he
  · obtain ⟨hne, hfault⟩ := hs
    rw [ErrorLatchLegal, bodyOf_err, bodyOf_fault]
    split_ifs with hk
    · refine ⟨by decide, fun hf => ?_⟩
      rw [always_of_runs_faulted hn hf] at hk
      cases hk
    · exact ⟨hne, hfault⟩

/-! ### The configuration and the constants (10_state.md R22, R23; 30_encoding.md R98) -/

/-- An engine without `INITED` that has the configuration of reset. -/
theorem configLegal_of_uninited {s : State} (hi : s.inited = false) (ho : s.off = 0)
    (hf : s.fam = .chacha) (hp : s.pol = .standard) (hr : s.rnd = .r8) (hb : s.backend = .soft) :
    ConfigLegal s :=
  ⟨fun h => absurd (hi.symm.trans h) Bool.false_ne_true, fun _ => ⟨ho, hf, hp, hr, hb⟩⟩

/-- Without an engine `OFF` is written by INIT and ZEROIZE only. -/
theorem exec_keeps_off {i : Instr} {s t : State} (h : exec i s = .next t)
    (hc : kind i ≠ .construct) (hz : i ≠ .zeroize) (hi : s.inited = false) : t.off = s.off := by
  rcases exec_outcome h with ⟨e, -, -, -, rfl⟩ | ⟨hn, -, rfl⟩
  · rfl
  · obtain ⟨hcipher, hrng, -⟩ := ready_of_no_error hn
    have hk : kind i ≠ .cipher ∧ kind i ≠ .rng :=
      ⟨fun hk => by simp [(hcipher hk).2.1] at hi, fun hk => by simp [(hrng hk).2.1] at hi⟩
    cases i
    case init => exact absurd rfl hc
    case zeroize => exact absurd rfl hz
    case apply | tryApply | seek => exact absurd rfl hk.1
    case rngFill | rngSetWp | rngLoad | rngSetStr => exact absurd rfl hk.2
    all_goals rfl

theorem exec_keeps_configLegal {i : Instr} {s t : State} (h : exec i s = .next t) (hl : ConfigLegal s) :
    ConfigLegal t := by
  by_cases hc : kind i = .construct
  · obtain ⟨fam, pol, rnd, bsel, key, nonce, rfl⟩ := kind_construct hc
    rcases exec_init_outcome h with ⟨-, e, rfl⟩ | ⟨-, hv, r, -, rfl⟩
    · exact hl
    · exact ⟨fun _ => hv, fun hi => absurd hi.symm Bool.false_ne_true⟩
  by_cases hz : i = .zeroize
  · subst hz
    cases h
    exact configLegal_of_uninited rfl rfl rfl rfl rfl rfl
  · obtain ⟨hf, hp, hr, hb, hi⟩ := exec_keeps_config h (fun f p r b k n e => hc (by rw [e]; rfl)) hz
    rw [ConfigLegal, hf, hp, hr, hb, hi]
    refine ⟨hl.1, fun hun => ?_⟩
    rw [exec_keeps_off h hc hz hun]
    exact hl.2 hun

/-- A word of `S` that holds a constant. -/
def isConstantWord (fam : Family) (k : Fin 16) : Bool :=
  match fam with
  | .chacha => k.val < 4
  | .salsa => k.val % 5 == 0

theorem constantsInPlace_congr {s t : State} (hf : t.fam = s.fam) (hi : t.inited = s.inited)
    (hk : ∀ k : Fin 16, isConstantWord s.fam k = true → t.words[k] = s.words[k])
    (hs : ConstantsInPlace s) : ConstantsInPlace t := by
  intro hin
  have hcs := hs (hi ▸ hin)
  rw [hf]
  cases hfam : s.fam with
  | chacha =>
    rw [hfam] at hcs hk
    have h0 : t.words[0] = s.words[0] := hk 0 rfl
    have h1 : t.words[1] = s.words[1] := hk 1 rfl
    have h2 : t.words[2] = s.words[2] := hk 2 rfl
    have h3 : t.words[3] = s.words[3] := hk 3 rfl
    rwa [h0, h1, h2, h3]
  | salsa =>
    rw [hfam] at hcs hk
    have h0 : t.words[0] = s.words[0] := hk 0 rfl
    have h5 : t.words[5] = s.words[5] := hk 5 rfl
    have h10 : t.words[10] = s.words[10] := hk 10 rfl
    have h15 : t.words[15] = s.words[15] := hk 15 rfl
    rwa [h0, h5, h10, h15]

/-- Every layout puts the constants into their slots. -/
theorem constantsInPlace_construct (s : State) (fam : Family) (pol : Policy) (r : Rounds) (b : Backend)
    (key nonce : List Byte) : ConstantsInPlace (s.construct fam pol r b key nonce) := by
  intro _
  cases fam <;> cases pol <;> exact ⟨rfl, rfl, rfl, rfl⟩

theorem not_isConstantWord_of_isCounterWord {fam : Family} {pol : Policy} {k : Fin 16}
    (h : isCounterWord fam pol k = true) : isConstantWord fam k = false := by
  revert h k
  cases fam <;> cases pol <;> decide

/-- No command but INIT and ZEROIZE writes a word that holds a constant: an adapter's stream words hold none. -/
theorem exec_keeps_constant_words {i : Instr} {s t : State} (hl : ConfigLegal s)
    (h : exec i s = .next t) (hc : kind i ≠ .construct) (hz : i ≠ .zeroize) (hi : s.inited = true)
    {k : Fin 16} (hk : isConstantWord s.fam k = true) : t.words[k] = s.words[k] := by
  by_contra hne
  rcases stateWordsAreReachedOnlyAsAllowed.1 i s t k h hc hz hne with ⟨hctr, -⟩ | ⟨hle, hp, -⟩
  · rw [not_isConstantWord_of_isCounterWord hctr] at hk
    cases hk
  · have hv := hl.1 hi
    rw [hp] at hv
    cases hfam : s.fam with
    | chacha =>
      rw [hfam] at hk
      have hlt : k.val < 4 := of_decide_eq_true hk
      omega
    | salsa => rw [hfam] at hv; cases hv

theorem exec_keeps_constantsInPlace {i : Instr} {s t : State} (h : exec i s = .next t)
    (hl : ConfigLegal s) (hs : ConstantsInPlace s) : ConstantsInPlace t := by
  by_cases hc : kind i = .construct
  · obtain ⟨fam, pol, rnd, bsel, key, nonce, rfl⟩ := kind_construct hc
    rcases exec_init_outcome h with ⟨-, e, rfl⟩ | ⟨-, -, r, -, rfl⟩
    · exact hs
    · exact constantsInPlace_construct s fam pol r (select bsel s.caps) key nonce
  by_cases hz : i = .zeroize
  · subst hz
    cases h
    exact fun hi => absurd hi Bool.false_ne_true
  · obtain ⟨hf, -, -, -, hi⟩ := exec_keeps_config h (fun f p r b k n e => hc (by rw [e]; rfl)) hz
    exact fun hin => constantsInPlace_congr hf hi
      (fun k => exec_keeps_constant_words hl h hc hz (hi ▸ hin)) hs hin

/-! ### The obligations -/

/-- Settles O7: the decoder's command runs on what is left, and neither a refusal nor a body writes the port or an
input. -/
theorem stepRunsDecodedCommand : Obligations.StepRunsDecodedCommand := by
  refine ⟨fun s i rest hr hd => step_instr hr hd, fun i s t h => ?_⟩
  rcases exec_cases h with ⟨e, -, rfl⟩ | ⟨-, rfl⟩
  · exact ⟨rfl, rfl, rfl⟩
  · obtain ⟨hcmd, hrst, hcaps, -⟩ := bodyOf_ports i s
    exact ⟨hcmd, hrst, hcaps⟩

/-- Settles O8: the decoder calls both ports incomplete. -/
theorem stepWaitsForWholePacket : Obligations.StepWaitsForWholePacket := by
  rintro s hr (hnil | ⟨w0, ws, hcmd, hlen⟩)
  · exact step_incomplete hr (by rw [hnil]; rfl)
  · exact step_incomplete hr (by rw [hcmd, decode_incomplete hlen])

/-- Settles O9: the step is `resetEngine`, field by field. -/
theorem resetStep : Obligations.ResetStep := by
  intro s hr
  exact ⟨s.resetEngine, step_reset hr, rfl, rfl, rfl, rfl, rfl, rfl, rfl, rfl,
    statusWord_resetEngine s, rfl, rfl, rfl, rfl, rfl⟩

/-- Settles O10: reset, each of the decoder's three answers and every command end in a next state. -/
theorem stepAlwaysAnswers : Obligations.StepAlwaysAnswers := by
  intro s
  cases hr : s.rst with
  | true => exact ⟨_, step_reset hr⟩
  | false =>
    cases hd : decode s.cmd with
    | instr i rest => exact ⟨_, (step_instr hr hd).trans (exec_eq i _)⟩
    | illegal why rest => exact ⟨_, step_illegal hr hd⟩
    | incomplete => exact ⟨_, step_incomplete hr hd⟩

/-- Settles O56: only a region command that runs writes data, byte by byte and inside the data space. -/
theorem stepKeepsMemoryCanonical : Obligations.StepKeepsMemoryCanonical := fun _ _ hs h =>
  step_keeps (P := fun r => r.mem.wf = true) hs (fun _ => id) (fun _ => id) exec_keeps_mem_wf hs h

/-- Settles O57: whatever writes the counter, `OFF` or `BUF` leaves the block before the counter in `BUF`, or
`OFF = 0`. -/
theorem stepKeepsBufferValid : Obligations.StepKeepsBufferValid := fun _ _ hs h =>
  step_keeps (fun hi => absurd hi Bool.false_ne_true) (fun _ => id) (fun _ => id)
    exec_keeps_bufferValid hs h

/-- Settles O58: INIT constructs a legal variant with its constants, and the words written afterwards hold none. -/
theorem stepKeepsVariantAndConstants : Obligations.StepKeepsVariantAndConstants := fun _ _ hl hc h =>
  step_keeps (P := fun r => ConfigLegal r ∧ ConstantsInPlace r)
    ⟨configLegal_of_uninited rfl rfl rfl rfl rfl rfl, fun hi => absurd hi Bool.false_ne_true⟩
    (fun _ => id) (fun _ => id)
    (fun _ _ _ hi hr => ⟨exec_keeps_configLegal hi hr.1, exec_keeps_constantsInPlace hi hr.1 hr.2⟩)
    ⟨hl, hc⟩ h

/-- Settles O59: Faulted is raised only while `FAULT = 1`, when `ERR` is not written, and the sticky error is
CounterExhausted. -/
theorem stepKeepsErrorLatch : Obligations.StepKeepsErrorLatch := fun _ _ hs h =>
  step_keeps (P := ErrorLatchLegal) ⟨(by decide : Status.ok ≠ .faulted), fun hf => absurd hf Bool.false_ne_true⟩
    (fun _ => id)
    (fun _ hr => errorLatchLegal_takeError hr (fun _ => by decide) (fun hb => absurd hb Bool.false_ne_true))
    exec_keeps_errorLatchLegal hs h

/-- Settles O60: at reset nothing is listed, there is no engine and nothing is latched. -/
theorem resetMeetsTheInvariants : Obligations.ResetMeetsTheInvariants := by
  exact ⟨rfl, fun hi => absurd hi Bool.false_ne_true, configLegal_of_uninited rfl rfl rfl rfl rfl rfl,
    fun hi => absurd hi Bool.false_ne_true, ⟨by decide, fun hf => absurd hf Bool.false_ne_true⟩,
    statusWord_resetEngine State.reset⟩

end Sys2Proof.Machine
end

section
/-! PROOFS of the obligations about what a command leaves alone and what it does not read (10_state.md R29, R41;
20_memory.md R66, R71). First what other data and another buffer change in the check and in the body of a command;
then the obligations. -/

namespace Sys2Proof.Machine

open Safety

/-! ### The footprint -/

/-- The keystream bytes a command combines into its region; none for a command that names no region. -/
def regionBytes (i : Instr) (s : State) : List Byte :=
  match i with
  | .genx fam pol rnd _ nblk x cb _ =>
    genBlocks fam (ctrWidth fam pol) (roundCount (fieldRounds rnd)) x cb.toNat nblk.toNat
  | .apply _ n => coreBytes s n.toNat
  | .tryApply _ n => coreBytes s n.toNat
  | .rngFill _ n => coreBytes s n.toNat
  | _ => []

/-- How a command combines them (20_memory.md R66; 45_rng_adapter.md R272). -/
def regionOp : Instr → DataOp
  | .rngFill _ _ => .store
  | _ => .xor

theorem regionOp_eq_xor {i : Instr} (h : ∀ addr len, i ≠ .rngFill addr len) : regionOp i = .xor := by
  cases i
  case rngFill addr len => exact absurd rfl (h addr len)
  all_goals rfl

theorem regionBytes_length (i : Instr) (s : State) : (regionBytes i s).length = (region i).2 := by
  cases i
  case genx => exact genBlocks_length _ _ _ _ _ _
  case apply | tryApply | rngFill => exact coreBytes_length _ _
  all_goals rfl

/-- The data after a command that runs. -/
theorem bodyOf_mem_region (i : Instr) (s : State) :
    (bodyOf i s).mem = streamBytes (regionOp i) s.mem (region i).1 (regionBytes i s) := by
  rw [bodyOf_mem]
  cases i <;> rfl

/-- A byte of the region after a command that runs, with the keystream byte combined into it. -/
theorem exists_read_bodyOf_mem {i : Instr} {a : Nat} (ha : InRegion (region i).1 (region i).2 a) (s : State) :
    ∃ k, ∀ m, (bodyOf i { s with mem := m }).mem.read a = combine (regionOp i) (m.read a) k := by
  obtain ⟨hlo, hhi⟩ := ha
  obtain ⟨j, rfl⟩ := Nat.exists_eq_add_of_le hlo
  have hj : j < (regionBytes i s).length := by rw [regionBytes_length]; omega
  refine ⟨(regionBytes i s)[j], fun m => ?_⟩
  rw [bodyOf_mem_region]
  exact read_streamBytes_inside _ _ _ _ _ hj

/-- What was XORed into a byte, from the byte after and the byte before. -/
theorem xor_xor_old (old k : Byte) : old ^^^ k ^^^ old = k := by
  rw [BitVec.xor_comm old k, BitVec.xor_assoc, BitVec.xor_self, BitVec.xor_zero]

/-! ### Other data -/

/-- No check reads the data. -/
theorem errorOf_mem (i : Instr) (s : State) (m : Memory) : errorOf i { s with mem := m } = errorOf i s := rfl

/-- No keystream byte depends on the data. -/
theorem regionBytes_mem (i : Instr) (s : State) (m : Memory) :
    regionBytes i { s with mem := m } = regionBytes i s := rfl

/-- A body run on other data ends in the same state but for the data. -/
theorem bodyOf_other_mem (i : Instr) (s : State) (m : Memory) :
    bodyOf i { s with mem := m } = { bodyOf i s with mem := (bodyOf i { s with mem := m }).mem } := by
  cases i
  case apply | tryApply | rngFill => simp only [bodyOf, State.applyCore_eq]; rfl
  case seek => simp only [bodyOf, State.moveTo_eq]; rfl
  case rngSetWp | rngLoad => simp only [bodyOf, State.setWordPos_eq, State.moveTo_eq]; rfl
  case rngSetStr => simp only [bodyOf, State.switchStream_eq]; rfl
  all_goals rfl

/-! ### Another buffer -/

theorem errorOf_buf (i : Instr) (s : State) (b : Block) : errorOf i { s with buf := b } = errorOf i s := rfl

theorem coreBytes_buf {s : State} (h : s.off = 0) (b : Block) (n : Nat) :
    coreBytes { s with buf := b } n = coreBytes s n := by
  have hb : { s with buf := b }.avail = 0 := State.avail_of_eq h
  rw [coreBytes, coreBytes, hb, State.avail_of_eq h, Nat.min_zero, List.take_zero, List.take_zero]
  rfl

section
variable {s : State} (h : s.off = 0) (b : Block)
include h

/-- A region command fills the buffer anew, or leaves it as stale as it was. -/
theorem State.applyCore_other_buf (op : DataOp) (a n : Nat) :
    ∃ b', { s with buf := b }.applyCore op a n = { s.applyCore op a n with buf := b' }
      ∧ ((s.applyCore op a n).off ≠ 0 → b' = (s.applyCore op a n).buf) := by
  refine ⟨({ s with buf := b }.applyCore op a n).buf, ?_, fun hoff => ?_⟩
  · simp only [State.applyCore_eq, coreBytes_buf h]
    rfl
  · have hb : { s with buf := b }.avail = 0 := State.avail_of_eq h
    have hn : n % 64 ≠ 0 := by
      intro hn
      rw [State.applyCore_off, off_toNat_eq_zero.2 h] at hoff
      exact hoff (BitVec.eq_of_toNat_eq (by simpa using hn))
    rw [applyCore_buf_eq, applyCore_buf_eq, hb, State.avail_of_eq h, Nat.min_zero, Nat.sub_zero,
      if_neg hn, if_neg hn]
    rfl

omit h in
/-- A move to a position regenerates the buffer, or leaves it stale. -/
theorem State.moveTo_other_buf (c r : Nat) :
    ∃ b', { s with buf := b }.moveTo c r = { s.moveTo c r with buf := b' }
      ∧ ((s.moveTo c r).off ≠ 0 → b' = (s.moveTo c r).buf) := by
  refine ⟨({ s with buf := b }.moveTo c r).buf, ?_, fun hoff => ?_⟩
  · rw [State.moveTo_eq, State.moveTo_eq]
    rfl
  · have hr : r ≠ 0 := by
      rintro rfl
      exact hoff (State.moveTo_off s c 0)
    rw [State.moveTo_buf, State.moveTo_buf, if_neg hr, if_neg hr]
    rfl

/-- With `OFF = 0` a body run on another buffer ends in the same state but for the buffer, which is the same too
unless it is stale again. -/
theorem bodyOf_other_buf (i : Instr) :
    ∃ b', bodyOf i { s with buf := b } = { bodyOf i s with buf := b' }
      ∧ ((bodyOf i s).off ≠ 0 → b' = (bodyOf i s).buf) := by
  cases i
  case apply a n | tryApply a n =>
    obtain ⟨b', hb, hoff⟩ := State.applyCore_other_buf h b .xor a.toNat n.toNat
    exact ⟨b', congrArg (State.respond · []) hb, hoff⟩
  case rngFill a n =>
    obtain ⟨b', hb, hoff⟩ := State.applyCore_other_buf h b .store a.toNat n.toNat
    exact ⟨b', congrArg (State.respond · []) hb, hoff⟩
  case seek v =>
    obtain ⟨b', hb, hoff⟩ := State.moveTo_other_buf (s := s) b (v.toNat / 64) (v.toNat % 64)
    exact ⟨b', congrArg (State.respond · []) hb, hoff⟩
  case rngSetWp v =>
    obtain ⟨b', hb, hoff⟩ := State.moveTo_other_buf (s := s) b (v.toNat % 2 ^ 36 / 16)
      (4 * (v.toNat % 2 ^ 36 % 16))
    exact ⟨b', congrArg (State.respond · []) hb, hoff⟩
  case rngLoad i0 i1 i2 v =>
    obtain ⟨b', hb, hoff⟩ := State.moveTo_other_buf (s := s.setStream i0 i1 i2) b
      (v.toNat % 2 ^ 36 / 16) (4 * (v.toNat % 2 ^ 36 % 16))
    exact ⟨b', congrArg (State.respond · []) hb, hoff⟩
  case rngSetStr v =>
    refine ⟨b, ?_, fun hoff => absurd ((State.switchStream_off s v).trans h) hoff⟩
    have hb : { s with buf := b }.off = 0 := h
    simp only [bodyOf, State.switchStream_eq, if_pos hb]
    rfl
  case zeroize => exact ⟨_, rfl, fun _ => rfl⟩
  case init => exact ⟨b, rfl, fun hoff => absurd rfl hoff⟩
  all_goals exact ⟨b, rfl, fun hoff => absurd h hoff⟩

end

/-! ### No engine -/

section
variable {i : Instr} {s : State} (hi : s.inited = false)
include hi

/-- Without an engine the checks read neither the state words nor the buffer. -/
theorem errorOf_uninited (x : Words) (b : Block) :
    errorOf i { s with words := x, buf := b } = errorOf i s := by
  by_cases hk : kind i = .cipher ∨ kind i = .rng
  · unfold errorOf
    simp [hk, hi]
  · have hx (r : State) : exhausts i r = false :=
      Bool.eq_false_iff.2 fun h => hk (.inl (kind_of_exhausts h))
    unfold errorOf
    rw [hx, hx]
    rfl

/-- So does the body of a command that runs. -/
theorem bodyOf_uninited (hn : errorOf i s = none) (x : Words) (b : Block) :
    ∃ x' b', bodyOf i { s with words := x, buf := b } = { bodyOf i s with words := x', buf := b' }
      ∧ ((bodyOf i s).inited = true → x' = (bodyOf i s).words) := by
  have hun : ¬ (s.inited = true) := by simp [hi]
  obtain ⟨hcipher, hrng, -⟩ := ready_of_no_error hn
  cases i
  case apply | tryApply | seek | getPos => exact absurd (hcipher rfl).2.1 hun
  case rngFill | rngGetWp | rngSetWp | rngGetStr | rngSetStr | rngSave | rngLoad =>
    exact absurd (hrng rfl).2.1 hun
  case rdStat =>
    have hexh : { s with words := x, buf := b }.exhFlag = s.exhFlag := by
      simp only [State.exhFlag, hi, Bool.false_and]
    have hstatus : { s with words := x, buf := b }.statusWord = s.statusWord := by
      rw [State.statusWord, hexh]
      rfl
    exact ⟨x, b, by rw [bodyOf, hstatus]; rfl, fun h => absurd h hun⟩
  case init => exact ⟨_, b, rfl, fun _ => rfl⟩
  case zeroize => exact ⟨_, _, rfl, fun _ => rfl⟩
  all_goals exact ⟨x, b, rfl, fun h => absurd h hun⟩

end

/-! ### The obligations -/

/-- Settles O21: the data changes by the bytes of the region only, and a refusal changes none. -/
theorem dataOutsideTheRegionIsUntouched : Obligations.DataOutsideTheRegionIsUntouched := by
  intro i s t h
  rcases exec_outcome h with ⟨e, -, -, -, rfl⟩ | ⟨-, h0, rfl⟩
  · exact ⟨fun _ _ => rfl, fun _ => rfl⟩
  · refine ⟨fun a ha => ?_, fun hne => absurd h0 hne⟩
    rw [bodyOf_mem_region]
    rcases Nat.lt_or_ge a (region i).1 with hlt | hge
    · exact read_streamBytes_below _ _ _ hlt
    · refine read_streamBytes_above _ _ _ ?_
      rw [regionBytes_length]
      exact Nat.le_of_not_lt fun hlt => ha ⟨hge, hlt⟩

/-- Settles O25: without an engine no command that runs reads `S` or `BUF`, and with `OFF = 0` none reads `BUF`. -/
theorem unwrittenStateIsNeverRead : Obligations.UnwrittenStateIsNeverRead := by
  refine ⟨fun i s t u x b hi ht hu => ?_, fun i s t u b hoff ht hu => ?_⟩
  · cases he : errorOf i s with
    | some e =>
      rw [exec_of_error he] at ht
      rw [exec_of_error ((errorOf_uninited hi x b).trans he)] at hu
      cases ht; cases hu
      exact ⟨rfl, fun h => absurd (hi.symm.trans h) Bool.false_ne_true⟩
    | none =>
      rw [exec_of_no_error he] at ht
      rw [exec_of_no_error ((errorOf_uninited hi x b).trans he)] at hu
      obtain ⟨x', b', hbody, hx⟩ := bodyOf_uninited hi he x b
      rw [hbody] at hu
      cases ht; cases hu
      exact ⟨rfl, hx⟩
  · cases he : errorOf i s with
    | some e =>
      rw [exec_of_error he] at ht
      rw [exec_of_error ((errorOf_buf i s b).trans he)] at hu
      cases ht; cases hu
      exact ⟨rfl, fun h => absurd hoff h⟩
    | none =>
      rw [exec_of_no_error he] at ht
      rw [exec_of_no_error ((errorOf_buf i s b).trans he)] at hu
      obtain ⟨b', hbody, hb⟩ := bodyOf_other_buf hoff b i
      rw [hbody] at hu
      cases ht; cases hu
      exact ⟨rfl, hb⟩

/-- Settles O26: other data change no check and no keystream byte. -/
theorem keystreamIgnoresTheData : Obligations.KeystreamIgnoresTheData := by
  intro i s t u m ht hu
  rcases exec_outcome ht with ⟨e, he, -, hne, rfl⟩ | ⟨hn, -, rfl⟩
  · rw [exec_of_error ((errorOf_mem i s m).trans he)] at hu
    cases hu
    refine ⟨rfl, fun a _ => ?_⟩
    split
    · exact fun h0 => absurd h0 hne
    · exact BitVec.xor_self.trans BitVec.xor_self.symm
  · rw [exec_of_no_error ((errorOf_mem i s m).trans hn)] at hu
    cases hu
    refine ⟨bodyOf_other_mem i s m, fun a ha => ?_⟩
    obtain ⟨k, hk⟩ := exists_read_bodyOf_mem ha s
    have hs : (bodyOf i s).mem.read a = combine (regionOp i) (s.mem.read a) k := hk s.mem
    rw [hk m, hs]
    split
    · exact fun _ => rfl
    next hi =>
      rw [regionOp_eq_xor fun addr len h => hi addr len h]
      exact (xor_xor_old _ k).trans (xor_xor_old _ k).symm

end Sys2Proof.Machine
end

section
/-! PROOFS of the obligations about the quarter-rounds, the double-rounds and what is built on them
(40_permutation.md R134 to R142; 44_variant_subkey.md R252 to R254; 42_backends.md R189, R193). -/

namespace Sys2Proof.Machine

open Safety

/-! ### The Salsa quarter-round (40_permutation.md R134) -/

/-- A Salsa quarter-round writes the four selected words only. -/
theorem qrs_other (x : Words) {a b c d k : Fin 16} (ha : k ≠ a) (hb : k ≠ b) (hc : k ≠ c) (hd : k ≠ d) :
    (qrs x a b c d)[k] = x[k] := by
  simp only [qrs, words_set_other _ _ ha, words_set_other _ _ hb, words_set_other _ _ hc,
    words_set_other _ _ hd]

/-- On distinct indices no write disturbs a word that a later one reads. -/
theorem qrs_selected (x : Words) {a b c d : Fin 16} (h : distinct4 a b c d = true) :
    let y := qrs x a b c d
    let b1 := x[b] ^^^ (x[a] + x[d]).rotateLeft 7
    let c1 := x[c] ^^^ (b1 + x[a]).rotateLeft 9
    let d1 := x[d] ^^^ (c1 + b1).rotateLeft 13
    y[a] = x[a] ^^^ (d1 + c1).rotateLeft 18 ∧ y[b] = b1 ∧ y[c] = c1 ∧ y[d] = d1 := by
  obtain ⟨hab, hac, had, hbc, hbd, hcd⟩ := distinct4_iff.1 h
  simp only [qrs, rotl_eq_rotateLeft _ (show 7 < 32 by decide), rotl_eq_rotateLeft _ (show 9 < 32 by decide),
    rotl_eq_rotateLeft _ (show 13 < 32 by decide), rotl_eq_rotateLeft _ (show 18 < 32 by decide),
    words_set_same,
    words_set_other _ _ hab, words_set_other _ _ hac, words_set_other _ _ had,
    words_set_other _ _ hbc, words_set_other _ _ hbd, words_set_other _ _ hcd.symm,
    words_set_other _ _ hab.symm, words_set_other _ _ hac.symm, words_set_other _ _ had.symm,
    words_set_other _ _ hbc.symm, words_set_other _ _ hbd.symm, words_set_other _ _ hcd, and_self]

/-! ### Inverses (40_permutation.md R142) -/

theorem rotl_injective {n : Nat} (h : n < 32) : Function.Injective fun a : Word => rotl a n := by
  intro a b hab
  simp only [rotl_eq_rotateLeft _ h] at hab
  refine BitVec.eq_of_getLsbD_eq fun i hi => ?_
  have hbit (k : Nat) := congrArg (BitVec.getLsbD · k) hab
  simp only [BitVec.getLsbD_rotateLeft, Nat.mod_eq_of_lt h] at hbit
  by_cases hw : i + n < 32
  · simpa [hw, show ¬ i + n < n by omega] using hbit (i + n)
  · have hk := hbit (i + n - 32)
    simpa [show i + n - 32 < n by omega, show 32 - n + (i + n - 32) = i by omega] using hk

theorem xor_bijective (c : Word) : Function.Bijective fun v : Word => v ^^^ c :=
  Function.Involutive.bijective fun v => by rw [BitVec.xor_assoc, BitVec.xor_self, BitVec.xor_zero]

theorem rotl_xor_bijective {n : Nat} (h : n < 32) (c : Word) :
    Function.Bijective fun v : Word => rotl (v ^^^ c) n := by
  have hrotl := Finite.injective_iff_bijective.1 (rotl_injective h)
  exact hrotl.comp (xor_bijective c)

/-- A step that replaces one word by a bijective function of it, the function depending on other words only, is a
bijection of the sixteen words. -/
theorem bijective_set {i : Fin 16} {f : Words → Word → Word} (hf : ∀ x v, f (x.set i v) = f x)
    (hb : ∀ x, Function.Bijective (f x)) : Function.Bijective fun x : Words => x.set i (f x x[i]) := by
  have set_self (x : Words) : x.set i x[i] = x := Vector.set_getElem_self i.isLt
  have set_set (x : Words) (v w : Word) : (x.set i v).set i w = x.set i w := Vector.set_set ..
  refine ⟨fun x y hxy => ?_, fun y => ?_⟩
  · have hx : x.set i y[i] = y := by
      have := congrArg (Vector.set · i y[i]) hxy
      simpa only [set_set, set_self] using this
    have hfx : f y = f x := by rw [← hx, hf]
    have hw := congrArg (fun z : Words => z[i]) hxy
    simp only [words_set_same, hfx] at hw
    rw [← (hb x).1 hw, set_self] at hx
    exact hx
  · obtain ⟨v, hv⟩ := (hb y).2 y[i]
    exact ⟨y.set i v, by simp only [words_set_same, hf, hv, set_set, set_self]⟩

section
variable {a b c d : Fin 16}

/-- `x[a] <- x[a] + x[b]` (40_permutation.md R132). -/
theorem add_step_bijective (h : b ≠ a) : Function.Bijective fun x : Words => x.set a (x[a] + x[b]) :=
  bijective_set (f := fun x v => v + x[b]) (fun x v => by simp only [words_set_other _ _ h])
    fun x => AddGroup.addRight_bijective x[b]

/-- `x[d] <- rotl(x[d] XOR x[a], n)` (40_permutation.md R132). -/
theorem rotl_xor_step_bijective {n : Nat} (hn : n < 32) (h : a ≠ d) :
    Function.Bijective fun x : Words => x.set d (rotl (x[d] ^^^ x[a]) n) :=
  bijective_set (f := fun x v => rotl (v ^^^ x[a]) n) (fun x v => by simp only [words_set_other _ _ h])
    fun x => rotl_xor_bijective hn x[a]

/-- `x[b] <- x[b] XOR rotl(x[a] + x[d], n)` (40_permutation.md R134). -/
theorem xor_rotl_step_bijective (n : Nat) (ha : a ≠ b) (hd : d ≠ b) :
    Function.Bijective fun x : Words => x.set b (x[b] ^^^ rotl (x[a] + x[d]) n) :=
  bijective_set (f := fun x v => v ^^^ rotl (x[a] + x[d]) n)
    (fun x v => by simp only [words_set_other _ _ ha, words_set_other _ _ hd])
    fun x => xor_bijective _

variable (h : distinct4 a b c d = true)
include h

theorem qrcHalf_bijective {r1 r2 : Nat} (h1 : r1 < 32) (h2 : r2 < 32) :
    Function.Bijective fun x => qrcHalf r1 r2 x a b c d := by
  obtain ⟨hab, hac, had, hbc, hbd, hcd⟩ := distinct4_iff.1 h
  exact (rotl_xor_step_bijective h2 hbc.symm).comp ((add_step_bijective hcd.symm).comp
    ((rotl_xor_step_bijective h1 had).comp (add_step_bijective hab.symm)))

theorem qrs_bijective : Function.Bijective fun x => qrs x a b c d := by
  obtain ⟨hab, hac, had, hbc, hbd, hcd⟩ := distinct4_iff.1 h
  exact (xor_rotl_step_bijective 18 had.symm hac.symm).comp ((xor_rotl_step_bijective 13 hcd hbd).comp
    ((xor_rotl_step_bijective 9 hbc hac).comp (xor_rotl_step_bijective 7 hab hbd.symm)))

theorem quarter_bijective (fam : Family) : Function.Bijective fun x => quarter fam x a b c d := by
  cases fam with
  | chacha =>
    exact (qrcHalf_bijective (r1 := 8) (r2 := 7) h (by decide) (by decide)).comp
      (qrcHalf_bijective (r1 := 16) (r2 := 12) h (by decide) (by decide))
  | salsa => exact qrs_bijective h

end

theorem applyGroups_bijective {fam : Family} {gs : List Group}
    (h : ∀ g ∈ gs, distinct4 g.1 g.2.1 g.2.2.1 g.2.2.2 = true) :
    Function.Bijective fun x => applyGroups fam x gs := by
  induction gs with
  | nil => exact Function.bijective_id
  | cons g gs ih =>
    rw [List.forall_mem_cons] at h
    exact (ih h.2).comp (quarter_bijective h.1 fam)

theorem firstPass_distinct (fam : Family) :
    (firstPass fam).all (fun g => distinct4 g.1 g.2.1 g.2.2.1 g.2.2.2) = true := by cases fam <;> rfl

theorem secondPass_distinct (fam : Family) :
    (secondPass fam).all (fun g => distinct4 g.1 g.2.1 g.2.2.1 g.2.2.2) = true := by cases fam <;> rfl

theorem doubleRound_bijective (fam : Family) : Function.Bijective (doubleRound fam) :=
  (applyGroups_bijective (List.all_eq_true.1 (secondPass_distinct fam))).comp
    (applyGroups_bijective (List.all_eq_true.1 (firstPass_distinct fam)))

/-- Rounds compose when the first count is even (40_permutation.md R142). -/
theorem permNF_add (fam : Family) {m : Nat} (n : Nat) (x : Words) (h : m % 2 = 0) :
    permNF fam (m + n) x = permNF fam n (permNF fam m x) := by
  have hhalf : (m + n) / 2 = n / 2 + m / 2 := by omega
  simp only [permNF_eq_iterate, hhalf, Function.iterate_add_apply]

/-! ### The subkey derivation (44_variant_subkey.md R252 to R254) -/

/-- HDERIVE answers the derived words and writes nothing else. -/
theorem exec_hderive {s : State} {fam : Family} {rnd : BitVec 2} {r : Rounds} {key : Vector Byte 32}
    {inp : Vector Byte 16} (hf : s.fault = false) (hr : roundsOf rnd = some r) :
    exec (.hderive fam rnd key inp) s = .next { s with
      resp := 0x00002000
        :: hOutput fam (permNF fam (roundCount r) (hState fam key.toList inp.toList)) } := by
  have hl : operandsLegal (.hderive fam rnd key inp) s.caps = true := by
    simp [operandsLegal, Instr.legal, hr]
  have hlen (w : Words) : (hOutput fam w).length = 8 := by cases fam <;> rfl
  rw [exec_pure rfl hl hf rfl, bodyOf, fieldRounds_of_roundsOf hr, hDerive,
    respond_words _ _ (by rw [hlen]; decide), hlen]
  rfl

/-! ### GENX (42_backends.md R193) -/

/-- Reading a byte after a string of bytes was combined into the data. -/
theorem read_streamBytes (op : DataOp) (m : Memory) (lo a : Nat) (ks : List Byte) :
    (streamBytes op m lo ks).read a
      = if lo ≤ a ∧ a < lo + ks.length then combine op (m.read a) (ks.getD (a - lo) 0) else m.read a := by
  split
  next h =>
    obtain ⟨i, rfl⟩ := Nat.exists_eq_add_of_le h.1
    have hi : i < ks.length := by omega
    rw [Nat.add_sub_cancel_left, List.getD_eq_getElem _ _ hi]
    exact read_streamBytes_inside op ks m lo i hi
  next h =>
    rcases Nat.lt_or_ge a lo with hlt | hge
    · exact read_streamBytes_below _ _ _ hlt
    · exact read_streamBytes_above _ _ _ (by omega)

/-- Byte `j` of the blocks of GEN and GENX is byte `j mod 64` of block `j div 64`, whose counter wraps. -/
theorem getD_genBlocks (fam : Family) (w : CtrWidth) (rc : Nat) (x : Words) (cb : Nat) {n j : Nat}
    (h : j < 64 * n) : (genBlocks fam w rc x cb n).getD j 0
      = keystreamByte fam w rc x (64 * ((cb + j / 64) % 2 ^ widthBits w) + j % 64) := by
  have hpos : 64 * (cb + j / 64) + j % 64 = 64 * cb + j := by omega
  rw [keystreamByte_mod, hpos, List.getD_eq_getElem _ _ (by rwa [genBlocks_length])]
  simp only [genBlocks_eq_ksBytes, getElem_ksBytes]

theorem combine_xor_twice (old k : Byte) : combine .xor (combine .xor old k) k = old := by
  rw [combine, combine, BitVec.xor_assoc, BitVec.xor_self, BitVec.xor_zero]

/-- The same bytes XORed into a region twice restore the data. -/
theorem read_streamBytes_xor_twice (m : Memory) (lo a : Nat) (ks : List Byte) :
    (streamBytes .xor (streamBytes .xor m lo ks) lo ks).read a = m.read a := by
  rw [read_streamBytes, read_streamBytes]
  split_ifs
  · exact combine_xor_twice _ _
  · rfl

/-- GENX combines its blocks into the data and writes nothing else. -/
theorem exec_genx {s : State} {fam : Family} {pol : Policy} {rnd : BitVec 2} {r : Rounds} {bsel : BitVec 3}
    {nblk : BitVec 8} {x : Words} {cb addr : DWord} (hf : s.fault = false)
    (hl : operandsLegal (.genx fam pol rnd bsel nblk x cb addr) s.caps = true)
    (hr : roundsOf rnd = some r) (htop : addr.toNat + 64 * nblk.toNat ≤ 2 ^ 64) :
    exec (.genx fam pol rnd bsel nblk x cb addr) s = .next { s with
      mem := streamBytes .xor s.mem addr.toNat
        (genBlocks fam (ctrWidth fam pol) (roundCount r) x cb.toNat nblk.toNat)
      resp := [0x00000000] } := by
  have hp : pastTheTop (.genx fam pol rnd bsel nblk x cb addr) = false :=
    decide_eq_false (Nat.not_lt.2 htop)
  rw [exec_of_no_error (errorOf_pure rfl hl hf hp), bodyOf, fieldRounds_of_roundsOf hr, respond_nil]

/-! ### The obligations -/

/-- Settles O28: QR answers the quarter-round's words, which are R134's operations on the four selected ones and
the old words elsewhere. -/
theorem qrSalsaQuarterRound : Obligations.QrSalsaQuarterRound := by
  intro s a b c d x hf hd b1 c1 d1 a1
  obtain ⟨ha, hb, hc, hd1⟩ := qrs_selected x hd
  exact ⟨qrs x a b c d, exec_pure_words rfl hd hf rfl rfl, ha, hb, hc, hd1, fun _ => qrs_other x⟩

/-- Settles O29: the two passes of a double-round are R135's groups in their order. -/
theorem droundIsEightQuarterRounds : Obligations.DroundIsEightQuarterRounds := by
  intro s x hf
  exact ⟨exec_pure_words rfl rfl hf rfl rfl, exec_pure_words rfl rfl hf rfl rfl⟩

/-- Settles O31: each operation of a quarter-round replaces one word by a bijective function of it. -/
theorem roundsAreInvertible : Obligations.RoundsAreInvertible :=
  ⟨fun fam _ _ _ _ h => quarter_bijective h fam, doubleRound_bijective,
    fun fam _ n x h => permNF_add fam n x h⟩

/-- Settles O32: the words of the key and the input are their packet words, and the answer is the derived words. -/
theorem hderiveTakesEightWords : Obligations.HderiveTakesEightWords := by
  intro s fam rnd r key inp hf hr k n x w
  have hk (i : Nat) (h : i < 8) : wordLE key.toList i = k i := wordLE_eq_packBytes _ _ (by simp; omega)
  have hn (i : Nat) (h : i < 4) : wordLE inp.toList i = n i := wordLE_eq_packBytes _ _ (by simp; omega)
  have hx : hState fam key.toList inp.toList = x := by
    cases fam <;>
      simp only [hState, hk 0, hk 1, hk 2, hk 3, hk 4, hk 5, hk 6, hk 7, hn 0, hn 1, hn 2, hn 3,
        Nat.reduceLT] <;> rfl
  rw [exec_hderive hf hr, hx, permNF_eq_iterate]
  cases fam <;> rfl

/-- Settles O33: the block length is 64. -/
theorem bsizeAnswers64 : Obligations.BsizeAnswers64 := by
  intro s hf
  rw [exec_pure rfl rfl hf rfl, bodyOf, respond_natBytes4]
  rfl

/-- Settles O36: a byte of the region is XORed with its byte of the blocks, and a second time with the same byte,
since neither the check nor the blocks depend on the data. -/
theorem genxXorsTheBlocks : Obligations.GenxXorsTheBlocks := by
  intro s fam pol rnd r bsel nblk x cb addr hf hl hr htop w
  have hexec (m : Memory) (rsp : List Word) := exec_genx (s := { s with mem := m, resp := rsp }) hf hl hr htop
  refine ⟨_, _, hexec s.mem s.resp, rfl, fun a => ?_, hexec _ _, fun a => read_streamBytes_xor_twice ..⟩
  rw [read_streamBytes, genBlocks_length]
  split_ifs
  · rw [getD_genBlocks _ _ _ _ _ (by omega)]
    rfl
  · rfl

end Sys2Proof.Machine
end

section
/-! PROOFS of the obligations about the construction of an engine (43_stream_engine.md R211;
44_variant_subkey.md R255, R256): the state INIT leaves, then its words layout by layout. -/

namespace Sys2Proof.Machine

open Safety

/-- INIT with legal fields and the right lengths constructs the engine and writes nothing else. -/
theorem exec_init {s : State} {fam : Family} {pol : Policy} {rnd : BitVec 2} {r : Rounds} {bsel : BitVec 3}
    {key nonce : List Byte} (hf : s.fault = false) (hv : legalVariant fam pol = true)
    (hr : roundsOf rnd = some r) (hb : bsel.toNat < 6) (hk : key.length = 32)
    (hn : nonce.length = nonceBytes pol) :
    exec (.init fam pol rnd bsel key nonce) s = .next { s with
      words := initialWords fam pol (roundCount r) key nonce
      off := 0
      fam := fam
      pol := pol
      rnd := r
      backend := select bsel s.caps
      inited := true
      err := .ok
      resp := [0x00000000] } := by
  rw [exec_of_no_error (errorOf_init hf hv hr hb hk hn), bodyOf, fieldRounds_of_roundsOf hr, respond_nil]
  rfl

/-- The state words that HDERIVE's answer makes of an extended nonce (44_variant_subkey.md R255, R256). -/
theorem initialWords_extended (fam : Family) (rc : Nat) (key head tail : List Byte) (h : head.length = 16) :
    initialWords fam .extended rc key (head ++ tail) = match fam with
      | .chacha => initialWords .chacha .standard rc (hDerive .chacha rc key head) ([0, 0, 0, 0] ++ tail)
      | .salsa => initialWords .salsa .legacy rc (hDerive .salsa rc key head) tail := by
  have htake : (head ++ tail).take 16 = head := by rw [← h, List.take_left]
  have hdrop : (head ++ tail).drop 16 = tail := by rw [← h, List.drop_left]
  cases fam <;> simp only [initialWords, htake, hdrop]

theorem hOutput_length (fam : Family) (w : Words) : (hOutput fam w).length = 8 := by cases fam <;> rfl

theorem hDerive_length (fam : Family) (rc : Nat) (key inp : List Byte) :
    (hDerive fam rc key inp).length = 32 := by
  rw [hDerive, length_flatMap_bytesLE, hOutput_length]

/-! ### The obligations -/

/-- Settles O37: the layouts of the four base variants name the packet's key and nonce words. -/
theorem initBuildsTheEngine : Obligations.InitBuildsTheEngine := by
  intro s fam pol rnd r bsel key nonce hf hv hr hb hkl hnl k n
  have hk (i : Nat) (h : i < 8) : wordLE key i = k i := wordLE_eq_packBytes _ _ (by omega)
  have hn (i : Nat) (h : 4 * i < nonceBytes pol) : wordLE nonce i = n i :=
    wordLE_eq_packBytes _ _ (by omega)
  refine ⟨_, exec_init hf hv hr hb hkl hnl, ?_⟩
  cases fam <;> cases pol
  case chacha.standard | chacha.rng =>
    simp (disch := decide) only [initialWords, buildStandard, hk, hn]
    rfl
  case chacha.legacy =>
    simp (disch := decide) only [initialWords, buildLegacy, hk, hn]
    rfl
  case salsa.legacy =>
    simp (disch := decide) only [initialWords, buildSalsa, hk, hn]
    rfl
  all_goals trivial

/-- Settles O38: the extended layouts are the base ones under the derived key. -/
theorem extendedNonceUsesTheSubkey : Obligations.ExtendedNonceUsesTheSubkey := by
  intro s fam rnd bsel key head tail hf hsome hb
  obtain ⟨r, hr⟩ := Option.isSome_iff_exists.1 hsome
  have hlen := hDerive_length fam (roundCount r) key.toList head.toList
  have hsub : packBytes (hDerive fam (roundCount r) key.toList head.toList)
      = hOutput fam (permNF fam (roundCount r) (hState fam key.toList head.toList)) := by
    rw [hDerive, packBytes_flatMap_bytesLE]
  have hv : legalVariant fam .extended = true := by cases fam <;> rfl
  have hext := exec_init (key := key.toList) (nonce := head.toList ++ tail.toList) hf hv hr hb (by simp)
    (by simp [nonceBytes])
  rw [initialWords_extended fam _ _ _ _ (by simp)] at hext
  cases fam
  all_goals exact ⟨_, _, hlen, hsub ▸ exec_hderive hf hr, hext,
    exec_init hf rfl hr hb hlen (by simp [nonceBytes])⟩

end Sys2Proof.Machine
end

section
/-! PROOFS of the obligations about the stream engine (43_stream_engine.md R213 to R227; 10_state.md R31). First the
position as block index and byte of it; then what APPLY, TRYAPPLY and SEEK leave; then the obligations. -/

namespace Sys2Proof.Machine

open Safety

/-! ### The position (10_state.md R31) -/

section
variable (s : State)

theorem State.pos_div : s.pos / 64 = s.blockIndex := by
  have h := s.off.isLt
  rw [State.pos]
  omega

theorem State.pos_mod : s.pos % 64 = s.off.toNat := by
  have h := s.off.isLt
  rw [State.pos]
  omega

end

/-- A cipher engine with a valid buffer: the counter is past the buffered block, or at the block to come. -/
theorem State.ctr_eq_blockIndex {s : State} (h : s.off ≠ 0 → 1 ≤ s.ctr) :
    s.ctr = if s.off = 0 then s.blockIndex else s.blockIndex + 1 := by
  split_ifs with h0
  · rw [State.blockIndex_of_eq h0]
  · have hpos := h h0
    have hlt := s.ctr_lt
    rw [State.blockIndex_of_ne h0, show s.ctr + 2 ^ widthBits s.width - 1
      = s.ctr - 1 + 2 ^ widthBits s.width by omega, Nat.add_mod_right, Nat.mod_eq_of_lt (by omega)]
    omega

/-- The block and the byte that a move goes to. -/
theorem State.blockIndex_moveTo (s : State) (b : Nat) {r : Nat} (hr : r < 64) :
    (s.moveTo b r).blockIndex = b % 2 ^ widthBits s.width := by
  have hoff : (s.moveTo b r).off = 0 ↔ r = 0 := by
    rw [State.moveTo_off, ← off_toNat_eq_zero, BitVec.toNat_ofNat, Nat.mod_eq_of_lt hr]
  have hctr := State.moveTo_ctr s b r
  by_cases h : r = 0
  · rw [State.blockIndex_of_eq (hoff.2 h), hctr, if_pos h]
  · rw [State.blockIndex_of_ne (mt hoff.1 h), hctr, if_neg h, State.width_moveTo,
      mod_pred _ (two_pow_width_pos _), Nat.add_right_comm, Nat.add_sub_cancel, Nat.add_mod_right]

theorem State.pos_moveTo (s : State) (b : Nat) {r : Nat} (hr : r < 64) :
    (s.moveTo b r).pos = 64 * (b % 2 ^ widthBits s.width) + r := by
  rw [State.pos, State.blockIndex_moveTo s b hr, State.moveTo_off, BitVec.toNat_ofNat,
    Nat.mod_eq_of_lt hr]

/-- The counter words of each layout after a write of the counter (10_state.md R25). -/
theorem counterWords_withCounter (fam : Family) (pol : Policy) (ctr : Nat) (x : Words) :
    let c := BitVec.ofNat 64 ctr
    let y := withCounter fam (ctrWidth fam pol) ctr x
    match fam, pol with
    | .chacha, .legacy => y[12] = c.extractLsb' 0 32 ∧ y[13] = c.extractLsb' 32 32
    | .chacha, _ => y[12] = c.extractLsb' 0 32
    | .salsa, _ => y[8] = c.extractLsb' 0 32 ∧ y[9] = c.extractLsb' 32 32 := by
  intro c y
  have hy : y = _ := withCounter_halves fam pol ctr x
  cases fam <;> cases pol <;> simp [hy, c]

theorem State.moveTo_frame (s : State) (b r : Nat) : s.moveTo b r = { s with
    words := (s.moveTo b r).words
    buf := (s.moveTo b r).buf
    off := (s.moveTo b r).off } := by
  rw [State.moveTo_eq]

/-- A move to another engine's position, the words alike but for the counter, gives its words. -/
theorem State.moveTo_words_of_position {s t : State} (hf : t.fam = s.fam) (hw : t.width = s.width)
    (h : withCounter s.fam s.width s.ctr t.words = s.words) :
    (t.moveTo s.blockIndex s.off.toNat).words = s.words := by
  have hpos := two_pow_width_pos s.width
  rw [State.moveTo_words, hf, hw]
  by_cases h0 : s.off = 0
  · rw [if_pos (off_toNat_eq_zero.2 h0), State.blockIndex_of_eq h0, h]
  · rw [if_neg (mt off_toNat_eq_zero.1 h0), State.blockIndex_of_ne h0, Nat.mod_mod, ← withCounter_mod,
      pred_add_one _ _ hpos, withCounter_mod, h]

/-- And its offset. -/
theorem State.moveTo_off_of_position (s t : State) : (t.moveTo s.blockIndex s.off.toNat).off = s.off := by
  rw [State.moveTo_off, BitVec.ofNat_toNat, BitVec.setWidth_eq]

theorem State.blockIndex_lt (s : State) : s.blockIndex < 2 ^ widthBits s.width := by
  by_cases h : s.off = 0
  · rw [State.blockIndex_of_eq h]
    exact s.ctr_lt
  · rw [State.blockIndex_of_ne h]
    exact Nat.mod_lt _ (two_pow_width_pos _)

/-! ### The offset and the counter after a region command (43_stream_engine.md R213, R215) -/

theorem need_of_empty {s : State} {n : Nat} (h : s.off = 0) : need s.avail n = (n + 63) / 64 := by
  rw [State.avail_of_eq h, need]
  split <;> omega

theorem need_of_inside {s : State} {n : Nat} (h : s.off ≠ 0) (hn : n < 64 - s.off.toNat) :
    need s.avail n = 0 := by
  rw [State.avail_of_ne h, need, if_pos hn.le]

theorem need_of_partial {s : State} {n : Nat} (h : s.off ≠ 0) (hn : 64 - s.off.toNat ≤ n) :
    need s.avail n = (n - (64 - s.off.toNat) + 63) / 64 := by
  rw [State.avail_of_ne h, need]
  split <;> omega

theorem toNat_applyCore_off (s : State) (op : DataOp) (a n : Nat) :
    (s.applyCore op a n).off.toNat = (s.off.toNat + n) % 64 := by
  rw [State.applyCore_off, BitVec.toNat_ofNat]

/-! ### Commands that run -/

section
variable {s : State} {addr len : DWord} (hc : CipherReady s) (hr : addr.toNat + len.toNat ≤ 2 ^ 64)
  (hx : wouldExhaust s len.toNat = false)
include hc hr hx

/-- APPLY on a ready engine, with no exhaustion. -/
theorem exec_apply :
    exec (.apply addr len) s = .next ((s.applyCore .xor addr.toNat len.toNat).respond []) :=
  exec_of_no_error (by rw [errorOf_apply hc hr, hx]; rfl)

/-- TRYAPPLY does the same. -/
theorem exec_tryApply :
    exec (.tryApply addr len) s = .next ((s.applyCore .xor addr.toNat len.toNat).respond []) :=
  exec_of_no_error (by rw [errorOf_tryApply hc hr, hx]; rfl)

end

/-- SEEK on a ready engine, to a position in range. -/
theorem exec_seek {s : State} {v : QWord} (hc : CipherReady s) (hv : v.toNat < 2 ^ 64)
    (hx : seekPast s v.toNat = false) :
    exec (.seek v) s = .next ((s.moveTo (v.toNat / 64) (v.toNat % 64)).respond []) :=
  exec_of_no_error (by rw [errorOf_seek hc, if_neg (Nat.not_le.2 hv), hx]; rfl)

/-- GETPOS on a ready engine. -/
theorem exec_getPos {s : State} (hc : CipherReady s) :
    exec .getPos s = .next { s with resp := 0x00001000 :: qwordWords (BitVec.ofNat 128 s.pos) } := by
  obtain ⟨hf, hi, hp⟩ := hc
  have hnone : errorOf .getPos s = none := by
    simp [errorOf, operandsLegal, Instr.legal, kind, wrongMode, badLength, exhausts, hf, hi, hp,
      pastTheTop_of_no_region .getPos rfl]
  rw [exec_of_no_error hnone, bodyOf, respond_natBytes16]

/-- A region of no bytes exhausts nothing (43_stream_engine.md R216). -/
theorem wouldExhaust_zero (s : State) : wouldExhaust s 0 = false :=
  wouldExhaust_eq_false.2 s.ctr_lt

/-- SEEK's check reads the counter's width only. -/
theorem seekPast_congr {s t : State} (h : t.width = s.width) {n : Nat} : seekPast t n = seekPast s n := by
  rw [seekPast, h, seekPast]

/-- The position of a cipher engine with a valid buffer is in SEEK's range. -/
theorem seekPast_pos {s : State} (h : s.off ≠ 0 → 1 ≤ s.ctr) : seekPast s s.pos = false := by
  have hctr := State.ctr_eq_blockIndex h
  have hlt := s.ctr_lt
  have hbi := s.blockIndex_lt
  rw [Bool.eq_false_iff, ne_eq, seekPast_eq_true, State.pos_div, State.pos_mod]
  by_cases h0 : s.off = 0
  · rw [off_toNat_eq_zero.2 h0]
    omega
  · rw [if_neg h0] at hctr
    omega

/-- A move to a position does not look at the response. -/
theorem respond_moveTo_respond (s : State) (b r : Nat) :
    ((s.respond []).moveTo b r).respond [] = (s.moveTo b r).respond [] := by
  rw [State.moveTo_eq, State.moveTo_eq]
  rfl

/-! ### A region in two parts (43_stream_engine.md R227(c)) -/

section
variable {s : State} {op : DataOp} {a m n : Nat}

/-- The body of a region command does not look at the response. -/
theorem respond_applyCore_respond (s : State) (op : DataOp) (a n : Nat) :
    ((s.respond []).applyCore op a n).respond [] = (s.applyCore op a n).respond [] := by
  rw [State.applyCore_eq, State.applyCore_eq]
  rfl

theorem need_applyCore (s : State) (op : DataOp) (a m n : Nat) :
    need s.avail (m + n) = need s.avail m + need (s.applyCore op a m).avail n :=
  need_applyCore_add s m n op a

/-- The words and the offset after two commands are those after one. -/
theorem applyCore_applyCore_frame (b : Nat) :
    (s.applyCore op a m).applyCore op b n = { s.applyCore op a (m + n) with
      buf := ((s.applyCore op a m).applyCore op b n).buf
      mem := ((s.applyCore op a m).applyCore op b n).mem } := by
  have hwords : ((s.applyCore op a m).applyCore op b n).words = (s.applyCore op a (m + n)).words := by
    rw [State.applyCore_words, State.applyCore_ctr, State.applyCore_words, State.applyCore_fam,
      State.width_applyCore, withCounter_withCounter, ← withCounter_mod, Nat.mod_add_mod,
      withCounter_mod, State.applyCore_words, need_applyCore s op a m n, Nat.add_assoc]
  have hoff : ((s.applyCore op a m).applyCore op b n).off = (s.applyCore op a (m + n)).off := by
    apply BitVec.eq_of_toNat_eq
    rw [toNat_applyCore_off, toNat_applyCore_off, toNat_applyCore_off]
    omega
  rw [State.applyCore_frame (s.applyCore op a m), State.applyCore_frame s op a (m + n), hwords, hoff]
  simp

/-- No exhaustion by the whole region is none by its first part. -/
theorem wouldExhaust_left (hx : wouldExhaust s (m + n) = false) : wouldExhaust s m = false := by
  have hlt := lt_of_not_wouldExhaust hx
  rw [need_applyCore s .xor 0 m n] at hlt
  exact wouldExhaust_eq_false.2 (by omega)

/-- Nor by the second part after it. -/
theorem wouldExhaust_applyCore (hx : wouldExhaust s (m + n) = false) :
    wouldExhaust (s.applyCore op a m) n = false := by
  have hlt := lt_of_not_wouldExhaust hx
  rw [need_applyCore s op a m n] at hlt
  rw [wouldExhaust_eq_false, State.applyCore_ctr, State.width_applyCore, Nat.mod_eq_of_lt (by omega)]
  omega

/-- The data after two commands on neighbouring regions are those after one. -/
theorem applyCore_applyCore_mem (hb : BufferValid s) (hi : s.inited = true) (hp : s.pol ≠ .rng)
    (hx : wouldExhaust s m = false) :
    ((s.applyCore op a m).applyCore op (a + m) n).mem = (s.applyCore op a (m + n)).mem := by
  have hb1 : BufferValid (s.applyCore op a m) := bufferValid_applyCore hb hi fun _ => hx
  have hi1 : (s.applyCore op a m).inited = true := (State.applyCore_inited s op a m).trans hi
  have hpos := applyCore_position s op a m (fun h => (hb hi h).2) hp (lt_of_not_wouldExhaust hx)
  rw [State.applyCore_mem _ _ _ _ (bufferValid_block hb1 hi1), hpos, State.applyCore_ks,
    State.applyCore_mem _ _ _ _ (bufferValid_block hb hi), State.applyCore_mem _ _ _ _ (bufferValid_block hb hi),
    State.ks_append, streamBytes_append, State.ks_length]

end

/-- A valid buffer that is not stale is known from the rest of the engine. -/
theorem buf_eq_of_bufferValid {s t : State} (hs : BufferValid s) (ht : BufferValid t)
    (hi : s.inited = true) (hti : t.inited = true) (hoff : s.off ≠ 0) (ho : t.off = s.off)
    (hf : t.fam = s.fam) (hw : t.width = s.width) (hr : t.rnd = s.rnd) (hx : t.words = s.words) :
    t.buf = s.buf := by
  rw [(hs hi hoff).1, (ht hti (ho ▸ hoff)).1, State.ctr, State.ctr, hf, hw, hr, hx]

/-- A move back to the position before a region command undoes it but for the buffer and the data. -/
theorem applyCore_moveTo_back (s : State) (op : DataOp) (a n : Nat) :
    (s.applyCore op a n).moveTo s.blockIndex s.off.toNat = { s with
      buf := ((s.applyCore op a n).moveTo s.blockIndex s.off.toNat).buf
      mem := (s.applyCore op a n).mem } := by
  have hwords : ((s.applyCore op a n).moveTo s.blockIndex s.off.toNat).words = s.words := by
    refine State.moveTo_words_of_position (by simp) (by simp) ?_
    rw [State.applyCore_words, withCounter_withCounter]
    exact withCounter_counterOf _ _ _
  have hoff := State.moveTo_off_of_position s (s.applyCore op a n)
  rw [State.moveTo_frame, hwords, hoff]
  simp

/-! ### The obligations -/

/-- Settles O39: the data by `State.applyCore_mem`, the position by `applyCore_position`. -/
theorem applyXorsTheKeystream : Obligations.ApplyXorsTheKeystream := by
  intro s addr len hc hb hr hx
  have hvalid := bufferValid_block hb hc.2.1
  have hlt := lt_of_not_wouldExhaust hx
  refine ⟨_, exec_apply hc hr hx, exec_tryApply hc hr hx, applyCore_respond _ _ _ _, fun k hk => ?_,
    fun a => ?_, ?_⟩
  · rw [State.respond_words, State.applyCore_words]
    exact withCounter_other_of s _ _ k hk
  · rw [State.respond_mem, State.applyCore_mem _ _ _ _ hvalid, read_streamBytes_ks]
    rfl
  · exact applyCore_position s _ _ _ (fun h => (hb hc.2.1 h).2) hc.2.2 hlt

/-- Settles O40: the spec's rows are the branches of `need`, split at the offset and at the end of the block. -/
theorem applyMovesOffsetAndCounter : Obligations.ApplyMovesOffsetAndCounter := by
  intro s addr len hc hr hx n tail
  refine ⟨_, exec_apply hc hr hx, exec_tryApply hc hr hx, ?_⟩
  have hctr : ((s.applyCore .xor addr.toNat n).respond []).ctr = s.ctr + need s.avail n :=
    (State.applyCore_ctr s .xor addr.toNat n).trans (Nat.mod_eq_of_lt (lt_of_not_wouldExhaust hx))
  have hbuf := applyCore_buf_eq s .xor addr.toNat n
  have hoff := toNat_applyCore_off s .xor addr.toNat n
  have hzero := off_toNat_eq_zero (o := (s.applyCore .xor addr.toNat n).off)
  have hlt := s.off.isLt
  rw [hctr, State.respond_off, State.respond_buf]
  by_cases h0 : s.off = 0
  · rw [if_pos h0, need_of_empty h0]
    rw [off_toNat_eq_zero.2 h0] at hoff
    rw [State.avail_of_eq h0] at hbuf
    by_cases hn : n % 64 = 0
    · rw [if_pos hn]
      exact ⟨hzero.1 (by omega), by omega, by rw [hbuf, if_pos (by omega)]⟩
    · rw [if_neg hn]
      exact ⟨hoff.trans (by rw [Nat.zero_add]), rfl⟩
  · have htail : tail = 64 - s.off.toNat := rfl
    rw [if_neg h0]
    rw [State.avail_of_ne h0] at hbuf
    by_cases hn : n < tail
    · rw [if_pos hn, need_of_inside h0 hn]
      exact ⟨hoff.trans (by omega), rfl, by rw [hbuf, if_pos (by omega)]⟩
    · rw [if_neg hn, need_of_partial h0 (Nat.not_lt.1 hn)]
      by_cases hend : (n - tail) % 64 = 0
      · rw [if_pos hend]
        exact ⟨hzero.1 (by omega), by omega, by rw [hbuf, if_pos (by omega)]⟩
      · rw [if_neg hend]
        exact ⟨hoff.trans (by omega), rfl⟩

/-- Settles O41: the body over no bytes is the identity (`applyCore_zero`). -/
theorem emptyRegionChangesNothing : Obligations.EmptyRegionChangesNothing := by
  intro s addr
  have hr : addr.toNat + (0 : DWord).toNat ≤ 2 ^ 64 := addr.isLt.le
  have hbody (op : DataOp) : (s.applyCore op addr.toNat (0 : DWord).toNat).respond []
      = { s with resp := [0x00000000] } := by
    rw [respond_nil]
    exact congrArg (fun r : State => { r with resp := [0] }) (applyCore_zero s op addr.toNat)
  refine ⟨fun hc => ⟨?_, ?_⟩, fun hc => ?_⟩
  · rw [exec_apply hc hr (wouldExhaust_zero s), hbody]
  · rw [exec_tryApply hc hr (wouldExhaust_zero s), hbody]
  · rw [exec_of_no_error (errorOf_rngFill hc hr), bodyOf, hbody]

/-- Settles O47: no check applies to ZEROIZE, so its body runs in every state. -/
theorem zeroizeClearsTheEngine : Obligations.ZeroizeClearsTheEngine := by
  intro s
  rw [exec_of_no_error (errorOf_of_always rfl s), bodyOf, respond_nil]
  rfl

/-- Settles O42: two calls of `State.applyCore` on neighbouring regions are one on both; the buffer then follows
from its validity. -/
theorem applyInChunksIsApplyAtOnce : Obligations.ApplyInChunksIsApplyAtOnce := by
  intro s addr m n hc hb hr hlen hx
  have hi := hc.2.1
  have hsum : (m + n).toNat = m.toNat + n.toNat := by rw [BitVec.toNat_add, Nat.mod_eq_of_lt hlen]
  have haddr : (addr + m).toNat = (addr.toNat + m.toNat) % 2 ^ 64 := BitVec.toNat_add addr m
  have hxm := wouldExhaust_left hx
  have hxn : wouldExhaust (s.applyCore .xor addr.toNat m.toNat) n.toNat = false := wouldExhaust_applyCore hx
  have hc1 : CipherReady ((s.applyCore .xor addr.toNat m.toNat).respond []) := by
    simpa [CipherReady] using hc
  have ht := exec_apply (addr := addr) (len := m) hc (by omega) hxm
  have hu := exec_apply (addr := addr + m) (len := n) hc1 (by omega) hxn
  have hv := exec_apply (addr := addr) (len := m + n) hc (by omega) (by rwa [hsum])
  rw [respond_applyCore_respond] at hu
  rw [hsum] at hv
  have hframe := congrArg (State.respond · [])
    (applyCore_applyCore_frame (s := s) (op := .xor) (a := addr.toNat) (m := m.toNat) (n := n.toNat)
      (addr + m).toNat)
  have hb1 := bufferValid_applyCore (op := .xor) (a := addr.toNat) hb hi fun _ => hxm
  have hbu := bufferValid_applyCore (op := .xor) (a := (addr + m).toNat) hb1
    ((State.applyCore_inited ..).trans hi) fun _ => hxn
  have hbv := bufferValid_applyCore (op := .xor) (a := addr.toNat) hb hi fun _ => hx
  have hmem : ((s.applyCore .xor addr.toNat m.toNat).applyCore .xor (addr + m).toNat n.toNat).mem
      = (s.applyCore .xor addr.toNat (m.toNat + n.toNat)).mem := by
    by_cases hn : n.toNat = 0
    · rw [hn, applyCore_zero, Nat.add_zero]
    · rw [haddr, Nat.mod_eq_of_lt (by omega)]
      exact applyCore_applyCore_mem hb hi hc.2.2 hxm
  refine ⟨_, _, _, ht, hu, hv, hframe, fun hoff => ?_, fun a => congrArg (Memory.read · a) hmem⟩
  exact buf_eq_of_bufferValid hbv hbu (by simp [hi]) (by simp [hi]) hoff
    (congrArg State.off hframe :) (congrArg State.fam hframe :) (congrArg State.width hframe :)
    (congrArg State.rnd hframe :) (congrArg State.words hframe :)

/-- Settles O44, along the order of the two checks; in range `State.moveTo` gives the state. -/
theorem seekGoesToThePosition : Obligations.SeekGoesToThePosition := by
  intro s v hc b r ctrMax
  have hf := hc.1
  by_cases h1 : 2 ^ 64 ≤ v.toNat
  · have he : errorOf (.seek v) s = some .illegalCommand := by rw [errorOf_seek hc, if_pos h1]
    rw [if_pos h1]
    exact exec_ordinary he (by decide) hf
  rw [if_neg h1]
  by_cases h2 : ctrMax < b ∨ r ≠ 0 ∧ ctrMax < b + 1
  · have he : errorOf (.seek v) s = some .counterExhausted := by
      rw [errorOf_seek hc, if_neg h1, if_pos (seekPast_eq_true.2 h2)]
    rw [if_pos h2]
    exact exec_recoverable he rfl hf
  rw [if_neg h2]
  intro ctr c
  have hx : seekPast s v.toNat = false := Bool.eq_false_iff.2 fun h => h2 (seekPast_eq_true.1 h)
  obtain ⟨hb, hb1⟩ : b < 2 ^ widthBits s.width ∧ (r ≠ 0 → b + 1 < 2 ^ widthBits s.width) :=
    lt_of_not_seekPast hx
  have hctr : (if r = 0 then b else b + 1) < 2 ^ widthBits s.width := by
    split_ifs with h0
    · exact hb
    · exact hb1 h0
  have hwords : (s.moveTo b r).words = withCounter s.fam s.width ctr s.words := by
    rw [State.moveTo_words, Nat.mod_eq_of_lt hb]
  refine ⟨_, exec_seek hc (Nat.not_le.1 h1) hx, ?_, ?_, ?_, fun k hk => ?_, State.moveTo_buf s b r⟩
  · rw [respond_nil, State.moveTo_eq]
  · exact (State.moveTo_ctr s b r).trans (Nat.mod_eq_of_lt hctr)
  · have hcw := counterWords_withCounter s.fam s.pol ctr s.words
    rw [← State.width, ← hwords] at hcw
    exact hcw
  · exact moveTo_other s b r k hk

/-- Settles O43: SEEK back restores the position, so both calls XOR the same stream. -/
theorem applyTwiceRestoresTheData : Obligations.ApplyTwiceRestoresTheData := by
  intro s addr len hc hb hr hx hpos
  have hi := hc.2.1
  have hct : CipherReady ((s.applyCore .xor addr.toNat len.toNat).respond []) := by
    simpa [CipherReady] using hc
  have hv128 : (BitVec.ofNat 128 s.pos).toNat = s.pos := by
    rw [BitVec.toNat_ofNat, Nat.mod_eq_of_lt (by omega)]
  have hpast : seekPast (s.applyCore .xor addr.toNat len.toNat) s.pos = false := by
    rw [seekPast_congr (State.width_applyCore ..)]
    exact seekPast_pos fun h => (hb hi h).2 hc.2.2
  have ht := exec_apply hc hr hx
  have hu := exec_seek (v := BitVec.ofNat 128 s.pos) hct (by rwa [hv128]) (by rw [hv128]; exact hpast)
  rw [hv128, State.pos_div, State.pos_mod, respond_moveTo_respond, applyCore_moveTo_back] at hu
  have hbu := exec_keeps_bufferValid _ _ _ hu (exec_keeps_bufferValid _ _ _ ht hb)
  have hv := exec_apply (s := State.respond { s with
    buf := ((s.applyCore .xor addr.toNat len.toNat).moveTo s.blockIndex s.off.toNat).buf
    mem := (s.applyCore .xor addr.toNat len.toNat).mem } []) hc hr hx
  refine ⟨_, _, _, ht, hu, hv, rfl, rfl, rfl, fun a => ?_, ?_, ?_⟩
  · rw [State.respond_mem, State.applyCore_mem _ _ _ _ (bufferValid_block hbu hi), State.respond_mem,
      State.applyCore_mem _ _ _ _ (bufferValid_block hb hi)]
    exact read_streamBytes_xor_twice ..
  · exact (State.applyCore_ctr ..).trans (State.applyCore_ctr s ..).symm
  · exact (State.applyCore_off ..).trans (State.applyCore_off s ..).symm

/-- Settles O45: the position after a move is the operand, whose block is in the counter's range. -/
theorem getposAnswersThePosition : Obligations.GetposAnswersThePosition := by
  refine ⟨?_, ?_⟩
  · intro s hc pos
    rw [exec_getPos hc, pos_cases]
  · intro s v hc hv hx
    have hpos := State.pos_moveTo s (v.toNat / 64) (Nat.mod_lt v.toNat (by decide : 0 < 64))
    have hready : CipherReady ((s.moveTo (v.toNat / 64) (v.toNat % 64)).respond []) := by
      simpa [CipherReady] using hc
    have hv128 : ((s.moveTo (v.toNat / 64) (v.toNat % 64)).respond []).pos = v.toNat := by
      rw [Nat.mod_eq_of_lt (lt_of_not_seekPast hx).1, Nat.div_add_mod] at hpos
      exact hpos
    refine ⟨_, exec_seek hc hv hx, ?_⟩
    rw [exec_getPos hready, hv128, BitVec.ofNat_toNat, BitVec.setWidth_eq]

end Sys2Proof.Machine
end

section
/-! PROOFS of the obligations about the RNG adapter (45_rng_adapter.md R274 to R281). First the position modulo
the counter's range, which a region command advances; then what each command leaves; then the obligations. -/

namespace Sys2Proof.Machine

open Safety

/-! ### The position modulo the counter's range -/

theorem State.pos_lt (s : State) : s.pos < 64 * 2 ^ widthBits s.width := by
  have hb := s.blockIndex_lt
  have ho := s.off.isLt
  rw [State.pos]
  omega

/-- The counter is the block after the bytes that are left in the buffer. -/
theorem State.pos_add_avail (s : State) :
    (s.pos + s.avail) % (64 * 2 ^ widthBits s.width) = 64 * s.ctr := by
  by_cases h : s.off = 0
  · rw [State.avail_of_eq h, State.pos, State.blockIndex_of_eq h, off_toNat_eq_zero.2 h, Nat.add_zero,
      Nat.mul_mod_mul_left, Nat.mod_eq_of_lt s.ctr_lt]
  · have ho := s.off.isLt
    have hsum : 64 * s.blockIndex + s.off.toNat + (64 - s.off.toNat) = 64 * (s.blockIndex + 1) := by omega
    rw [State.avail_of_ne h, State.pos, hsum, State.blockIndex_of_ne h, Nat.mul_mod_mul_left,
      Nat.mod_add_mod, Nat.sub_add_cancel (by have := two_pow_width_pos s.width; omega),
      Nat.add_mod_right, Nat.mod_eq_of_lt s.ctr_lt]

/-- The bytes taken and the bytes left are those that were left and those of the new blocks. -/
theorem avail_applyCore_add (s : State) (op : DataOp) (a n : Nat) :
    (s.applyCore op a n).avail + n = s.avail + 64 * need s.avail n := by
  have hend : (s.applyCore op a n).avail = _ := avail_applyCore s op a n
  have hlt := s.off.isLt
  rw [hend]
  by_cases h : s.off = 0
  · rw [State.avail_of_eq h, off_toNat_eq_zero.2 h, need]
    split_ifs <;> omega
  · have h0 := mt off_toNat_eq_zero.1 h
    rw [State.avail_of_ne h, need]
    split_ifs <;> omega

/-- A region command advances the position, which wraps as the counter does. -/
theorem pos_applyCore (s : State) (op : DataOp) (a n : Nat) :
    (s.applyCore op a n).pos = (s.pos + n) % (64 * 2 ^ widthBits s.width) := by
  have hlt := (s.applyCore op a n).pos_lt
  have hleft := (s.applyCore op a n).pos_add_avail
  rw [State.width_applyCore] at hlt hleft
  have hadd : (s.applyCore op a n).pos + (s.applyCore op a n).avail
      ≡ s.pos + n + (s.applyCore op a n).avail [MOD 64 * 2 ^ widthBits s.width] := by
    rw [Nat.add_assoc s.pos, Nat.add_comm n, avail_applyCore_add, ← Nat.add_assoc,
      Nat.ModEq, hleft, State.applyCore_ctr, ← Nat.mul_mod_mul_left, Nat.mul_add, ← s.pos_add_avail,
      Nat.mod_add_mod]
  exact (Nat.mod_eq_of_lt hlt).symm.trans (Nat.ModEq.add_right_cancel' _ hadd)

/-! ### The commands of a ready adapter -/

section
variable {s : State} (hc : RngReady s)
include hc

theorem exec_rngFill {addr len : DWord} (hr : addr.toNat + len.toNat ≤ 2 ^ 64) :
    exec (.rngFill addr len) s = .next ((s.applyCore .store addr.toNat len.toNat).respond []) :=
  exec_of_no_error (errorOf_rngFill hc hr)

theorem exec_rngSetWp (v : QWord) : exec (.rngSetWp v) s = .next ((s.setWordPos v).respond []) :=
  exec_of_no_error (errorOf_rng hc rfl rfl (pastTheTop_of_no_region _ rfl))

theorem exec_rngSetStr {v : QWord} (hv : v.toNat < 2 ^ 96) :
    exec (.rngSetStr v) s = .next ((s.switchStream v).respond []) :=
  exec_of_no_error (errorOf_rng hc rfl (decide_eq_true hv) (pastTheTop_of_no_region _ rfl))

/-- RNGSAVE answers the stream words and the word position (45_rng_adapter.md R280). -/
theorem exec_rngSave :
    exec .rngSave s = .next { s with
      resp := 0x00001c00 :: s.words[13] :: s.words[14] :: s.words[15]
        :: qwordWords (BitVec.ofNat 128 s.wordPos) } := by
  have hnone : errorOf .rngSave s = none := errorOf_rng hc rfl rfl (pastTheTop_of_no_region _ rfl)
  have hid : s.streamId = [s.words[13], s.words[14], s.words[15]].flatMap bytesLE := rfl
  rw [exec_of_no_error hnone, bodyOf, State.respond, hid, packBytes_append, packBytes_natBytes16,
    qwordWords_ofNat, List.length_append, length_flatMap_bytesLE, natBytes_length,
    responseHeader_ok _ (by simp)]
  rfl

/-- RNGLOAD is RNGSETWP on the engine with the record's stream words (45_rng_adapter.md R281). -/
theorem exec_rngLoad (i0 i1 i2 : Word) (wp : QWord) :
    exec (.rngLoad i0 i1 i2 wp) s = .next (((s.setStream i0 i1 i2).setWordPos wp).respond []) :=
  exec_of_no_error (errorOf_rng hc rfl rfl (pastTheTop_of_no_region _ rfl))

end

/-- A move to a word position, as the adapter's commands write it (45_rng_adapter.md R275). -/
theorem rng_setWordPos {s : State} (hc : RngReady s) (hl : ConfigLegal s) (v : QWord) :
    let p := v.toNat % 2 ^ 36
    s.setWordPos v = { s with
      words := s.words.set 12 (BitVec.ofNat 32 (if p % 16 = 0 then p / 16 else p / 16 + 1))
      buf := if p % 16 = 0 then s.buf else blockAt .chacha .w32 (roundCount s.rnd) s.words (p / 16)
      off := BitVec.ofNat 6 (4 * (p % 16)) } := by
  intro p
  rw [State.setWordPos_eq, rng_moveTo hc hl (p / 16) (p % 16) (by omega)]

/-- The word position after it. -/
theorem wordPos_setWordPos {s : State} (hc : RngReady s) (hl : ConfigLegal s) (v : QWord) :
    (s.setWordPos v).wordPos = v.toNat % 2 ^ 36 := by
  have hw := (rng_width hc hl).2
  rw [State.wordPos, State.setWordPos_eq, State.blockIndex_moveTo _ _ (by omega), State.moveTo_off, hw,
    BitVec.toNat_ofNat]
  simp only [widthBits]
  omega

/-- At a word boundary the word position names the block and the offset. -/
theorem rng_wordPos_eq {s : State} (hc : RngReady s) (hl : ConfigLegal s) (hoff : s.off.toNat % 4 = 0) :
    s.wordPos < 2 ^ 36 ∧ s.wordPos / 16 = s.blockIndex ∧ 4 * (s.wordPos % 16) = s.off.toNat := by
  have hb := s.blockIndex_lt
  have ho := s.off.isLt
  rw [(rng_width hc hl).2] at hb
  simp only [widthBits] at hb
  rw [State.wordPos]
  omega

/-! ### A record loaded into another adapter (45_rng_adapter.md R280, R281) -/

section
variable {s r : State} (hc : RngReady s) (hl : ConfigLegal s)
include hc hl

/-- Adapters with one seed differ in the stream words and the counter. -/
theorem rng_words_of_seed (hseed : ∀ k : Fin 16, k.val < 12 → r.words[k] = s.words[k]) :
    withCounter s.fam s.width s.ctr (r.setStream s.words[13] s.words[14] s.words[15]).words = s.words := by
  obtain ⟨hfam, hw⟩ := rng_width hc hl
  rw [rng_ctr hc hl, hfam, hw, withCounter, BitVec.ofNat_toNat, BitVec.setWidth_eq, State.setStream_words]
  apply Vector.ext
  intro k hk
  by_cases h12 : k < 12
  · have hk12 := hseed ⟨k, hk⟩ h12
    rw [Fin.getElem_fin, Fin.getElem_fin] at hk12
    rw [Vector.getElem_set_ne _ _ (by omega), Vector.getElem_set_ne _ _ (by omega),
      Vector.getElem_set_ne _ _ (by omega), Vector.getElem_set_ne _ _ (by omega), hk12]
  · obtain rfl | rfl | rfl | rfl : k = 12 ∨ k = 13 ∨ k = 14 ∨ k = 15 := by omega
    all_goals simp

/-- A record saved at a word boundary names the block and the offset. -/
theorem setWordPos_of_record (hoff : s.off.toNat % 4 = 0) :
    r.setWordPos (BitVec.ofNat 128 s.wordPos) = r.moveTo s.blockIndex s.off.toNat := by
  obtain ⟨hlt, hblock, hbyte⟩ := rng_wordPos_eq hc hl hoff
  have hwp : (BitVec.ofNat 128 s.wordPos).toNat % 2 ^ 36 = s.wordPos := by
    rw [BitVec.toNat_ofNat]
    omega
  rw [State.setWordPos_eq, hwp, hblock, hbyte]

end

/-! ### The obligations -/

/-- Settles O48: the region command without the XOR; the keystream and the position wrap at `2^38` bytes. -/
theorem rngfillWritesTheKeystream : Obligations.RngfillWritesTheKeystream := by
  intro s addr len hc hl hb hr
  obtain ⟨hfam, hw⟩ := rng_width hc hl
  have hrange : 64 * 2 ^ widthBits s.width = 2 ^ 38 := by rw [hw]; rfl
  have hwrap (p : Nat) : keystream s p = keystream s (p % 2 ^ 38) := by
    have h := keystreamByte_mod s.fam s.width (roundCount s.rnd) s.words (p / 64) (p % 64)
    rw [Nat.div_add_mod] at h
    rw [keystream, ← h, ← hrange, Nat.mod_mul, Nat.add_comm]
    rfl
  refine ⟨_, exec_rngFill hc hr, applyCore_respond _ _ _ _, fun k hk => ?_, fun a => ?_, ?_⟩
  · rw [State.respond_words, State.applyCore_words]
    refine withCounter_other_of s _ _ k ?_
    rw [hfam, hc.2.2]
    exact beq_false_of_ne hk
  · rw [State.respond_mem, State.applyCore_mem _ _ _ _ (bufferValid_block hb hc.2.1), read_streamBytes_ks,
      hwrap]
    rfl
  · rw [← hrange]
    exact pos_applyCore s .store addr.toNat len.toNat

/-- Settles O50: the move of `rng_setWordPos`, whose word position is the operand's. -/
theorem rngsetwpGoesToTheWord : Obligations.RngsetwpGoesToTheWord := by
  intro s v hc hl p b j
  have hready : RngReady ((s.setWordPos v).respond []) := by
    simpa [RngReady, State.setWordPos_eq] using hc
  refine ⟨_, exec_rngSetWp hc v, ?_, ?_⟩
  · rw [respond_nil, rng_setWordPos hc hl]
  · rw [exec_rngGetWp hready]
    exact congrArg (fun n => Host.Outcome.next { (s.setWordPos v).respond [] with
      resp := 0x00001000 :: qwordWords (BitVec.ofNat 128 n) }) (wordPos_setWordPos hc hl v)

/-- Settles O51: the answer is four words as bytes. -/
theorem rnggetstrAnswersTheStream : Obligations.RnggetstrAnswersTheStream := by
  intro s hc
  have hnone : errorOf .rngGetStr s = none := errorOf_rng hc rfl rfl (pastTheTop_of_no_region _ rfl)
  have hid : s.streamId ++ ([0, 0, 0, 0] : List Byte)
      = [s.words[13], s.words[14], s.words[15], 0].flatMap bytesLE := rfl
  rw [exec_of_no_error hnone, bodyOf, hid, respond_words _ _ (by simp)]
  rfl

/-- Settles O52: the counter is not a stream word, so the block in the buffer keeps its index. -/
theorem rngsetstrKeepsThePosition : Obligations.RngsetstrKeepsThePosition := by
  intro s v hc hl x
  by_cases hv : 2 ^ 96 ≤ v.toNat
  · rw [if_pos hv]
    have he : errorOf (.rngSetStr v) s = some .illegalCommand := by
      have hop : operandsLegal (.rngSetStr v) s.caps = false := decide_eq_false (Nat.not_lt.2 hv)
      simp [errorOf, hop]
    exact exec_ordinary he (by decide) hc.1
  · rw [if_neg hv]
    obtain ⟨hfam, hw⟩ := rng_width hc hl
    have h12 : x[12] = s.words[12] := by simp [x]
    rw [exec_rngSetStr hc (Nat.not_le.1 hv), respond_nil, State.switchStream_eq, hfam, hw, ← h12]
    rfl

/-- Settles O53: the counter of a legal adapter is the 32-bit `S[12]`. -/
theorem rngsaveAnswersTheRecord : Obligations.RngsaveAnswersTheRecord := by
  intro s hc hl ctr bi
  rw [exec_rngSave hc, rng_wordPos hc hl]

/-- Settles O54: RNGLOAD is RNGSETWP on the engine with the record's stream words. -/
theorem rngloadRestoresTheRecord : Obligations.RngloadRestoresTheRecord := by
  intro s i0 i1 i2 wp hc hl x p b j
  have hc' : RngReady (s.setStream i0 i1 i2) := hc
  have hl' : ConfigLegal (s.setStream i0 i1 i2) := hl
  refine ⟨?_, ?_⟩
  · rw [exec_rngLoad hc, respond_nil, rng_setWordPos hc' hl']
    rfl
  · rw [exec_rngLoad hc]
    exact (exec_rngSetWp hc' wp).symm

/-- RNGFILL writes the same bytes on two adapters whose engines are alike. -/
theorem read_rngFill_eq {s u : State} (hc : RngReady s) (hl : ConfigLegal s) (hb : BufferValid s)
    (hcu : RngReady u) (hlu : ConfigLegal u) (hbu : BufferValid u) (hr : u.rnd = s.rnd)
    (hx : u.words = s.words) (ho : u.off = s.off) {addr len : DWord}
    (h : addr.toNat + len.toNat ≤ 2 ^ 64) :
    ∃ p q, exec (.rngFill addr len) s = .next p ∧ exec (.rngFill addr len) u = .next q
      ∧ ∀ a, addr.toNat ≤ a → a < addr.toNat + len.toNat → q.mem.read a = p.mem.read a := by
  obtain ⟨hf, hw⟩ := rng_width hc hl
  obtain ⟨hfu, hwu⟩ := rng_width hcu hlu
  have hks (p : Nat) : keystream u p = keystream s p := by
    rw [keystream, keystream, hfu, hwu, hr, hx, hf, hw]
  have hpos : u.pos = s.pos := by
    rw [pos_cases, pos_cases, rng_ctr hcu hlu, rng_ctr hc hl, hwu, hw, ho, hx]
  obtain ⟨p, hp, -, -, hreadp, -⟩ := rngfillWritesTheKeystream s addr len hc hl hb h
  obtain ⟨q, hq, -, -, hreadq, -⟩ := rngfillWritesTheKeystream u addr len hcu hlu hbu h
  refine ⟨p, q, hp, hq, fun a hlo hhi => ?_⟩
  rw [hreadp, hreadq, if_pos ⟨hlo, hhi⟩, if_pos ⟨hlo, hhi⟩, hks, hpos]

/-- Settles O55: the record names the position, so the load brings the second adapter to the words, the offset
and the buffer of the first, and RNGFILL reads no more than these. -/
theorem loadedRecordResumesTheStream : Obligations.LoadedRecordResumesTheStream := by
  intro s r hc hl hb hcr hlr hoff hrnd hseed
  obtain ⟨hfam, hw⟩ := rng_width hc hl
  obtain ⟨hfamr, hwr⟩ := rng_width hcr hlr
  have hload := exec_rngLoad hcr s.words[13] s.words[14] s.words[15] (BitVec.ofNat 128 s.wordPos)
  rw [setWordPos_of_record hc hl hoff] at hload
  have hwords := State.moveTo_words_of_position (s := s) (t := r.setStream s.words[13] s.words[14] s.words[15])
    (hfamr.trans hfam.symm) (hwr.trans hw.symm) (rng_words_of_seed hc hl hseed)
  have ho := State.moveTo_off_of_position s (r.setStream s.words[13] s.words[14] s.words[15])
  generalize hu : (r.setStream s.words[13] s.words[14] s.words[15]).moveTo s.blockIndex s.off.toNat = u
    at hload hwords ho
  have hbu : BufferValid u := hu ▸ bufferValid_moveTo fun h => absurd hcr.2.2 h
  have hcu : RngReady u := by simpa [← hu, RngReady] using hcr
  have hru : u.rnd = s.rnd := by simpa [← hu] using hrnd
  have hlu : ConfigLegal (u.respond []) := exec_keeps_configLegal hload hlr
  obtain ⟨hfu, hwu⟩ := rng_width hcu hlu
  refine ⟨s.words[13], s.words[14], s.words[15], (BitVec.ofNat 128 s.wordPos).extractLsb' 0 32,
    (BitVec.ofNat 128 s.wordPos).extractLsb' 32 32, (BitVec.ofNat 128 s.wordPos).extractLsb' 64 32,
    (BitVec.ofNat 128 s.wordPos).extractLsb' 96 32, u.respond [], exec_rngSave hc, ?_, hwords, ho, fun h => ?_,
    fun addr len hr => read_rngFill_eq hc hl hb (u := u.respond []) hcu hlu hbu hru hwords ho hr⟩
  · rw [qwordWords_join, hload]
  · exact buf_eq_of_bufferValid hb hbu hc.2.1 hcu.2.1 h ho (hfu.trans hfam.symm) (hwu.trans hw.symm) hru hwords

end Sys2Proof.Machine
end
